-- ==== Sys2Proof/Word.lean ====
section
/-! DEFINITION. The word types of the unit and the representation of a big integer (00_scope.md rules R5, R8). -/

namespace Sys2Proof

/-- A 32-bit word: a limb, a command word, a scalar or control register (00 R5, 10 R28 to R36). -/
abbrev Word := BitVec 32

/-- One byte of the limb buffer (see log entry 5). -/
abbrev Byte := BitVec 8

/-- A limb sequence, least significant limb first (00 R8). -/
abbrev Limbs := List Word

/-- The limb radix `B = 2^32` (00 R5). -/
abbrev radix : Nat := 4294967296

/-- A BigInt value: a sign and a limb sequence (00 R8). -/
structure BigInt where
  sign : Bool
  limbs : Limbs
  deriving DecidableEq, Repr

end Sys2Proof
end

