-- ==== Sys2Proof/Syntax.lean ====
section
/-! DEFINITION. The 24 commands (30_encoding.md rule R94): one constructor per row of spec/opcode_table.json, with
the register operands in the order of the mnemonic column (30_encoding.md rule R98). -/

namespace Sys2Proof

/-- The number of a big register, `B0` to `B15` (10 R21). -/
abbrev BigReg := Fin 16

/-- A command of the unit (30 R94). `rd` is the destination, `ra` and `rb` the sources, `rc` the modulus of MULMOD
and MODEXP or the second destination of BEZOUT (30 R91). -/
inductive Instr where
  | ld (rd : BigReg)
  | st (ra : BigReg)
  | mov (rd ra : BigReg)
  | ldi (rd : BigReg)
  | add (rd ra rb : BigReg)
  | sub (rd ra rb : BigReg)
  | mul (rd ra rb : BigReg)
  | muls (rd ra : BigReg)
  | muladd (rd ra : BigReg)
  | div (rd ra rb : BigReg)
  | mod (rd ra rb : BigReg)
  | shl (rd ra : BigReg)
  | shr (rd ra : BigReg)
  | cmp (ra rb : BigReg)
  | size (ra : BigReg)
  | tz (ra : BigReg)
  | bit (ra : BigReg)
  | abs (rd ra : BigReg)
  | ispow2 (ra : BigReg)
  | gcd (rd ra rb : BigReg)
  | bezout (rd rc ra rb : BigReg)
  | modinv (rd ra rb : BigReg)
  | mulmod (rd ra rb rc : BigReg)
  | modexp (rd ra rb rc : BigReg)
  deriving DecidableEq, Repr

end Sys2Proof
end

