-- ==== Sys2Proof/WellFormed.lean ====
section
/-! DEFINITION. Which terms of `Instr` are commands of the unit: all 16 values of every register field are legal, and
BEZOUT's two destinations must differ (30_encoding.md rule R95). -/

namespace Sys2Proof

/-- BEZOUT must not name one register for its two results (30 R95); every other term is a command. -/
def Instr.wellFormed : Instr → Bool
  | .bezout rd rc _ _ => rd != rc
  | .ld _ => true
  | .st _ => true
  | .mov _ _ => true
  | .ldi _ => true
  | .add _ _ _ => true
  | .sub _ _ _ => true
  | .mul _ _ _ => true
  | .muls _ _ => true
  | .muladd _ _ => true
  | .div _ _ _ => true
  | .mod _ _ _ => true
  | .shl _ _ => true
  | .shr _ _ => true
  | .cmp _ _ => true
  | .size _ => true
  | .tz _ => true
  | .bit _ => true
  | .abs _ _ => true
  | .ispow2 _ => true
  | .gcd _ _ _ => true
  | .modinv _ _ _ => true
  | .mulmod _ _ _ _ => true
  | .modexp _ _ _ _ => true

end Sys2Proof
end

