-- ==== Sys2Proof/Decode.lean ====
section
/-! DEFINITION. The command word (30_encoding.md rules R90 to R96): the decoder, total on 32-bit words and rejecting by
name, and after it the encoder. -/

namespace Sys2Proof

/-- Why a word is not a command; every reason ends in the error IllegalCommand (30 R95, 60 R280). -/
inductive DecodeError where
  /-- Bits 31:24 are not zero. -/
  | zeroFieldSet
  /-- No row of rule R94 has the opcode. -/
  | unassignedOpcode
  /-- A register field the format does not use is not 0. -/
  | unusedFieldSet
  /-- BEZOUT with `rd = rc`. -/
  | sameDestination
  deriving DecidableEq, Repr

/-- The six formats: which register fields a command uses (30 R92). -/
inductive Format where
  | fmtD | fmtA | fmtDA | fmtAB | fmtDAB | fmtDABC
  deriving DecidableEq, Repr

/-- The bits that must match exactly (30 R92, column `mask`). -/
def Format.mask : Format → Word
  | .fmtD => 0xFFFFF0FF
  | .fmtA => 0xFFFF0FFF
  | .fmtDA => 0xFFFF00FF
  | .fmtAB => 0xFFF00FFF
  | .fmtDAB => 0xFFF000FF
  | .fmtDABC => 0xFF0000FF

/-- Bits 7:0 of the command word (30 R91). -/
def opcodeField (c : Word) : BitVec 8 := c.extractLsb' 0 8
/-- Bits 11:8 of the command word (30 R91). -/
def rdField (c : Word) : BigReg := (c.extractLsb' 8 4).toFin
/-- Bits 15:12 of the command word (30 R91). -/
def raField (c : Word) : BigReg := (c.extractLsb' 12 4).toFin
/-- Bits 19:16 of the command word (30 R91). -/
def rbField (c : Word) : BigReg := (c.extractLsb' 16 4).toFin
/-- Bits 23:20 of the command word (30 R91). -/
def rcField (c : Word) : BigReg := (c.extractLsb' 20 4).toFin
/-- Bits 31:24 of the command word, which must be 0 (30 R91). -/
def zeroField (c : Word) : BitVec 8 := c.extractLsb' 24 8

/-- The opcode map (30 R94): the format of each assigned opcode, and the command that the fields `rd ra rb rc` name. -/
def opcodeRow (op : BitVec 8) : Option (Format × (BigReg → BigReg → BigReg → BigReg → Instr)) :=
  match op.toNat with
  | 0x01 => some (.fmtD, fun rd _ _ _ => .ld rd)
  | 0x02 => some (.fmtA, fun _ ra _ _ => .st ra)
  | 0x03 => some (.fmtDA, fun rd ra _ _ => .mov rd ra)
  | 0x04 => some (.fmtD, fun rd _ _ _ => .ldi rd)
  | 0x10 => some (.fmtDAB, fun rd ra rb _ => .add rd ra rb)
  | 0x11 => some (.fmtDAB, fun rd ra rb _ => .sub rd ra rb)
  | 0x20 => some (.fmtDAB, fun rd ra rb _ => .mul rd ra rb)
  | 0x21 => some (.fmtDA, fun rd ra _ _ => .muls rd ra)
  | 0x22 => some (.fmtDA, fun rd ra _ _ => .muladd rd ra)
  | 0x30 => some (.fmtDAB, fun rd ra rb _ => .div rd ra rb)
  | 0x31 => some (.fmtDAB, fun rd ra rb _ => .mod rd ra rb)
  | 0x40 => some (.fmtDA, fun rd ra _ _ => .shl rd ra)
  | 0x41 => some (.fmtDA, fun rd ra _ _ => .shr rd ra)
  | 0x50 => some (.fmtAB, fun _ ra rb _ => .cmp ra rb)
  | 0x51 => some (.fmtA, fun _ ra _ _ => .size ra)
  | 0x52 => some (.fmtA, fun _ ra _ _ => .tz ra)
  | 0x53 => some (.fmtA, fun _ ra _ _ => .bit ra)
  | 0x54 => some (.fmtDA, fun rd ra _ _ => .abs rd ra)
  | 0x55 => some (.fmtA, fun _ ra _ _ => .ispow2 ra)
  | 0x60 => some (.fmtDAB, fun rd ra rb _ => .gcd rd ra rb)
  | 0x61 => some (.fmtDABC, fun rd ra rb rc => .bezout rd rc ra rb)
  | 0x62 => some (.fmtDAB, fun rd ra rb _ => .modinv rd ra rb)
  | 0x63 => some (.fmtDABC, fun rd ra rb rc => .mulmod rd ra rb rc)
  | 0x64 => some (.fmtDABC, fun rd ra rb rc => .modexp rd ra rb rc)
  | _ => none

/-- The decoder (30 R95), its tests in the rule's order: the zero field, the opcode, the unused fields, BEZOUT's
destinations. -/
def decode (c : Word) : Except DecodeError Instr :=
  if zeroField c ≠ 0 then .error .zeroFieldSet
  else match opcodeRow (opcodeField c) with
    | none => .error .unassignedOpcode
    | some (fmt, build) =>
      if c &&& fmt.mask ≠ (opcodeField c).setWidth 32 then .error .unusedFieldSet
      else
        let i := build (rdField c) (raField c) (rbField c) (rcField c)
        if i.wellFormed then .ok i else .error .sameDestination

/-- The command word with the given fields (30 R91, R94: `opcode | rd << 8 | ra << 12 | rb << 16 | rc << 20`). -/
def assemble (op : BitVec 8) (rd ra rb rc : BigReg) : Word :=
  (0#8 ++ BitVec.ofFin (w := 4) rc ++ BitVec.ofFin (w := 4) rb ++ BitVec.ofFin (w := 4) ra
    ++ BitVec.ofFin (w := 4) rd ++ op)

/-- The word of a command; the fields its format does not use are 0 (30 R91, R94). -/
def encode : Instr → Word
  | .ld rd => assemble 0x01 rd 0 0 0
  | .st ra => assemble 0x02 0 ra 0 0
  | .mov rd ra => assemble 0x03 rd ra 0 0
  | .ldi rd => assemble 0x04 rd 0 0 0
  | .add rd ra rb => assemble 0x10 rd ra rb 0
  | .sub rd ra rb => assemble 0x11 rd ra rb 0
  | .mul rd ra rb => assemble 0x20 rd ra rb 0
  | .muls rd ra => assemble 0x21 rd ra 0 0
  | .muladd rd ra => assemble 0x22 rd ra 0 0
  | .div rd ra rb => assemble 0x30 rd ra rb 0
  | .mod rd ra rb => assemble 0x31 rd ra rb 0
  | .shl rd ra => assemble 0x40 rd ra 0 0
  | .shr rd ra => assemble 0x41 rd ra 0 0
  | .cmp ra rb => assemble 0x50 0 ra rb 0
  | .size ra => assemble 0x51 0 ra 0 0
  | .tz ra => assemble 0x52 0 ra 0 0
  | .bit ra => assemble 0x53 0 ra 0 0
  | .abs rd ra => assemble 0x54 rd ra 0 0
  | .ispow2 ra => assemble 0x55 0 ra 0 0
  | .gcd rd ra rb => assemble 0x60 rd ra rb 0
  | .bezout rd rc ra rb => assemble 0x61 rd ra rb rc
  | .modinv rd ra rb => assemble 0x62 rd ra rb 0
  | .mulmod rd ra rb rc => assemble 0x63 rd ra rb rc
  | .modexp rd ra rb rc => assemble 0x64 rd ra rb rc

/-- What the decoder reads from a command of `nbits` bits whose bits are `w` (bit 0 the least significant); a command
has one 32-bit word (30 R90), and the bits above `nbits` are 0. -/
def decodeTableWord (nbits w : Nat) : Option Instr :=
  match decode (BitVec.ofNat 32 (w % 2 ^ nbits)) with
  | .ok i => some i
  | .error _ => none

end Sys2Proof
end

