-- ==== Sys2Proof/Bus.lean ====
section
/-! DEFINITION. What crosses the unit's bus port: the host's accesses and the responses to them (20_memory.md rule R62). -/

namespace Sys2Proof.Machine

/-- The width of a host access (20 R62): only 32-bit accesses are defined. -/
inductive AccessWidth where
  | w8 | w16 | w32 | w64
  deriving DecidableEq, Repr

/-- What the host asks of the window (20 R62). -/
inductive AccessKind where
  | read
  | write (value : Word)
  deriving DecidableEq, Repr

/-- One host access: its width, the byte offset from the base of the window, and what it asks (20 R60, R62). -/
structure Access where
  width : AccessWidth
  offset : Nat
  kind : AccessKind
  deriving DecidableEq, Repr

/-- The bus response to an access (20 R62). -/
inductive Response where
  /-- No access has been made since reset (log entry 8). -/
  | none
  /-- A read's word. -/
  | word (w : Word)
  /-- A write's `ok`. -/
  | ok
  /-- `BusError`: not a 32-bit access at a multiple of 4. -/
  | busError
  deriving DecidableEq, Repr, Inhabited

end Sys2Proof.Machine
end

