-- ==== Sys2Proof/Config.lean ====
section
/-! DEFINITION. What an implementation fixes: the build parameters LMAX and LADDER (00_scope.md rule R5), the
constants of ID (10_state.md rule R30), and the free values: the limb buffer after reset (10_state.md rule R40), and what
answers an access outside the window (93_implementation_defined.md U10). -/

namespace Sys2Proof

/-- The OPEN build parameters (00 R5; 92 D3, D36). Every state carries its own, no step changes them, and every
definition and statement takes them as they come. -/
structure Params where
  /-- The capacity of a big register and of the limb buffer, in limbs: `2 <= LMAX <= 65535`. -/
  lmax : Nat
  /-- Whether MODEXP was built as the Montgomery ladder (45 R258). -/
  ladder : Bool
  deriving DecidableEq, Repr

/-- The range the spec gives LMAX (00 R5). -/
abbrev Params.Ok (p : Params) : Prop := 2 ≤ p.lmax ∧ p.lmax ≤ 65535

namespace Config

/-- The build that `State.reset` shows: LMAX = 64 as in the spec's vectors, standard MODEXP.
DESIGN CHOICE, unsafe for a claim that leans on the numbers (log entry 3). -/
def built : Params := { lmax := 64, ladder := false }

/-- Number of big registers (00 R5). -/
def nreg : Nat := 16

/-- Interface version (00 R5, 10 R30). -/
def version : Nat := 1

/-- FREE VALUE: the byte at a window offset (second argument) of OBUF after the reset event with the given number
(first argument), as long as nothing has written it: "each word may hold any 32-bit value" (10 R40, 93 U1; log entry 4). -/
opaque obufAfterReset : Nat → Nat → BitVec 8

/-- FREE VALUE: the platform's response to the access outside the window that follows the given numbers of reset events
(first argument) and of such accesses since (second argument): "what answers it is the platform's" (93 U10; log entry 7). -/
opaque platformResponse : Nat → Nat → Machine.Response

end Config
end Sys2Proof
end

