-- ==== Sys2Proof/Machine/BigNum.lean ====
section
/-! DEFINITION. Big-integer values and the notation of the spec (00_scope.md rules R7, R8): bit length, leading zeros,
magnitude, value, normalization, `big(v)` and `len(v)`. -/

namespace Sys2Proof

/-- `bitlength(v)`: the least `k` with `v < 2^k` (00 R7). -/
def bitlength (v : Nat) : Nat := if v = 0 then 0 else v.log2 + 1

/-- `clz32(v) = 32 - bitlength(v)` (00 R7); no rule evaluates it at 0. -/
def clz32 (w : Word) : Nat := 32 - bitlength w.toNat

/-- The magnitude that a limb sequence spells, limb 0 least significant (00 R8). -/
def mag : Limbs → Nat
  | [] => 0
  | w :: ws => w.toNat + radix * mag ws

/-- Limb `i` of a sequence, taken as 0 above its top (41, section 1). -/
def limbAt (x : Limbs) (i : Nat) : Word := x.getD i 0

/-- A sequence without its most-significant zero limbs. -/
def dropTopZeros : Limbs → Limbs
  | [] => []
  | w :: ws =>
    match dropTopZeros ws with
    | [] => if w = 0 then [] else [w]
    | v :: vs => w :: v :: vs

/-- Most-significant zero limbs dropped down to one limb (00 R8). -/
def strip (x : Limbs) : Limbs :=
  match dropTopZeros x with
  | [] => [0]
  | v :: vs => v :: vs

/-- `norm(sign, limbs)`: the normalized value with the same `val`; zero has sign false (00 R8). -/
def norm (sign : Bool) (x : Limbs) : BigInt :=
  { sign := sign && mag x != 0, limbs := strip x }

/-- The limbs of a non-negative integer, at most `fuel` of them, without a top zero limb. -/
def limbsOf : Nat → Nat → Limbs
  | 0, _ => []
  | fuel + 1, v => if v = 0 then [] else BitVec.ofNat 32 v :: limbsOf fuel (v / radix)

/-- The normalized limb sequence of a non-negative integer (00 R8). -/
def natLimbs (v : Nat) : Limbs :=
  if v = 0 then [0] else limbsOf ((bitlength v + 31) / 32) v

/-- `big(v)`: the unique normalized BigInt value with `val = v` (00 R8). -/
def big (v : Int) : BigInt := { sign := decide (v < 0), limbs := natLimbs v.natAbs }

/-- `len(v) = max(1, ceil(bitlength(|v|) / 32))`: the limb count of `big(v)` (00 R8). -/
def lenOf (v : Int) : Nat := max 1 ((bitlength v.natAbs + 31) / 32)

/-- `mag(x)` of a BigInt value (00 R8). -/
def BigInt.mag (x : BigInt) : Nat := Sys2Proof.mag x.limbs

/-- `val(x)`: minus the magnitude if the sign is set, else the magnitude (00 R8). -/
def BigInt.val (x : BigInt) : Int := if x.sign then -(x.mag : Int) else (x.mag : Int)

/-- `len(x)`: the limb count (00 R8). -/
def BigInt.len (x : BigInt) : Nat := x.limbs.length

/-- The value 0: sign false, one limb 0 (10 R40). -/
def BigInt.zero : BigInt := { sign := false, limbs := [0] }

/-- A limb sequence is normalized: non-empty, and its top limb is not zero unless it is the only limb (00 R8, 10 R22). -/
abbrev LimbsNormal (x : Limbs) : Prop := x ≠ [] ∧ (x.getLast? = some 0 → x = [0])

/-- The document's invariants of a BigInt value (10 R22): normalized limbs, and sign false for zero. -/
abbrev BigInt.Normal (x : BigInt) : Prop := LimbsNormal x.limbs ∧ (x.sign = true → x.limbs ≠ [0])

end Sys2Proof
end

