-- ==== Sys2Proof/Machine/State.lean ====
section
/-! DEFINITION. The architectural state (10_state.md), the events that drive the machine (10_state.md rule R20), the ways
a step can stop, and the state after reset (10_state.md rule R40). -/

namespace Sys2Proof.Machine

/-- The errors of the unit (60 R280). An error is the unit's exception: taking it is a next state (60 R283). -/
inductive ErrorKind where
  | divisionByZero
  | negativeModulus
  | illegalCommand
  | overflow
  | domain
  | noInverse
  | length
  deriving DecidableEq, Repr

/-- One event in the total order of 20 R68 (log entry 1). -/
inductive Event where
  /-- The host's access (10 R20). -/
  | access (a : Access)
  /-- The unit gets its turn: it takes its completion step if BUSY = 1 (10 R20, 20 R70). -/
  | unitTurn
  /-- `rst` is asserted (70 R320). -/
  | reset
  deriving DecidableEq, Repr

/-- The state of the unit, and four fields of the model's own (`inputs`, `resp`, `epoch`, `strays`). -/
structure State where
  /-- LMAX and LADDER (00 R5): constants of the build, in the state so that every statement holds for all of them. -/
  params : Params
  /-- The big registers `B0` to `B15` (10 R21, R22). -/
  regs : Vector BigInt 16
  /-- STATUS.Z (10 R27). -/
  z : Bool
  /-- STATUS.N (10 R27). -/
  n : Bool
  /-- STATUS.BUSY (10 R28). -/
  busy : Bool
  /-- STATUS.DONE (10 R28). -/
  done : Bool
  /-- STATUS.ERR (10 R28). -/
  err : Bool
  /-- STATUS.DROP (10 R28). -/
  drop : Bool
  /-- STATUS.ECODE (10 R28). -/
  ecode : BitVec 4
  /-- CTRL.IE (10 R29). -/
  ie : Bool
  /-- ECMD (10 R32). -/
  ecmd : Word
  /-- SA (10 R33). -/
  sa : Word
  /-- SB (10 R33). -/
  sb : Word
  /-- SRES (10 R34). -/
  sres : Word
  /-- OHDR.OLEN (10 R35). -/
  olen : BitVec 16
  /-- OHDR.OSIGN (10 R35). -/
  osign : Bool
  /-- OBUF: the bytes written since reset, keyed by window offset, offsets strictly rising (10 R36; log entries 4, 5). -/
  obuf : List Host.Cell
  /-- CUR, the word of the command in flight (10 R37). -/
  cur : Word
  /-- The model's own: the events that the outside presents next (log entry 1). -/
  inputs : List Event
  /-- The model's own: the bus response to the latest access (log entry 8). -/
  resp : Response
  /-- The model's own: the number of reset events, argument of OBUF's free value (log entries 4, 9). -/
  epoch : Nat
  /-- The model's own: the number of accesses outside the window since reset, argument of the platform's answer to the next
  one (log entry 7). -/
  strays : Nat
  deriving DecidableEq, Repr

/-- Why the machine stops with a fault: never. An error of the unit is a next state (60 R283), BusError is a response
(20 R62), and an access outside the window leaves the unit as it is (93 U10; log entry 7). -/
inductive Fault where
  deriving DecidableEq, Repr

/-- Why a command has no meaning. -/
inductive Refusal where
  /-- The command is not modelled. Safe: nothing is claimed of it. No arm of `exec` answers it. -/
  | notModelled (mnemonic : String)
  deriving DecidableEq, Repr

/-- The state after the `epoch`-th reset of the build `p` (10 R40): big registers 0, flags, STATUS, CTRL, ECMD, scalars
and OHDR 0, no byte of OBUF known. CUR is "not meaningful": 0, DESIGN CHOICE (log entry 6). -/
def State.resetOf (p : Params) (epoch : Nat) (inputs : List Event) : State :=
  { params := p
    regs := Vector.replicate 16 BigInt.zero
    z := false
    n := false
    busy := false
    done := false
    err := false
    drop := false
    ecode := 0
    ie := false
    ecmd := 0
    sa := 0
    sb := 0
    sres := 0
    olen := 0
    osign := false
    obuf := []
    cur := 0
    inputs := inputs
    resp := .none
    epoch := epoch
    strays := 0 }

/-- The machine right after reset (10 R40), for the build `Config.built` (log entry 3), no event presented yet. -/
def State.reset : State := State.resetOf Config.built 0 []

end Sys2Proof.Machine
end

