-- ==== Sys2Proof/Machine/Flags.lean ====
section
/-! DEFINITION. The flags Z and N (10_state.md rule R27). -/

namespace Sys2Proof.Machine

/-- Write both flags (10 R27). -/
def State.setFlags (s : State) (z n : Bool) : State := { s with z := z, n := n }

/-- `setZN(v)`: Z for `v = 0`, N for `v < 0` (00 R9, 10 R27). -/
def State.setZN (s : State) (v : Int) : State := s.setFlags (decide (v = 0)) (decide (v < 0))

/-- The flags of a command whose result goes to SRES (SIZE, TZ, BIT, ISPOW2): Z for a zero result, N = 0 (10 R27). -/
def State.setZScalar (s : State) (v : Word) : State := s.setFlags (decide (v = 0)) false

end Sys2Proof.Machine
end

