-- ==== Sys2Proof/Machine/Operands.lean ====
section
/-! DEFINITION. The operands of a command: big registers (10_state.md rule R24) and the scalars, each read as
30_encoding.md rule R93 says. -/

namespace Sys2Proof.Machine

/-- `B[i]` (00 R9): no register is hardwired (10 R21). -/
def State.reg (s : State) (i : BigReg) : BigInt := s.regs[i]

/-- `val(B[i])` (00 R9). -/
def State.regVal (s : State) (i : BigReg) : Int := (s.reg i).val

/-- SHL, SHR: `sext_32(SA)`, a signed shift count (30 R93). -/
def State.shiftCount (s : State) : Int := s.sa.toInt

/-- BIT: `zext_32(SA)`, a bit index (30 R93). -/
def State.bitIndex (s : State) : Nat := s.sa.toNat

/-- MULS, MULADD: `zext_32(SA)`, a one-limb unsigned multiplier (30 R93). -/
def State.multiplier (s : State) : Word := s.sa

/-- MULADD: `zext_32(SB)`, the one-limb unsigned addend (30 R93). -/
def State.addend (s : State) : Word := s.sb

/-- LDI: `sext_64({SB, SA})`, SB the high word (30 R93). -/
def State.wideScalar (s : State) : Int := (s.sb ++ s.sa : BitVec 64).toInt

end Sys2Proof.Machine
end

