-- ==== Sys2Proof/Machine/Ops.lean ====
section
/-! DEFINITION. The named operations over the state: the limb buffer, the register writes, taking an error and
acknowledging it (60_exceptions.md), completing a command, issuing one, the host's reads and writes of the window
(20_memory.md) and the reset event (70_reset_and_hazards.md). -/

namespace Sys2Proof.Machine

/-! ### The limb buffer as byte cells -/

/-- The byte that a cell list holds at an offset, if it holds one. -/
def cellAt : List Host.Cell → Nat → Option Byte
  | [], _ => none
  | (k, b) :: m, a => if k = a then some b else cellAt m a

/-- Write one byte, keeping the offsets strictly rising. -/
def putCell : List Host.Cell → Nat → Byte → List Host.Cell
  | [], a, v => [(a, v)]
  | (k, b) :: m, a, v =>
    if a < k then (a, v) :: (k, b) :: m
    else if a = k then (a, v) :: m
    else (k, b) :: putCell m a v

/-- The canonical form of a memory: offsets strictly rising. An unlisted offset holds no byte yet, so no entry can equal
what it reads as (log entry 4). -/
abbrev Memory.wf (m : List Host.Cell) : Prop := m.Pairwise (fun x y => x.1 < y.1)

/-- Byte `k` of a word, byte 0 the least significant (log entry 5). -/
def byteOf (w : Word) (k : Nat) : Byte := w.extractLsb' (8 * k) 8

/-- Write the four bytes of a word at an offset. -/
def putWord (m : List Host.Cell) (a : Nat) (w : Word) : List Host.Cell :=
  putCell (putCell (putCell (putCell m a (byteOf w 0)) (a + 1) (byteOf w 1)) (a + 2) (byteOf w 2)) (a + 3) (byteOf w 3)

/-- The cells of consecutive words from an offset on. -/
def wordCells : Nat → Limbs → List Host.Cell
  | _, [] => []
  | a, w :: ws =>
    (a, byteOf w 0) :: (a + 1, byteOf w 1) :: (a + 2, byteOf w 2) :: (a + 3, byteOf w 3) :: wordCells (a + 4) ws

/-- The offset of OBUF[0] (10 R39). -/
def obufBase : Nat := 0x1000

/-- The offset of OBUF[i] (10 R36). -/
def obufOffset (i : Nat) : Nat := obufBase + 4 * i

/-- One byte of the limb buffer: what was last written there since reset, else the free value (10 R40, log entry 4). -/
def State.readByte (s : State) (a : Nat) : Byte :=
  match cellAt s.obuf a with
  | some b => b
  | none => Config.obufAfterReset s.epoch a

/-- The word whose first byte is at an offset. -/
def State.readWord (s : State) (a : Nat) : Word :=
  s.readByte (a + 3) ++ s.readByte (a + 2) ++ s.readByte (a + 1) ++ s.readByte a

/-- OBUF[i] (10 R36). -/
def State.obufWord (s : State) (i : Nat) : Word := s.readWord (obufOffset i)

/-- OBUF[0 .. n-1] (10 R36). -/
def State.obufLimbs (s : State) (n : Nat) : Limbs := (List.range n).map s.obufWord

/-- Write OBUF[i] (10 R36). -/
def State.setObufWord (s : State) (i : Nat) (w : Word) : State :=
  { s with obuf := putWord s.obuf (obufOffset i) w }

/-- ST's write: OHDR and the whole of OBUF, zero above the value's limbs (40 R121). -/
def State.storeBuffer (s : State) (x : BigInt) : State :=
  { s with
    olen := BitVec.ofNat 16 x.len
    osign := x.sign
    obuf := wordCells obufBase (x.limbs ++ List.replicate (s.params.lmax - x.len) 0) }

/-! ### Ending a command -/

/-- The value of STATUS.ECODE for an error (60 R280). -/
def ErrorKind.code : ErrorKind → BitVec 4
  | .divisionByZero => 1
  | .negativeModulus => 2
  | .illegalCommand => 3
  | .overflow => 4
  | .domain => 5
  | .noInverse => 6
  | .length => 7

/-- The end of a command without error (20 R70): BUSY falls, DONE rises. -/
def State.complete (s : State) : State := { s with busy := false, done := true }

/-- TAKING AN ERROR (60 R283): ERR, ECODE and ECMD are recorded from CUR, BUSY falls, DONE rises, and nothing else
changes. -/
def State.raise (s : State) (e : ErrorKind) : State :=
  { s with err := true, ecode := e.code, ecmd := s.cur, busy := false, done := true }

/-- The return from an error (60 R287): ERR, ECODE and ECMD are cleared and nothing else is restored. -/
def State.acknowledge (s : State) : State := { s with err := false, ecode := 0, ecmd := 0 }

/-- Store `big(v)` in a big register (00 R9); the capacity check is `State.fits`. -/
def State.setReg (s : State) (i : BigReg) (v : Int) : State := { s with regs := s.regs.set i (big v) }

/-- The capacity check of every write to a big register: `len(v) <= LMAX` (60 R285). -/
abbrev State.fits (s : State) (v : Int) : Prop := lenOf v ≤ s.params.lmax

/-- `B[rd] <- v; setZN(v)` and the end of the command; Overflow and no write if `v` does not fit (00 R9, 60 R285). -/
def State.finishBig (s : State) (rd : BigReg) (v : Int) : State :=
  if s.fits v then ((s.setReg rd v).setZN v).complete else s.raise .overflow

/-- BEZOUT's two writes: both checked before either is written, flags from the first (45 R244). -/
def State.finishBigPair (s : State) (rd rc : BigReg) (v w : Int) : State :=
  if s.fits v ∧ s.fits w then (((s.setReg rd v).setReg rc w).setZN v).complete else s.raise .overflow

/-- Write SRES (10 R34). -/
def State.setSres (s : State) (w : Word) : State := { s with sres := w }

/-- `SRES <- v`, Z for a zero result, N = 0, and the end of the command (10 R27, R34). -/
def State.finishScalar (s : State) (v : Nat) : State :=
  ((s.setSres (BitVec.ofNat 32 v)).setZScalar (BitVec.ofNat 32 v)).complete

/-! ### Issue -/

/-- The acceptance of a command (20 R66). -/
def State.accept (s : State) (c : Word) : State := { s with cur := c, busy := true, done := false }

/-- A host write is dropped: DROP rises, nothing else changes (20 R65, R66). -/
def State.dropWrite (s : State) : State := { s with drop := true }

/-- The host's write of CMD (20 R66). -/
def State.issue (s : State) (c : Word) : State := if s.busy || s.err then s.dropWrite else s.accept c

/-- The word that the unit's next completion step decodes (10 R37, 20 R70). -/
def State.fetchWord (s : State) : Word := s.cur

/-! ### The window -/

/-- The least `AW` with `2^AW >= 0x1000 + 4*LMAX` (20 R60). -/
def Params.addressBits (p : Params) : Nat := bitlength (obufBase + 4 * p.lmax - 1)

/-- The number of byte offsets of the window (20 R60). -/
def windowSize (p : Params) : Nat := 2 ^ Params.addressBits p

/-- What stands at an offset of the window (10 R39). -/
inductive Location where
  | id | ctrl | status | cmd | ecmd | sa | sb | sres | ohdr
  | obuf (i : Nat)
  | reserved
  deriving DecidableEq, Repr

/-- The register map (10 R39) at an offset that is a multiple of 4. -/
def locate (p : Params) (offset : Nat) : Location :=
  match offset with
  | 0x000 => .id
  | 0x004 => .ctrl
  | 0x008 => .status
  | 0x00C => .cmd
  | 0x010 => .ecmd
  | 0x014 => .sa
  | 0x018 => .sb
  | 0x01C => .sres
  | 0x020 => .ohdr
  | _ =>
    if obufBase ≤ offset ∧ offset < obufBase + 4 * p.lmax then .obuf ((offset - obufBase) / 4) else .reserved

/-- ID (10 R30). -/
def idWord (p : Params) : Word :=
  BitVec.ofNat 4 Config.version ++ 0#3 ++ BitVec.ofBool p.ladder ++ 0#3 ++ BitVec.ofNat 5 Config.nreg
    ++ BitVec.ofNat 16 p.lmax

/-- CTRL as it reads (10 R29). -/
def State.ctrlWord (s : State) : Word := 0#31 ++ BitVec.ofBool s.ie

/-- STATUS as it reads (10 R28). -/
def State.statusWord (s : State) : Word :=
  0#22 ++ BitVec.ofBool s.n ++ BitVec.ofBool s.z ++ s.ecode ++ BitVec.ofBool s.drop ++ BitVec.ofBool s.err
    ++ BitVec.ofBool s.done ++ BitVec.ofBool s.busy

/-- OHDR as it reads (10 R35). -/
def State.ohdrWord (s : State) : Word := BitVec.ofBool s.osign ++ 0#15 ++ s.olen

/-- The output `irq`: a level, IE and DONE (60 R289). -/
def State.irq (s : State) : Bool := s.ie && s.done

/-- What a read of a location returns (10 R28 to R36, 20 R64). -/
def State.readLocation (s : State) : Location → Word
  | .id => idWord s.params
  | .ctrl => s.ctrlWord
  | .status => s.statusWord
  | .cmd => 0
  | .ecmd => s.ecmd
  | .sa => s.sa
  | .sb => s.sb
  | .sres => s.sres
  | .ohdr => s.ohdrWord
  | .obuf i => s.obufWord i
  | .reserved => 0

/-- The host's write of STATUS: the W1C bits of one write together; clearing ERR acknowledges the error (10 R28, 60 R287). -/
def State.writeStatus (s : State) (v : Word) : State :=
  let t := if v.getLsbD 2 then s.acknowledge else s
  { t with done := s.done && !v.getLsbD 1, drop := s.drop && !v.getLsbD 3 }

/-- A write that is dropped while a command is in flight (20 R65). -/
def State.unlessBusy (s t : State) : State := if s.busy then s.dropWrite else t

/-- What a write to a location does (10 R28 to R36, 20 R63 to R66). -/
def State.writeLocation (s : State) (v : Word) : Location → State
  | .id => s
  | .ctrl => { s with ie := v.getLsbD 0 }
  | .status => s.writeStatus v
  | .cmd => s.issue v
  | .ecmd => s
  | .sa => s.unlessBusy { s with sa := v }
  | .sb => s.unlessBusy { s with sb := v }
  | .sres => s
  | .ohdr => s.unlessBusy { s with olen := v.extractLsb' 0 16, osign := v.getLsbD 31 }
  | .obuf i => s.unlessBusy (s.setObufWord i v)
  | .reserved => s

/-- The bus response of an access (log entry 8). -/
def State.respond (s : State) (r : Response) : State := { s with resp := r }

/-- An access outside the window: it "does not reach the unit at all; what answers it is the platform's, and the unit's
state does not change" (93 U10). The response is a free value, and the model counts such accesses (log entry 7). -/
def State.stray (s : State) : State :=
  { s with resp := Config.platformResponse s.epoch s.strays, strays := s.strays + 1 }

/-- One host access (20 R62): outside the window it does not reach the unit (93 U10); of another width or alignment
it gets BusError and changes nothing; else it is performed. -/
def State.access (s : State) (a : Access) : Host.Outcome State Fault Refusal :=
  if windowSize s.params ≤ a.offset then .next s.stray
  else if a.width ≠ .w32 ∨ a.offset % 4 ≠ 0 then .next (s.respond .busError)
  else match a.kind with
    | .read => .next (s.respond (.word (s.readLocation (locate s.params a.offset))))
    | .write v => .next ((s.writeLocation v (locate s.params a.offset)).respond .ok)

/-- The reset event (70 R320, R321): the state of 10 R40 whatever it was before; the events still to come stand, and OBUF
is unspecified afresh (log entries 4, 9). -/
def State.resetEvent (s : State) : State := State.resetOf s.params (s.epoch + 1) s.inputs

/-- The events still to come. -/
def State.setInputs (s : State) (l : List Event) : State := { s with inputs := l }

end Sys2Proof.Machine
end

