-- ==== Sys2Proof/Machine/AddSub.lean ====
section
/-! DEFINITION. The adder/subtractor (41_addsub.md): the magnitude primitives with carry and borrow propagation, the
signed dispatch, and the commands ADD and SUB. -/

namespace Sys2Proof

/-- "Pad the shorter operand with zero limbs" (41, section 1). -/
def padTo (n : Nat) (x : Limbs) : Limbs := x ++ List.replicate (n - x.length) 0

/-- The carry chain of R140, limb by limb; a carry out of the top limb becomes a limb. -/
def addLoop : List (Word × Word) → Nat → Limbs
  | [], carry => if carry ≠ 0 then [BitVec.ofNat 32 carry] else []
  | (x, y) :: ps, carry =>
    let acc := x.toNat + y.toNat + carry
    BitVec.ofNat 32 acc :: addLoop ps (acc / radix)

/-- `mag_add(x, y)` (41 R140). -/
def magAdd (x y : Limbs) : Limbs :=
  let n := max x.length y.length
  addLoop ((padTo n x).zip (padTo n y)) 0

/-- Comparison of limb pairs, most significant first: the first difference decides (41 R141). -/
def cmpTop : List (Word × Word) → Int
  | [] => 0
  | (x, y) :: ps => if x.toNat < y.toNat then -1 else if y.toNat < x.toNat then 1 else cmpTop ps

/-- `mag_cmp(x, y)` of normalized magnitudes: the limb count, then the limbs from the top (41 R141). -/
def magCmp (x y : Limbs) : Int :=
  if x.length < y.length then -1
  else if y.length < x.length then 1
  else cmpTop (x.zip y).reverse

/-- The borrow chain of R142. -/
def subLoop : List (Word × Word) → Int → Limbs
  | [], _ => []
  | (x, y) :: ps, borrow =>
    let d : Int := (x.toNat : Int) - (y.toNat : Int) - borrow
    if d < 0 then BitVec.ofInt 32 (d + 4294967296) :: subLoop ps 1
    else BitVec.ofInt 32 d :: subLoop ps 0

/-- `mag_sub(x, y)`, defined when `mag(x) >= mag(y)` (41 R142). -/
def magSub (x y : Limbs) : Limbs := strip (subLoop (x.zip (padTo x.length y)) 0)

/-- `msub(x, y)`: the signed magnitude difference, "swap operands and flip the result sign" (41 R143). -/
def msub (x y : Limbs) : Bool × Limbs :=
  if magCmp x y < 0 then (true, magSub y x) else (false, magSub x y)

/-- `add(a, b)` (41 R143). -/
def BigInt.add (a b : BigInt) : BigInt :=
  if a.sign = b.sign then norm a.sign (magAdd a.limbs b.limbs)
  else if !a.sign then norm (msub a.limbs b.limbs).1 (msub a.limbs b.limbs).2
  else norm (msub b.limbs a.limbs).1 (msub b.limbs a.limbs).2

/-- `sub(a, b)` (41 R143). -/
def BigInt.sub (a b : BigInt) : BigInt :=
  if b.sign then BigInt.add a { b with sign := false }
  else if !a.sign then norm (msub a.limbs b.limbs).1 (msub a.limbs b.limbs).2
  else norm true (magAdd a.limbs b.limbs)

namespace Machine

/-- ADD rd, ra, rb (41 R144). -/
def execAdd (rd ra rb : BigReg) (s : State) : Host.Outcome State Fault Refusal :=
  .next (s.finishBig rd (BigInt.add (s.reg ra) (s.reg rb)).val)

/-- SUB rd, ra, rb (41 R145). -/
def execSub (rd ra rb : BigReg) (s : State) : Host.Outcome State Fault Refusal :=
  .next (s.finishBig rd (BigInt.sub (s.reg ra) (s.reg rb)).val)

end Machine
end Sys2Proof
end

