-- ==== Sys2Proof/Machine/DataMovement.lean ====
section
/-! DEFINITION. Data movement: LD, ST, MOV, LDI (40_data_movement.md). -/

namespace Sys2Proof.Machine

/-- `mag` of the limb buffer's first `n` limbs, minus it if OSIGN is set: the value LD loads (40 R120). -/
def State.bufferVal (s : State) : Int :=
  let m := mag (s.obufLimbs s.olen.toNat)
  if s.osign then -(m : Int) else (m : Int)

/-- LD rd (40 R120): Length if OLEN is 0 or above LMAX. -/
def execLd (rd : BigReg) (s : State) : Host.Outcome State Fault Refusal :=
  if s.olen.toNat = 0 ∨ s.params.lmax < s.olen.toNat then .next (s.raise .length)
  else .next (s.finishBig rd s.bufferVal)

/-- ST ra (40 R121): OHDR and all of OBUF are written. -/
def execSt (ra : BigReg) (s : State) : Host.Outcome State Fault Refusal :=
  .next ((s.storeBuffer (s.reg ra)).setZN (s.regVal ra)).complete

/-- MOV rd, ra (40 R122). -/
def execMov (rd ra : BigReg) (s : State) : Host.Outcome State Fault Refusal :=
  .next (s.finishBig rd (s.regVal ra))

/-- LDI rd (40 R123). -/
def execLdi (rd : BigReg) (s : State) : Host.Outcome State Fault Refusal :=
  .next (s.finishBig rd s.wideScalar)

end Sys2Proof.Machine
end

