-- ==== Sys2Proof/Machine/Shift.lean ====
section
/-! DEFINITION. The magnitude shifts (44_shift_compare.md rules R210, R211). -/

namespace Sys2Proof

/-- Each limb shifted left by `r < 32`, "OR-ing in the high bits from the next-lower limb" (44 R210); `lower` is the limb
below the first. -/
def shlLoop (r : Nat) : Limbs → Word → Limbs
  | [], _ => []
  | x :: xs, lower => ((x <<< r) ||| (lower >>> (32 - r))) :: shlLoop r xs x

/-- Each limb shifted right by `r < 32`, "OR-ing in the low bits of the next-higher limb" (44 R211). -/
def shrLoop (r : Nat) : Limbs → Limbs
  | [] => []
  | x :: xs => ((x >>> r) ||| (limbAt xs 0 <<< (32 - r))) :: shrLoop r xs

/-- `mag_shl(x, k)` (44 R210): `k div 32` zero limbs below, one limb more if the top limb has too few leading zeros, then
the bit shift. -/
def magShl (x : Limbs) (k : Nat) : Limbs :=
  if mag x = 0 then [0]
  else
    let q := k / 32
    let r := k % 32
    let grown := if clz32 (limbAt x (x.length - 1)) < r then x ++ [0] else x
    List.replicate q 0 ++ (if 0 < r then shlLoop r grown 0 else x)

/-- `mag_shr(x, k)` (44 R211). -/
def magShr (x : Limbs) (k : Nat) : Limbs :=
  if bitlength (mag x) ≤ k then [0]
  else
    let z := x.drop (k / 32)
    let r := k % 32
    strip (if 0 < r then shrLoop r z else z)

end Sys2Proof
end

