-- ==== Sys2Proof/Machine/Divide.lean ====
section
/-! DEFINITION. The divider (43_divide.md): the single-limb path, Knuth's Algorithm D with the q-hat correction and the
add-back step, the signed quotient, the non-negative modulus, and the commands DIV and MOD. The main loop runs from `m`
down to 0 (90_conflicts.md C2). -/

namespace Sys2Proof

/-- The loop of R181: the limbs most significant first; the quotient limbs gathered so far and the remainder. -/
def divSmallLoop (d : Nat) : Limbs → Nat → Limbs → Limbs × Nat
  | [], rem, q => (q, rem)
  | x :: xs, rem, q =>
    let cur := rem * radix + x.toNat
    divSmallLoop d xs (cur % d) (BitVec.ofNat 32 (cur / d) :: q)

/-- The single-limb divisor (43 R181). -/
def divSmall (x : Limbs) (d : Word) : Limbs × Limbs :=
  let r := divSmallLoop d.toNat x.reverse 0 []
  (strip r.1, [BitVec.ofNat 32 r.2])

/-- The correction loop of R186, which leaves when `rhat >= B`; `fuel` is the number of bodies it may still run (two
always suffice, because `V[n-1] >= 2^31`; log entry 12). `v1 = V[n-1]`, `v2 = V[n-2]`, `u = U[j+n-2]`. -/
def correctQhat (v1 v2 u : Nat) : Nat → Nat → Nat → Nat
  | 0, qhat, _ => qhat
  | fuel + 1, qhat, rhat =>
    if radix ≤ qhat ∨ rhat * radix + u < qhat * v2 then
      if radix ≤ rhat + v1 then qhat - 1 else correctQhat v1 v2 u fuel (qhat - 1) (rhat + v1)
    else qhat

/-- Multiply and subtract (43 R187) on the window `U[j .. j+n]`, with the signed borrow `k`: the window's new limbs, and
whether the result is negative. -/
def mulSubLoop (qhat : Nat) : Limbs → Limbs → Int → Limbs × Bool
  | [], us, k =>
    let t : Int := ((limbAt us 0).toNat : Int) - k
    ([BitVec.ofInt 32 t], decide (t < 0))
  | v :: vs, us, k =>
    let p := qhat * v.toNat
    let t : Int := ((limbAt us 0).toNat : Int) - k - ((p % radix : Nat) : Int)
    let rest := mulSubLoop qhat vs us.tail (((p / radix : Nat) : Int) - t / 4294967296)
    (BitVec.ofInt 32 t :: rest.1, rest.2)

/-- Add back (43 R188): `V` is added into the window and the carry out of its top limb is discarded. -/
def addBackLoop : Limbs → Limbs → Nat → Limbs
  | [], us, carry => [BitVec.ofNat 32 ((limbAt us 0).toNat + carry)]
  | v :: vs, us, carry =>
    let acc := (limbAt us 0).toNat + v.toNat + carry
    BitVec.ofNat 32 acc :: addBackLoop vs us.tail (acc / radix)

/-- One iteration of Algorithm D (43 R185 to R189) on the window `U[j .. j+n]`: the quotient digit and the new window. -/
def divStep (v window : Limbs) : Nat × Limbs :=
  let n := v.length
  let v1 := (limbAt v (n - 1)).toNat
  let num := (limbAt window n).toNat * radix + (limbAt window (n - 1)).toNat
  let qhat := correctQhat v1 (limbAt v (n - 2)).toNat (limbAt window (n - 2)).toNat 2 (num / v1) (num % v1)
  let sub := mulSubLoop qhat v window 0
  if sub.2 then (qhat - 1, addBackLoop v sub.1 0) else (qhat, sub.1)

/-- The main loop of Algorithm D (43 R184): `j` from its first argument minus 1 down to 0. It returns the quotient limbs
and the limbs left in `U`. -/
def divLoop (v : Limbs) : Nat → Limbs → Limbs → Limbs × Limbs
  | 0, u, q => (q, u)
  | j + 1, u, q =>
    let step := divStep v ((u.drop j).take (v.length + 1))
    divLoop v j (u.take j ++ step.2 ++ u.drop (j + (v.length + 1))) (BitVec.ofNat 32 step.1 :: q)

/-- Algorithm D (43 R183 to R190) for a divisor of `n >= 2` limbs and a dividend of at least as many. -/
def divKnuth (x y : Limbs) : Limbs × Limbs :=
  let n := y.length
  let s := clz32 (limbAt y (n - 1))
  let v := shlLoop s y 0
  let u := shlLoop s (x ++ [0]) 0
  let r := divLoop v (x.length - n + 1) u []
  (strip r.1, strip (shrLoop s (r.2.take n)))

/-- `mag_divmod(x, y)` for normalized sequences with `mag(y) != 0` (43 R180 to R182). -/
def magDivmod (x y : Limbs) : Limbs × Limbs :=
  if y.length = 1 then divSmall x (limbAt y 0)
  else if x.length < y.length then ([0], x)
  else divKnuth x y

/-- `quot(a, b)`: truncated, "the quotient inherits the XOR of operand signs" (43 R193). -/
def BigInt.quot (a b : BigInt) : BigInt := norm (xor a.sign b.sign) (magDivmod a.limbs b.limbs).1

/-- `rem0(a, b)`: the initial remainder, with the dividend's sign (43 R195). -/
def BigInt.rem0 (a b : BigInt) : BigInt := norm a.sign (magDivmod a.limbs b.limbs).2

/-- The modulus function's result for a positive modulus: a negative initial remainder is corrected by one signed addition
of the modulus (43 R196). -/
def BigInt.modVal (a m : BigInt) : Int :=
  let r := BigInt.rem0 a m
  if r.val < 0 then (BigInt.add r m).val else r.val

namespace Machine

/-- The checks of the modulus function, in the rule's order (43 R196). -/
def modulusError (m : BigInt) : Option ErrorKind :=
  if m.val = 0 then some .divisionByZero
  else if m.val < 0 then some .negativeModulus
  else none

/-- DIV rd, ra, rb (43 R194). -/
def execDiv (rd ra rb : BigReg) (s : State) : Host.Outcome State Fault Refusal :=
  if s.regVal rb = 0 then .next (s.raise .divisionByZero)
  else .next (s.finishBig rd (BigInt.quot (s.reg ra) (s.reg rb)).val)

/-- MOD rd, ra, rb (43 R197). -/
def execMod (rd ra rb : BigReg) (s : State) : Host.Outcome State Fault Refusal :=
  match modulusError (s.reg rb) with
  | some e => .next (s.raise e)
  | none => .next (s.finishBig rd (BigInt.modVal (s.reg ra) (s.reg rb)))

end Machine
end Sys2Proof
end

