-- ==== Sys2Proof/Machine/Multiply.lean ====
section
/-! DEFINITION. The multiplier (42_multiply.md): schoolbook multiplication, the one-pass single-limb multiplier, and the
commands MUL, MULS, MULADD. -/

namespace Sys2Proof

/-- The end of a row: the carry is folded upward while it is not 0 (42 R161). -/
def foldCarry : Limbs → Nat → Limbs
  | [], carry => if carry ≠ 0 then [BitVec.ofNat 32 carry] else []
  | z :: zs, carry =>
    if carry = 0 then z :: zs
    else
      let acc := z.toNat + carry
      BitVec.ofNat 32 acc :: foldCarry zs (acc / radix)

/-- Row `i` of R160 on the limbs `z[i ..]`: `x[i] * y` is added in, and the last carry folded. -/
def mulRow (x : Nat) : Limbs → Limbs → Nat → Limbs
  | [], zs, carry => foldCarry zs carry
  | y :: ys, zs, carry =>
    let acc := x * y.toNat + (limbAt zs 0).toNat + carry
    BitVec.ofNat 32 acc :: mulRow x ys zs.tail (acc / radix)

/-- The rows of R160 from `i` on, over the limbs `z[i ..]`; limb `i` is final after row `i`. -/
def mulRows : Limbs → Limbs → Limbs → Limbs
  | [], _, zs => zs
  | x :: xs, y, zs =>
    let row := mulRow x.toNat y zs 0
    limbAt row 0 :: mulRows xs y row.tail

/-- `mag_mul(x, y)`: schoolbook multiplication (42 R160). -/
def magMul (x y : Limbs) : Limbs := strip (mulRows x y (List.replicate (x.length + y.length) 0))

/-- `mul(a, b)`: the sign is the exclusive-or of the signs (42 R162). -/
def BigInt.mul (a b : BigInt) : BigInt := norm (xor a.sign b.sign) (magMul a.limbs b.limbs)

/-- The one pass of R164. -/
def muladdLoop (m : Nat) : Limbs → Nat → Limbs
  | [], carry => if carry ≠ 0 then [BitVec.ofNat 32 carry] else []
  | x :: xs, carry =>
    let acc := x.toNat * m + carry
    BitVec.ofNat 32 acc :: muladdLoop m xs (acc / radix)

/-- `mag_muladd(x, m, c)`: `x·m + c` for single limbs `m`, `c` (42 R164). -/
def magMuladd (x : Limbs) (m c : Word) : Limbs := strip (muladdLoop m.toNat x c.toNat)

namespace Machine

/-- MUL rd, ra, rb (42 R163). -/
def execMul (rd ra rb : BigReg) (s : State) : Host.Outcome State Fault Refusal :=
  .next (s.finishBig rd (BigInt.mul (s.reg ra) (s.reg rb)).val)

/-- MULS rd, ra (42 R165). -/
def execMuls (rd ra : BigReg) (s : State) : Host.Outcome State Fault Refusal :=
  .next (s.finishBig rd (norm (s.reg ra).sign (magMuladd (s.reg ra).limbs s.multiplier 0)).val)

/-- MULADD rd, ra (42 R168): Domain if the source is negative. -/
def execMuladd (rd ra : BigReg) (s : State) : Host.Outcome State Fault Refusal :=
  if s.regVal ra < 0 then .next (s.raise .domain)
  else .next (s.finishBig rd (mag (magMuladd (s.reg ra).limbs s.multiplier s.addend) : Int))

end Machine
end Sys2Proof
end

