-- ==== Sys2Proof/Machine/ShiftCompare.lean ====
section
/-! DEFINITION. The commands of the shifter, the comparator and the helpers (44_shift_compare.md): SHL, SHR, CMP, SIZE,
TZ, BIT, ABS, ISPOW2. The magnitude shifts stand in Machine/Shift.lean, because the divider uses them. -/

namespace Sys2Proof

/-- `shl(a, k)` (44 R212): "Negative shifts reverse direction." -/
def BigInt.shl (a : BigInt) (k : Int) : BigInt :=
  if 0 ≤ k then norm a.sign (magShl a.limbs k.toNat) else norm a.sign (magShr a.limbs (-k).toNat)

/-- `shr(a, k)` (44 R212). -/
def BigInt.shr (a : BigInt) (k : Int) : BigInt :=
  if 0 ≤ k then norm a.sign (magShr a.limbs k.toNat) else norm a.sign (magShl a.limbs (-k).toNat)

/-- `cmp(a, b)`: -1, 0 or +1 (44 R215). -/
def BigInt.cmp (a b : BigInt) : Int :=
  if a.mag = 0 ∧ b.mag = 0 then 0
  else if a.sign ≠ b.sign then (if a.sign then -1 else 1)
  else if a.sign then -(magCmp a.limbs b.limbs) else magCmp a.limbs b.limbs

/-- The bit length of a magnitude from its limb count and top limb (44 R217). -/
def magSize (x : Limbs) : Nat :=
  if mag x = 0 then 0 else 32 * (x.length - 1) + (32 - clz32 (limbAt x (x.length - 1)))

/-- The number of low zero bits of a non-zero number, at most `fuel`. -/
def trailingZeros : Nat → Nat → Nat
  | 0, _ => 0
  | fuel + 1, v => if v % 2 = 0 then trailingZeros fuel (v / 2) + 1 else 0

/-- The largest `t` with `2^t` dividing the magnitude: 32 for each low zero limb, and the low zero bits of the first
non-zero limb (44 R218). -/
def magTrailingZeros : Limbs → Nat
  | [] => 0
  | w :: ws => if w = 0 then 32 + magTrailingZeros ws else trailingZeros 32 w.toNat

/-- Bit `i` of the magnitude, 0 at and above the stored limbs (44 R219). -/
def magBit (x : Limbs) (i : Nat) : Nat :=
  if x.length ≤ i / 32 then 0 else ((limbAt x (i / 32)).toNat >>> (i % 32)) % 2

/-- A positive value whose magnitude has exactly one bit set: `bitlength - 1` is its trailing-zero count (44 R221). -/
def BigInt.isPow2 (x : BigInt) : Bool :=
  decide (0 < x.val) && bitlength x.mag - 1 == magTrailingZeros x.limbs

namespace Machine

/-- A left shift by `k > 0` of a non-zero value leaves the capacity (44 R213, Errors). The condition is tested before the
shifted limbs are formed, so that a huge count can be evaluated; the outcome is the same (log entry 11). -/
abbrev State.shiftOverflows (s : State) (x : BigInt) (k : Int) : Prop :=
  x.mag ≠ 0 ∧ 0 < k ∧ ((32 * s.params.lmax : Nat) : Int) < (bitlength x.mag : Int) + k

/-- SHL rd, ra (44 R213). -/
def execShl (rd ra : BigReg) (s : State) : Host.Outcome State Fault Refusal :=
  if s.shiftOverflows (s.reg ra) s.shiftCount then .next (s.raise .overflow)
  else .next (s.finishBig rd ((s.reg ra).shl s.shiftCount).val)

/-- SHR rd, ra (44 R214): a negative count is a left shift. -/
def execShr (rd ra : BigReg) (s : State) : Host.Outcome State Fault Refusal :=
  if s.shiftOverflows (s.reg ra) (-s.shiftCount) then .next (s.raise .overflow)
  else .next (s.finishBig rd ((s.reg ra).shr s.shiftCount).val)

/-- CMP ra, rb (44 R216): SRES, Z for equal, N for less. -/
def execCmp (ra rb : BigReg) (s : State) : Host.Outcome State Fault Refusal :=
  let c := BigInt.cmp (s.reg ra) (s.reg rb)
  .next (((s.setSres (BitVec.ofInt 32 c)).setFlags (decide (c = 0)) (decide (c < 0))).complete)

/-- SIZE ra (44 R217). -/
def execSize (ra : BigReg) (s : State) : Host.Outcome State Fault Refusal :=
  .next (s.finishScalar (magSize (s.reg ra).limbs))

/-- TZ ra (44 R218): Domain for zero. -/
def execTz (ra : BigReg) (s : State) : Host.Outcome State Fault Refusal :=
  if (s.reg ra).mag = 0 then .next (s.raise .domain)
  else .next (s.finishScalar (magTrailingZeros (s.reg ra).limbs))

/-- BIT ra (44 R219). -/
def execBit (ra : BigReg) (s : State) : Host.Outcome State Fault Refusal :=
  .next (s.finishScalar (magBit (s.reg ra).limbs s.bitIndex))

/-- ABS rd, ra (44 R220). -/
def execAbs (rd ra : BigReg) (s : State) : Host.Outcome State Fault Refusal :=
  .next (s.finishBig rd ((s.reg ra).mag : Int))

/-- ISPOW2 ra (44 R221). -/
def execIspow2 (ra : BigReg) (s : State) : Host.Outcome State Fault Refusal :=
  .next (s.finishScalar (if (s.reg ra).isPow2 then 1 else 0))

end Machine
end Sys2Proof
end

