-- ==== Sys2Proof/Machine/Modular.lean ====
section
/-! DEFINITION. The modular block (45_modular.md): Euclidean core, extended Euclid, modular inverse, modular multiply and
the exponentiation engine in both variants, and the commands GCD, BEZOUT, MODINV, MULMOD, MODEXP. Everything is built from
the adder, the multiplier and the divider. -/

namespace Sys2Proof

/-- `b div a` on non-negative integers, `a > 0`: the floor quotient of the divider (43 R191). -/
def natDiv (b a : Nat) : Nat := mag (magDivmod (natLimbs b) (natLimbs a)).1

/-- `b mod a` on non-negative integers, `a > 0`: the divider's remainder (43 R191, R196). -/
def natMod (b a : Nat) : Nat := mag (magDivmod (natLimbs b) (natLimbs a)).2

/-- The loop of R240 on absolute values. The first component strictly decreases, so `a + 1` rounds suffice (log entry 12). -/
def gcdLoop : Nat → Nat → Nat → Nat
  | 0, _, b => b
  | fuel + 1, a, b => if a = 0 then b else gcdLoop fuel (natMod b a) a

/-- `gcd(a, b)` (45 R240). -/
def gcdOf (a b : Int) : Nat := gcdLoop (a.natAbs + 1) a.natAbs b.natAbs

/-- `egcd(a, b)` (45 R242): `(g, s, t)` with `s*a + t*b = g`. The first argument strictly decreases (log entry 12). -/
def egcdLoop : Nat → Nat → Nat → Nat × Int × Int
  | 0, _, b => (b, 0, 1)
  | fuel + 1, a, b =>
    if a = 0 then (b, 0, 1)
    else
      let r := egcdLoop fuel (natMod b a) a
      (r.1, r.2.2 - (natDiv b a : Int) * r.2.1, r.2.1)

/-- `egcd(a, b)` on non-negative integers (45 R242). -/
def egcd (a b : Nat) : Nat × Int × Int := egcdLoop (a + 1) a b

/-- `bezout(a, b)` (45 R243): "If b < a the inputs are swapped"; `s` belongs to the smaller input. -/
def bezout (a b : Nat) : Nat × Int × Int := if b < a then egcd b a else egcd a b

/-- `mod(a, m)` on integers, `m > 0` (43 R196). -/
def intMod (a m : Int) : Int := BigInt.modVal (big a) (big m)

/-- `modinv(n, m)` for `m > 0` (45 R245): `none` when `gcd(n mod m, m) != 1`. -/
def modinv (n m : Int) : Option Int :=
  let r := bezout (intMod n m).toNat m.toNat
  if r.1 ≠ 1 then none else some (intMod r.2.1 m)

/-- `modmul(a, b, m)` for `m > 0`: the full signed product, then the Knuth remainder (45 R250). -/
def modmul (a b m : Int) : Int := BigInt.modVal (BigInt.mul (big a) (big b)) (big m)

/-- The bits of the exponent are those of its magnitude (45 R256, 44 R219). -/
def expBit (e : Int) (i : Nat) : Nat := magBit (natLimbs e.natAbs) i

/-- The standard loop (45 R257), bits `i - 1` down to 0. -/
def expLoop (base e m : Int) : Nat → Int → Int
  | 0, acc => acc
  | i + 1, acc =>
    let sq := modmul acc acc m
    expLoop base e m i (if expBit e i = 1 then modmul sq base m else sq)

/-- The Montgomery ladder (45 R258), bits `i - 1` down to 0. -/
def ladderLoop (e m : Int) : Nat → Int → Int → Int
  | 0, acc, _ => acc
  | i + 1, acc, g =>
    if expBit e i = 1 then ladderLoop e m i (modmul acc g m) (modmul g g m)
    else ladderLoop e m i (modmul acc acc m) (modmul g acc m)

/-- MODEXP's value for `m > 0` and `e >= 0`: the short-circuits in the document's order, then the loop of the built
variant (45 R253, R254, R256 to R258; no reduction of the exponent, R255). -/
def modexp (ladder : Bool) (base e m : Int) : Int :=
  if intMod base m = 0 then 0
  else if e = 2 then modmul base base m
  else if ladder then ladderLoop e m (magSize (natLimbs e.natAbs)) 1 (intMod base m)
  else expLoop base e m (magSize (natLimbs e.natAbs)) 1

namespace Machine

/-- GCD rd, ra, rb (45 R241). -/
def execGcd (rd ra rb : BigReg) (s : State) : Host.Outcome State Fault Refusal :=
  .next (s.finishBig rd (gcdOf (s.regVal ra) (s.regVal rb) : Int))

/-- BEZOUT rd, rc, ra, rb (45 R244): `s` to `rd`, `t` to `rc`, flags from `s`. The decoder already refuses `rd = rc`
(30 R95); the meaning raises the same error, so that it is right of every term. -/
def execBezout (rd rc ra rb : BigReg) (s : State) : Host.Outcome State Fault Refusal :=
  if rd = rc then .next (s.raise .illegalCommand)
  else if s.regVal ra < 0 ∨ s.regVal rb < 0 then .next (s.raise .domain)
  else
    let r := bezout (s.regVal ra).toNat (s.regVal rb).toNat
    .next (s.finishBigPair rd rc r.2.1 r.2.2)

/-- MODINV rd, ra, rb (45 R246). -/
def execModinv (rd ra rb : BigReg) (s : State) : Host.Outcome State Fault Refusal :=
  match modulusError (s.reg rb) with
  | some e => .next (s.raise e)
  | none =>
    match modinv (s.regVal ra) (s.regVal rb) with
    | none => .next (s.raise .noInverse)
    | some v => .next (s.finishBig rd v)

/-- MULMOD rd, ra, rb, rc (45 R251). -/
def execMulmod (rd ra rb rc : BigReg) (s : State) : Host.Outcome State Fault Refusal :=
  match modulusError (s.reg rc) with
  | some e => .next (s.raise e)
  | none => .next (s.finishBig rd (modmul (s.regVal ra) (s.regVal rb) (s.regVal rc)))

/-- MODEXP rd, ra, rb, rc (45 R252, R260): the modulus checks, then Domain for a negative exponent. -/
def execModexp (rd ra rb rc : BigReg) (s : State) : Host.Outcome State Fault Refusal :=
  match modulusError (s.reg rc) with
  | some e => .next (s.raise e)
  | none =>
    if s.regVal rb < 0 then .next (s.raise .domain)
    else .next (s.finishBig rd (modexp s.params.ladder (s.regVal ra) (s.regVal rb) (s.regVal rc)))

end Machine
end Sys2Proof
end

