-- ==== Sys2Proof/Machine/Dispatch.lean ====
section
/-! DEFINITION. The completion step of a decoded command: one arm per constructor of `Instr`, each one call of its
meaning. -/

namespace Sys2Proof.Machine

/-- What the unit's completion step does for a command (20_memory.md rule R70). -/
def exec (i : Instr) (s : State) : Host.Outcome State Fault Refusal :=
  match i with
  | .ld rd => Sys2Proof.Machine.execLd rd s
  | .st ra => Sys2Proof.Machine.execSt ra s
  | .mov rd ra => Sys2Proof.Machine.execMov rd ra s
  | .ldi rd => Sys2Proof.Machine.execLdi rd s
  | .add rd ra rb => Sys2Proof.Machine.execAdd rd ra rb s
  | .sub rd ra rb => Sys2Proof.Machine.execSub rd ra rb s
  | .mul rd ra rb => Sys2Proof.Machine.execMul rd ra rb s
  | .muls rd ra => Sys2Proof.Machine.execMuls rd ra s
  | .muladd rd ra => Sys2Proof.Machine.execMuladd rd ra s
  | .div rd ra rb => Sys2Proof.Machine.execDiv rd ra rb s
  | .mod rd ra rb => Sys2Proof.Machine.execMod rd ra rb s
  | .shl rd ra => Sys2Proof.Machine.execShl rd ra s
  | .shr rd ra => Sys2Proof.Machine.execShr rd ra s
  | .cmp ra rb => Sys2Proof.Machine.execCmp ra rb s
  | .size ra => Sys2Proof.Machine.execSize ra s
  | .tz ra => Sys2Proof.Machine.execTz ra s
  | .bit ra => Sys2Proof.Machine.execBit ra s
  | .abs rd ra => Sys2Proof.Machine.execAbs rd ra s
  | .ispow2 ra => Sys2Proof.Machine.execIspow2 ra s
  | .gcd rd ra rb => Sys2Proof.Machine.execGcd rd ra rb s
  | .bezout rd rc ra rb => Sys2Proof.Machine.execBezout rd rc ra rb s
  | .modinv rd ra rb => Sys2Proof.Machine.execModinv rd ra rb s
  | .mulmod rd ra rb rc => Sys2Proof.Machine.execMulmod rd ra rb rc s
  | .modexp rd ra rb rc => Sys2Proof.Machine.execModexp rd ra rb rc s

end Sys2Proof.Machine
end

