-- ==== Sys2Proof/Machine/Step.lean ====
section
/-! DEFINITION. One step of the machine (10_state.md rule R20): the next event of the total order takes effect. -/

namespace Sys2Proof.Machine

/-- The completion step (20 R70): CUR is decoded and the command run; a word that does not decode ends in the error
IllegalCommand (30 R95). -/
def unitStep (s : State) : Host.Outcome State Fault Refusal :=
  match decode s.fetchWord with
  | .ok i => exec i s
  | .error _ => .next (s.raise .illegalCommand)

/-- The unit's turn: its completion step if BUSY = 1, nothing if it is idle (10 R20). -/
def unitTurn (s : State) : Host.Outcome State Fault Refusal := if s.busy then unitStep s else .next s

/-- One step: the first event presented takes effect and is used up; with none presented the unit takes its turn, so an
accepted command is completed (20 R73; log entries 1, 10). -/
def step (s : State) : Host.Outcome State Fault Refusal :=
  match s.inputs with
  | [] => unitTurn s
  | .access a :: rest => (s.setInputs rest).access a
  | .unitTurn :: rest => unitTurn (s.setInputs rest)
  | .reset :: rest => .next (s.setInputs rest).resetEvent

/-- `s` with the command word `w` accepted (20 R66), so that the very next step is its completion step: CUR holds the
word, BUSY = 1, DONE = 0, and the unit has the next turn (log entry 2). -/
def State.withFetchWord (s : State) (nbits w : Nat) : State :=
  (s.accept (BitVec.ofNat 32 (w % 2 ^ nbits))).setInputs
    (match s.inputs with
     | [] => []
     | e :: l => .unitTurn :: e :: l)

end Sys2Proof.Machine
end

