-- ==== Sys2Proof/Safety.lean ====
section
/-! DEFINITION. The terms in which statements speak of the unit: the invariant of its states, the ways a completion step
can end written out as records, what a host access may touch, and the word of a command as a number. -/

namespace Sys2Proof.Machine

/-! ### The invariant -/

/-- Every big register holds a normalized value of at most LMAX limbs (10 R22). -/
abbrev State.RegsOk (s : State) : Prop := ∀ i : BigReg, (s.reg i).Normal ∧ (s.reg i).len ≤ s.params.lmax

/-- The legal combinations of STATUS, and ECMD and ECODE reading 0 without an error (10 R28, R32; 60 R280: codes 0 to 7). -/
abbrev State.StatusOk (s : State) : Prop :=
  (s.err = true → s.busy = false ∧ s.ecode ≠ 0) ∧ (s.ecode ≠ 0 → s.err = true) ∧ (s.busy = true → s.done = false) ∧
    s.ecode.toNat ≤ 7 ∧ (s.err = false → s.ecmd = 0)

/-- OBUF is in canonical form and holds no byte outside OBUF[0 .. LMAX-1] (10 R36). -/
abbrev State.BufferOk (s : State) : Prop :=
  Memory.wf s.obuf ∧ ∀ c ∈ s.obuf, obufBase ≤ c.1 ∧ c.1 < obufBase + 4 * s.params.lmax

/-- The invariant of the unit's states. -/
abbrev State.Inv (s : State) : Prop := s.params.Ok ∧ s.RegsOk ∧ s.StatusOk ∧ s.BufferOk

/-! ### How a completion step ends (20 R70), written out -/

/-- The value fits a big register: `|v| < 2^(32*LMAX)` (60 R285). -/
abbrev State.Capacity (s : State) (v : Int) : Prop := v.natAbs < 2 ^ (32 * s.params.lmax)

/-- The end with error code `e`: ERR, ECODE, ECMD, BUSY, DONE and nothing else (60 R283). -/
def State.afterError (s : State) (e : BitVec 4) : State :=
  { s with err := true, ecode := e, ecmd := s.cur, busy := false, done := true }

/-- The end that writes `big(v)` to `rd` and the flags of `v` (10 R27). -/
def State.afterBig (s : State) (rd : BigReg) (v : Int) : State :=
  { s with regs := s.regs.set rd (big v), z := decide (v = 0), n := decide (v < 0), busy := false, done := true }

/-- The end of BEZOUT: two registers, flags of the first value (45 R244). -/
def State.afterPair (s : State) (rd rc : BigReg) (v w : Int) : State :=
  { s with
    regs := (s.regs.set rd (big v)).set rc (big w)
    z := decide (v = 0), n := decide (v < 0), busy := false, done := true }

/-- The end that writes SRES and the flags given (10 R27, R34). -/
def State.afterScalar (s : State) (w : Word) (z n : Bool) : State :=
  { s with sres := w, z := z, n := n, busy := false, done := true }

/-- Everything a completion step never touches, whatever the command (20 R70, 10 R33): the build, DROP, CTRL, SA, SB, CUR,
the events to come, the bus response, the counts of resets and of stray accesses. -/
def State.SameOutside (s t : State) : Prop :=
  t.params = s.params ∧ t.drop = s.drop ∧ t.ie = s.ie ∧ t.sa = s.sa ∧ t.sb = s.sb ∧ t.cur = s.cur ∧
    t.inputs = s.inputs ∧ t.resp = s.resp ∧ t.epoch = s.epoch ∧ t.strays = s.strays

/-- The limb buffer and its header read as before: every byte, OLEN and OSIGN. -/
def State.SameBuffer (s t : State) : Prop :=
  t.olen = s.olen ∧ t.osign = s.osign ∧ ∀ a, t.readByte a = s.readByte a

/-- The error record is as before (10 R28, R32). -/
def State.SameErrorRecord (s t : State) : Prop := t.err = s.err ∧ t.ecode = s.ecode ∧ t.ecmd = s.ecmd

/-- What a command reads and a completion step writes: two states that agree here give a command the same operands
(20 R70). -/
def State.SameOperands (s t : State) : Prop :=
  t.params = s.params ∧ t.regs = s.regs ∧ t.sa = s.sa ∧ t.sb = s.sb ∧ t.olen = s.olen ∧ t.osign = s.osign ∧
    t.obuf = s.obuf ∧ t.epoch = s.epoch ∧ t.cur = s.cur

/-- The recursion of 45 R242 as a relation on numbers: `egcd(a, b) = (g, s, t)`. -/
inductive Egcd : Nat → Nat → Nat → Int → Int → Prop where
  /-- `egcd(0, b) = (b, 0, 1)`. -/
  | zero (b : Nat) : Egcd 0 b b 0 1
  /-- `egcd(a, b) = (g, t1 - (b div a) * s1, s1)` where `egcd(b mod a, a) = (g, s1, t1)`. -/
  | step {a b g : Nat} {s1 t1 : Int} (ha : a ≠ 0) (h : Egcd (b % a) a g s1 t1) :
      Egcd a b g (t1 - ((b / a : Nat) : Int) * s1) s1

/-- `opcode | rd << 8 | ra << 12 | rb << 16 | rc << 20` as a number (30 R94). -/
def commandWord (op : Nat) (rd ra rb rc : BigReg) : Word :=
  BitVec.ofNat 32 (op + 256 * rd.val + 4096 * ra.val + 65536 * rb.val + 1048576 * rc.val)

/-- The register number that bits `lo + 3` to `lo` of a command word spell (30 R91). -/
def registerField (c : Word) (lo : Nat) : Nat := c.toNat / 2 ^ lo % 16

/-- The columns `match` and `mask` of the opcode map (30 R94), in its order. -/
def commandRows : List (Word × Word) :=
  [(0x00000001, 0xFFFFF0FF), (0x00000002, 0xFFFF0FFF), (0x00000003, 0xFFFF00FF), (0x00000004, 0xFFFFF0FF),
   (0x00000010, 0xFFF000FF), (0x00000011, 0xFFF000FF), (0x00000020, 0xFFF000FF), (0x00000021, 0xFFFF00FF),
   (0x00000022, 0xFFFF00FF), (0x00000030, 0xFFF000FF), (0x00000031, 0xFFF000FF), (0x00000040, 0xFFFF00FF),
   (0x00000041, 0xFFFF00FF), (0x00000050, 0xFFF00FFF), (0x00000051, 0xFFFF0FFF), (0x00000052, 0xFFFF0FFF),
   (0x00000053, 0xFFFF0FFF), (0x00000054, 0xFFFF00FF), (0x00000055, 0xFFFF0FFF), (0x00000060, 0xFFF000FF),
   (0x00000061, 0xFF0000FF), (0x00000062, 0xFFF000FF), (0x00000063, 0xFF0000FF), (0x00000064, 0xFF0000FF)]

/-- The error codes that a command can raise (the table of 60 R281; BEZOUT's IllegalCommand for `rd = rc` and its
unreachable Overflow are not listed). -/
def mayRaise : Instr → List (BitVec 4)
  | .ld _ => [7]
  | .st _ => []
  | .mov _ _ => []
  | .ldi _ => []
  | .add _ _ _ => [4]
  | .sub _ _ _ => [4]
  | .mul _ _ _ => [4]
  | .muls _ _ => [4]
  | .muladd _ _ => [4, 5]
  | .div _ _ _ => [1]
  | .mod _ _ _ => [1, 2]
  | .shl _ _ => [4]
  | .shr _ _ => [4]
  | .cmp _ _ => []
  | .size _ => []
  | .tz _ => [5]
  | .bit _ => []
  | .abs _ _ => []
  | .ispow2 _ => []
  | .gcd _ _ _ => []
  | .bezout _ _ _ _ => [5]
  | .modinv _ _ _ => [1, 2, 6]
  | .mulmod _ _ _ _ => [1, 2]
  | .modexp _ _ _ _ => [1, 2, 5]

end Sys2Proof.Machine
end

