-- ==== Sys2Proof/Certificates/Slice0/Obligations.lean ====
section
/-! DEFINITION. The statements for the provers, from the numbered rules of spec/: the encoding, the step, the invariant,
what each command does, the frames, the errors, and the host's accesses. -/

section Statements

open Sys2Proof Sys2Proof.Machine

/-! ### The command word -/

/-- 30 R91, R94, R95: every well-formed command's word decodes to it, with every operand at every value. -/
def Obligations.EncodedCommandDecodesToItself : Prop :=
  ∀ i : Instr, i.wellFormed = true → decode (encode i) = .ok i

/-- 30 R94, R95: a word that decodes is the word of the command it decodes to, and that command is well-formed. -/
def Obligations.DecodedWordIsTheCommandsWord : Prop :=
  ∀ (c : Word) (i : Instr), decode c = .ok i → encode i = c ∧ i.wellFormed = true

/-- 30 R94: a word is the command of a row exactly when its masked bits are the row's `match`, and its register fields
are the operands; BEZOUT needs `rd` and `rc` to differ besides (30 R95). -/
def Obligations.DecodeFollowsTheOpcodeMap : Prop :=
  ∀ (c : Word) (rd ra rb rc : BigReg),
    (decode c = .ok (.ld rd) ↔ c &&& 0xFFFFF0FF = 0x00000001 ∧ rd.val = registerField c 8) ∧
    (decode c = .ok (.st ra) ↔ c &&& 0xFFFF0FFF = 0x00000002 ∧ ra.val = registerField c 12) ∧
    (decode c = .ok (.mov rd ra) ↔
      c &&& 0xFFFF00FF = 0x00000003 ∧ rd.val = registerField c 8 ∧ ra.val = registerField c 12) ∧
    (decode c = .ok (.ldi rd) ↔ c &&& 0xFFFFF0FF = 0x00000004 ∧ rd.val = registerField c 8) ∧
    (decode c = .ok (.add rd ra rb) ↔ c &&& 0xFFF000FF = 0x00000010 ∧
      rd.val = registerField c 8 ∧ ra.val = registerField c 12 ∧ rb.val = registerField c 16) ∧
    (decode c = .ok (.sub rd ra rb) ↔ c &&& 0xFFF000FF = 0x00000011 ∧
      rd.val = registerField c 8 ∧ ra.val = registerField c 12 ∧ rb.val = registerField c 16) ∧
    (decode c = .ok (.mul rd ra rb) ↔ c &&& 0xFFF000FF = 0x00000020 ∧
      rd.val = registerField c 8 ∧ ra.val = registerField c 12 ∧ rb.val = registerField c 16) ∧
    (decode c = .ok (.muls rd ra) ↔
      c &&& 0xFFFF00FF = 0x00000021 ∧ rd.val = registerField c 8 ∧ ra.val = registerField c 12) ∧
    (decode c = .ok (.muladd rd ra) ↔
      c &&& 0xFFFF00FF = 0x00000022 ∧ rd.val = registerField c 8 ∧ ra.val = registerField c 12) ∧
    (decode c = .ok (.div rd ra rb) ↔ c &&& 0xFFF000FF = 0x00000030 ∧
      rd.val = registerField c 8 ∧ ra.val = registerField c 12 ∧ rb.val = registerField c 16) ∧
    (decode c = .ok (.mod rd ra rb) ↔ c &&& 0xFFF000FF = 0x00000031 ∧
      rd.val = registerField c 8 ∧ ra.val = registerField c 12 ∧ rb.val = registerField c 16) ∧
    (decode c = .ok (.shl rd ra) ↔
      c &&& 0xFFFF00FF = 0x00000040 ∧ rd.val = registerField c 8 ∧ ra.val = registerField c 12) ∧
    (decode c = .ok (.shr rd ra) ↔
      c &&& 0xFFFF00FF = 0x00000041 ∧ rd.val = registerField c 8 ∧ ra.val = registerField c 12) ∧
    (decode c = .ok (.cmp ra rb) ↔
      c &&& 0xFFF00FFF = 0x00000050 ∧ ra.val = registerField c 12 ∧ rb.val = registerField c 16) ∧
    (decode c = .ok (.size ra) ↔ c &&& 0xFFFF0FFF = 0x00000051 ∧ ra.val = registerField c 12) ∧
    (decode c = .ok (.tz ra) ↔ c &&& 0xFFFF0FFF = 0x00000052 ∧ ra.val = registerField c 12) ∧
    (decode c = .ok (.bit ra) ↔ c &&& 0xFFFF0FFF = 0x00000053 ∧ ra.val = registerField c 12) ∧
    (decode c = .ok (.abs rd ra) ↔
      c &&& 0xFFFF00FF = 0x00000054 ∧ rd.val = registerField c 8 ∧ ra.val = registerField c 12) ∧
    (decode c = .ok (.ispow2 ra) ↔ c &&& 0xFFFF0FFF = 0x00000055 ∧ ra.val = registerField c 12) ∧
    (decode c = .ok (.gcd rd ra rb) ↔ c &&& 0xFFF000FF = 0x00000060 ∧
      rd.val = registerField c 8 ∧ ra.val = registerField c 12 ∧ rb.val = registerField c 16) ∧
    (decode c = .ok (.bezout rd rc ra rb) ↔ c &&& 0xFF0000FF = 0x00000061 ∧ rd ≠ rc ∧
      rd.val = registerField c 8 ∧ ra.val = registerField c 12 ∧ rb.val = registerField c 16 ∧
      rc.val = registerField c 20) ∧
    (decode c = .ok (.modinv rd ra rb) ↔ c &&& 0xFFF000FF = 0x00000062 ∧
      rd.val = registerField c 8 ∧ ra.val = registerField c 12 ∧ rb.val = registerField c 16) ∧
    (decode c = .ok (.mulmod rd ra rb rc) ↔ c &&& 0xFF0000FF = 0x00000063 ∧
      rd.val = registerField c 8 ∧ ra.val = registerField c 12 ∧ rb.val = registerField c 16 ∧
      rc.val = registerField c 20) ∧
    (decode c = .ok (.modexp rd ra rb rc) ↔ c &&& 0xFF0000FF = 0x00000064 ∧
      rd.val = registerField c 8 ∧ ra.val = registerField c 12 ∧ rb.val = registerField c 16 ∧
      rc.val = registerField c 20)

/-- 30 R95, R96 at 20 R70's completion step: a word that is of no row of the opcode map, or BEZOUT's with one register
for its two results, ends in IllegalCommand (code 3) when the unit has the turn, presented or not; how turns are presented
is the model's choice (log entry 1). -/
def Obligations.EveryOtherWordRaisesIllegalCommand : Prop :=
  ∀ s : State, s.busy = true →
    ((∀ r ∈ commandRows, s.cur &&& r.2 ≠ r.1) ∨
      (s.cur &&& 0xFF0000FF = 0x00000061 ∧ registerField s.cur 8 = registerField s.cur 20)) →
    (s.inputs = [] → step s = .next (s.afterError 3)) ∧
    (∀ rest, s.inputs = .unitTurn :: rest → step s = .next ((s.setInputs rest).afterError 3))

/-- 30 R94's example and words of 95_test_vectors.md section 2.9. -/
def Obligations.SampleWordsDecode : Prop :=
  decode 0x00210364 = .ok (.modexp 3 0 1 2) ∧ decode 0x0000F002 = .ok (.st 15) ∧
  decode 0x000FFF10 = .ok (.add 15 15 15) ∧ decode 0x00F10061 = .ok (.bezout 0 15 0 1) ∧
  decode 0x00000140 = .ok (.shl 1 0) ∧ decode 0x00010050 = .ok (.cmp 0 1) ∧ decode 0x00000003 = .ok (.mov 0 0)

/-! ### The step -/

/-- 20 R70 in the model's terms (log entry 1): when the unit has the turn and is busy, the step runs the command that CUR
decodes to. -/
def Obligations.StepRunsTheDecodedCommand : Prop :=
  ∀ (s : State) (i : Instr), s.busy = true → decode s.cur = .ok i →
    (s.inputs = [] → step s = exec i s) ∧
    (∀ rest, s.inputs = .unitTurn :: rest → step s = exec i (s.setInputs rest))

/-- 10 R20, 20 R68 in the model's terms (log entry 1): the first event presented takes effect and is used up; the unit has
no step when it is idle. -/
def Obligations.StepTakesTheFirstEvent : Prop :=
  ∀ s : State,
    (∀ a rest, s.inputs = .access a :: rest → step s = (s.setInputs rest).access a) ∧
    (∀ rest, s.inputs = .reset :: rest → step s = .next (State.resetOf s.params (s.epoch + 1) rest)) ∧
    (∀ rest, s.inputs = .unitTurn :: rest → s.busy = false → step s = .next (s.setInputs rest)) ∧
    (s.inputs = [] → s.busy = false → step s = .next s)

/-- 20 R73 in the model's terms (log entries 1, 10): whatever word is in flight, the unit's turn completes it, be it the
first event presented or the turn that comes when none is left. -/
def Obligations.AcceptedCommandIsCompleted : Prop :=
  ∀ s : State, s.busy = true → (s.inputs = [] ∨ ∃ rest, s.inputs = .unitTurn :: rest) →
    ∃ t, step s = .next t ∧ t.busy = false ∧ t.done = true ∧ t.cur = s.cur ∧ t.params = s.params ∧
      t.inputs = s.inputs.tail

/-- Every step keeps the invariant: legal LMAX, normalized big registers within the capacity (10 R22), the legal
combinations of STATUS (10 R28, R32), ECODE at most 7 (60 R280), and OBUF in canonical form and in range (10 R36). -/
def Obligations.EveryStepKeepsTheInvariant : Prop :=
  ∀ s t : State, s.Inv → step s = .next t → t.Inv

/-- The invariant holds right after reset, of the build shown and of every build. -/
def Obligations.InvariantHoldsAtReset : Prop :=
  State.reset.Inv ∧ ∀ (p : Params) (e : Nat) (l : List Event), p.Ok → (State.resetOf p e l).Inv

/-- 10 R40, 70 R320: the state after a reset event, from any state, also while a command is in flight. -/
def Obligations.ResetEventPutsTheResetState : Prop :=
  ∀ (s : State) (rest : List Event), s.inputs = .reset :: rest →
    ∃ t, step s = .next t ∧ (∀ r : BigReg, t.reg r = BigInt.zero) ∧ t.z = false ∧ t.n = false ∧
      t.statusWord = 0 ∧ t.busy = false ∧ t.done = false ∧ t.err = false ∧ t.drop = false ∧ t.ecode = 0 ∧
      t.ctrlWord = 0 ∧ t.ie = false ∧ idWord t.params = idWord s.params ∧ t.ecmd = 0 ∧ t.sa = 0 ∧ t.sb = 0 ∧
      t.sres = 0 ∧ t.ohdrWord = 0 ∧ t.olen = 0 ∧ t.osign = false ∧ t.irq = false

/-- The model's choice (log entries 4 and 9): after a reset event every byte of OBUF is the free value of that reset,
until something writes it; the events still to come and the build stand (log entry 15); the count of accesses outside the
window starts again (log entry 7). -/
def Obligations.ResetEventForgetsTheBuffer : Prop :=
  ∀ (s : State) (rest : List Event), s.inputs = .reset :: rest →
    ∃ t, step s = .next t ∧ (∀ a, t.readByte a = Config.obufAfterReset (s.epoch + 1) a) ∧
      t.inputs = rest ∧ t.params = s.params ∧ t.epoch = s.epoch + 1 ∧ t.strays = 0

/-! ### Data movement -/

/-- 40 R120. -/
def Obligations.LdLoadsTheBuffer : Prop :=
  (∀ rd, decode (commandWord 0x01 rd 0 0 0) = .ok (.ld rd)) ∧
  ∀ (s : State) (rd : BigReg), s.Inv →
    (1 ≤ s.olen.toNat → s.olen.toNat ≤ s.params.lmax →
      exec (.ld rd) s = .next (s.afterBig rd
        ((if s.osign then -1 else 1) *
          ((∑ i ∈ Finset.range s.olen.toNat, (s.obufWord i).toNat * 2 ^ (32 * i) : Nat) : Int)))) ∧
    (s.olen.toNat = 0 ∨ s.params.lmax < s.olen.toNat → exec (.ld rd) s = .next (s.afterError 7))

/-- 40 R121: OHDR and the whole of OBUF, zero above the value's limbs; every other byte and every other part of the state
is unchanged. -/
def Obligations.StStoresTheRegister : Prop :=
  (∀ ra, decode (commandWord 0x02 0 ra 0 0) = .ok (.st ra)) ∧
  ∀ (s : State) (ra : BigReg), s.Inv →
    ∃ t, exec (.st ra) s = .next t ∧ t.olen.toNat = (s.reg ra).len ∧ t.osign = (s.reg ra).sign ∧
      (∀ i, i < (s.reg ra).len → (s.reg ra).limbs[i]? = some (t.obufWord i)) ∧
      (∀ i, (s.reg ra).len ≤ i → i < s.params.lmax → t.obufWord i = 0) ∧
      (∀ a, (∀ i, i < s.params.lmax → ¬ (obufOffset i ≤ a ∧ a < obufOffset i + 4)) → t.readByte a = s.readByte a) ∧
      t.z = decide (s.regVal ra = 0) ∧ t.n = decide (s.regVal ra < 0) ∧ t.busy = false ∧ t.done = true ∧
      t.regs = s.regs ∧ t.sres = s.sres ∧ s.SameErrorRecord t ∧ s.SameOutside t

/-- 40 R121, Corner cases: "ST followed by LD of the same buffer reproduces the value exactly". -/
def Obligations.StThenLdReproducesTheValue : Prop :=
  ∀ (s : State) (ra rd : BigReg), s.Inv →
    ∃ t u, exec (.st ra) s = .next t ∧ exec (.ld rd) t = .next u ∧ u.reg rd = s.reg ra ∧
      (∀ r, r ≠ rd → u.reg r = s.reg r) ∧ t.SameBuffer u

/-- 40 R122. -/
def Obligations.MovCopiesTheRegister : Prop :=
  (∀ rd ra, decode (commandWord 0x03 rd ra 0 0) = .ok (.mov rd ra)) ∧
  ∀ (s : State) (rd ra : BigReg), s.Inv → exec (.mov rd ra) s = .next (s.afterBig rd (s.regVal ra))

/-- 40 R123. -/
def Obligations.LdiLoadsTheWideScalar : Prop :=
  (∀ rd, decode (commandWord 0x04 rd 0 0 0) = .ok (.ldi rd)) ∧
  ∀ (s : State) (rd : BigReg), s.Inv → exec (.ldi rd) s = .next (s.afterBig rd (s.sb ++ s.sa : BitVec 64).toInt)

/-! ### Adder and multiplier -/

/-- 41 R144, with the condition of its Overflow. -/
def Obligations.AddIsTheExactSum : Prop :=
  (∀ rd ra rb, decode (commandWord 0x10 rd ra rb 0) = .ok (.add rd ra rb)) ∧
  ∀ (s : State) (rd ra rb : BigReg), s.Inv →
    (s.Capacity (s.regVal ra + s.regVal rb) →
      exec (.add rd ra rb) s = .next (s.afterBig rd (s.regVal ra + s.regVal rb))) ∧
    (¬ s.Capacity (s.regVal ra + s.regVal rb) → exec (.add rd ra rb) s = .next (s.afterError 4)) ∧
    (¬ s.Capacity (s.regVal ra + s.regVal rb) ↔ (s.reg ra).sign = (s.reg rb).sign ∧
      2 ^ (32 * s.params.lmax) ≤ (s.regVal ra).natAbs + (s.regVal rb).natAbs)

/-- 41 R145, with the condition of its Overflow. -/
def Obligations.SubIsTheExactDifference : Prop :=
  (∀ rd ra rb, decode (commandWord 0x11 rd ra rb 0) = .ok (.sub rd ra rb)) ∧
  ∀ (s : State) (rd ra rb : BigReg), s.Inv →
    (s.Capacity (s.regVal ra - s.regVal rb) →
      exec (.sub rd ra rb) s = .next (s.afterBig rd (s.regVal ra - s.regVal rb))) ∧
    (¬ s.Capacity (s.regVal ra - s.regVal rb) → exec (.sub rd ra rb) s = .next (s.afterError 4)) ∧
    (¬ s.Capacity (s.regVal ra - s.regVal rb) → (s.reg ra).sign ≠ (s.reg rb).sign)

/-- 42 R163. -/
def Obligations.MulIsTheExactProduct : Prop :=
  (∀ rd ra rb, decode (commandWord 0x20 rd ra rb 0) = .ok (.mul rd ra rb)) ∧
  ∀ (s : State) (rd ra rb : BigReg), s.Inv →
    (s.Capacity (s.regVal ra * s.regVal rb) →
      exec (.mul rd ra rb) s = .next (s.afterBig rd (s.regVal ra * s.regVal rb))) ∧
    (2 ^ (32 * s.params.lmax) ≤ (s.regVal ra).natAbs * (s.regVal rb).natAbs →
      exec (.mul rd ra rb) s = .next (s.afterError 4))

/-- 42 R165. -/
def Obligations.MulsMultipliesByTheUnsignedScalar : Prop :=
  (∀ rd ra, decode (commandWord 0x21 rd ra 0 0) = .ok (.muls rd ra)) ∧
  ∀ (s : State) (rd ra : BigReg), s.Inv →
    (s.Capacity (s.regVal ra * s.sa.toNat) →
      exec (.muls rd ra) s = .next (s.afterBig rd (s.regVal ra * s.sa.toNat))) ∧
    (¬ s.Capacity (s.regVal ra * s.sa.toNat) → exec (.muls rd ra) s = .next (s.afterError 4))

/-- 42 R168. -/
def Obligations.MuladdMultipliesAndAdds : Prop :=
  (∀ rd ra, decode (commandWord 0x22 rd ra 0 0) = .ok (.muladd rd ra)) ∧
  ∀ (s : State) (rd ra : BigReg), s.Inv →
    (s.regVal ra < 0 → exec (.muladd rd ra) s = .next (s.afterError 5)) ∧
    (0 ≤ s.regVal ra → s.Capacity (s.regVal ra * s.sa.toNat + s.sb.toNat) →
      exec (.muladd rd ra) s = .next (s.afterBig rd (s.regVal ra * s.sa.toNat + s.sb.toNat))) ∧
    (0 ≤ s.regVal ra → ¬ s.Capacity (s.regVal ra * s.sa.toNat + s.sb.toNat) →
      exec (.muladd rd ra) s = .next (s.afterError 4))

/-! ### Divider -/

/-- 43 R194: truncated toward zero; never Overflow. -/
def Obligations.DivIsTheTruncatedQuotient : Prop :=
  (∀ rd ra rb, decode (commandWord 0x30 rd ra rb 0) = .ok (.div rd ra rb)) ∧
  ∀ (s : State) (rd ra rb : BigReg), s.Inv →
    (s.regVal rb = 0 → exec (.div rd ra rb) s = .next (s.afterError 1)) ∧
    (s.regVal rb ≠ 0 → exec (.div rd ra rb) s = .next (s.afterBig rd ((s.regVal ra).tdiv (s.regVal rb))))

/-- 43 R197: the least non-negative residue; never Overflow. -/
def Obligations.ModIsTheLeastResidue : Prop :=
  (∀ rd ra rb, decode (commandWord 0x31 rd ra rb 0) = .ok (.mod rd ra rb)) ∧
  ∀ (s : State) (rd ra rb : BigReg), s.Inv →
    (s.regVal rb = 0 → exec (.mod rd ra rb) s = .next (s.afterError 1)) ∧
    (s.regVal rb < 0 → exec (.mod rd ra rb) s = .next (s.afterError 2)) ∧
    (0 < s.regVal rb → exec (.mod rd ra rb) s =
      .next (s.afterBig rd (s.regVal ra - s.regVal rb * (s.regVal ra).fdiv (s.regVal rb))))

/-- 43 R198: the table of results by sign for a positive divisor, and the reach of `(a / b)*b + (a mod b) = a`. -/
def Obligations.QuotientAndResidueBySign : Prop :=
  ∀ (s : State) (rd rm ra rb : BigReg), s.Inv → 0 < s.regVal rb →
    ∃ q r : Int, exec (.div rd ra rb) s = .next (s.afterBig rd q) ∧ exec (.mod rm ra rb) s = .next (s.afterBig rm r) ∧
      0 ≤ r ∧ r < s.regVal rb ∧
      (0 ≤ s.regVal ra → q = ((s.regVal ra).natAbs / (s.regVal rb).natAbs : Nat) ∧
        r = ((s.regVal ra).natAbs % (s.regVal rb).natAbs : Nat)) ∧
      (s.regVal ra < 0 → q = -((s.regVal ra).natAbs / (s.regVal rb).natAbs : Nat)) ∧
      (s.regVal ra < 0 → ¬ s.regVal rb ∣ s.regVal ra →
        r = s.regVal rb - ((s.regVal ra).natAbs % (s.regVal rb).natAbs : Nat)) ∧
      (q * s.regVal rb + r = s.regVal ra ↔ 0 ≤ s.regVal ra ∨ s.regVal rb ∣ s.regVal ra) ∧
      (s.regVal ra < 0 → ¬ s.regVal rb ∣ s.regVal ra → q * s.regVal rb + r = s.regVal ra + s.regVal rb)

/-! ### Shifter, comparator, helpers -/

/-- 44 R213: a left shift by `SA` as a signed number; a negative count shifts the magnitude right. -/
def Obligations.ShlShiftsByTheSignedCount : Prop :=
  (∀ rd ra, decode (commandWord 0x40 rd ra 0 0) = .ok (.shl rd ra)) ∧
  ∀ (s : State) (rd ra : BigReg), s.Inv →
    (0 ≤ s.sa.toInt → s.Capacity (s.regVal ra * 2 ^ s.sa.toInt.toNat) →
      exec (.shl rd ra) s = .next (s.afterBig rd (s.regVal ra * 2 ^ s.sa.toInt.toNat))) ∧
    (0 ≤ s.sa.toInt → ¬ s.Capacity (s.regVal ra * 2 ^ s.sa.toInt.toNat) →
      exec (.shl rd ra) s = .next (s.afterError 4)) ∧
    (0 ≤ s.sa.toInt → (¬ s.Capacity (s.regVal ra * 2 ^ s.sa.toInt.toNat) ↔ s.regVal ra ≠ 0 ∧
      32 * s.params.lmax < bitlength (s.regVal ra).natAbs + s.sa.toInt.toNat)) ∧
    (s.sa.toInt < 0 →
      exec (.shl rd ra) s = .next (s.afterBig rd ((s.regVal ra).tdiv (2 ^ (-s.sa.toInt).toNat))))

/-- 44 R214: a right shift by `SA` as a signed number, rounding toward zero; a negative count shifts left. -/
def Obligations.ShrShiftsByTheSignedCount : Prop :=
  (∀ rd ra, decode (commandWord 0x41 rd ra 0 0) = .ok (.shr rd ra)) ∧
  ∀ (s : State) (rd ra : BigReg), s.Inv →
    (0 ≤ s.sa.toInt → exec (.shr rd ra) s = .next (s.afterBig rd ((s.regVal ra).tdiv (2 ^ s.sa.toInt.toNat)))) ∧
    (s.sa.toInt < 0 → s.Capacity (s.regVal ra * 2 ^ (-s.sa.toInt).toNat) →
      exec (.shr rd ra) s = .next (s.afterBig rd (s.regVal ra * 2 ^ (-s.sa.toInt).toNat))) ∧
    (s.sa.toInt < 0 → ¬ s.Capacity (s.regVal ra * 2 ^ (-s.sa.toInt).toNat) →
      exec (.shr rd ra) s = .next (s.afterError 4))

/-- 44 R216. -/
def Obligations.CmpReportsTheOrder : Prop :=
  (∀ ra rb, decode (commandWord 0x50 0 ra rb 0) = .ok (.cmp ra rb)) ∧
  ∀ (s : State) (ra rb : BigReg), s.Inv →
    (s.regVal ra < s.regVal rb → exec (.cmp ra rb) s = .next (s.afterScalar 0xFFFFFFFF false true)) ∧
    (s.regVal ra = s.regVal rb → exec (.cmp ra rb) s = .next (s.afterScalar 0x00000000 true false)) ∧
    (s.regVal rb < s.regVal ra → exec (.cmp ra rb) s = .next (s.afterScalar 0x00000001 false false))

/-- 44 R217: the least `k` with `|v| < 2^k`. -/
def Obligations.SizeIsTheBitLength : Prop :=
  (∀ ra, decode (commandWord 0x51 0 ra 0 0) = .ok (.size ra)) ∧
  ∀ (s : State) (ra : BigReg), s.Inv →
    ∃ k, (∀ j, (s.regVal ra).natAbs < 2 ^ j ↔ k ≤ j) ∧ k ≤ 2097120 ∧
      exec (.size ra) s = .next (s.afterScalar (BitVec.ofNat 32 k) (decide (k = 0)) false)

/-- 44 R218. -/
def Obligations.TzCountsTheLowZeroBits : Prop :=
  (∀ ra, decode (commandWord 0x52 0 ra 0 0) = .ok (.tz ra)) ∧
  ∀ (s : State) (ra : BigReg), s.Inv →
    (s.regVal ra = 0 → exec (.tz ra) s = .next (s.afterError 5)) ∧
    (s.regVal ra ≠ 0 → ∃ k, 2 ^ k ∣ (s.regVal ra).natAbs ∧ ¬ 2 ^ (k + 1) ∣ (s.regVal ra).natAbs ∧ k < 2097120 ∧
      exec (.tz ra) s = .next (s.afterScalar (BitVec.ofNat 32 k) (decide (k = 0)) false))

/-- 44 R219: the bit index is SA as an unsigned number; 0 above the stored limbs. -/
def Obligations.BitReadsOneBitOfTheMagnitude : Prop :=
  (∀ ra, decode (commandWord 0x53 0 ra 0 0) = .ok (.bit ra)) ∧
  ∀ (s : State) (ra : BigReg),
    exec (.bit ra) s =
      .next (s.afterScalar (BitVec.ofNat 32 ((s.regVal ra).natAbs / 2 ^ s.sa.toNat % 2))
        (decide ((s.regVal ra).natAbs / 2 ^ s.sa.toNat % 2 = 0)) false)

/-- 44 R220. -/
def Obligations.AbsWritesTheMagnitude : Prop :=
  (∀ rd ra, decode (commandWord 0x54 rd ra 0 0) = .ok (.abs rd ra)) ∧
  ∀ (s : State) (rd ra : BigReg), s.Inv →
    exec (.abs rd ra) s = .next (s.afterBig rd ((s.regVal ra).natAbs : Int))

/-- 44 R221. -/
def Obligations.Ispow2TestsForAPowerOfTwo : Prop :=
  (∀ ra, decode (commandWord 0x55 0 ra 0 0) = .ok (.ispow2 ra)) ∧
  ∀ (s : State) (ra : BigReg),
    ((∃ k : Nat, s.regVal ra = 2 ^ k) → exec (.ispow2 ra) s = .next (s.afterScalar 1 false false)) ∧
    ((¬ ∃ k : Nat, s.regVal ra = 2 ^ k) → exec (.ispow2 ra) s = .next (s.afterScalar 0 true false))

/-! ### Modular block -/

/-- 45 R241. -/
def Obligations.GcdIsTheGreatestCommonDivisor : Prop :=
  (∀ rd ra rb, decode (commandWord 0x60 rd ra rb 0) = .ok (.gcd rd ra rb)) ∧
  ∀ (s : State) (rd ra rb : BigReg), s.Inv →
    exec (.gcd rd ra rb) s = .next (s.afterBig rd (Int.gcd (s.regVal ra) (s.regVal rb) : Int))

/-- 45 R244 with the pair that R242 and R243 fix, its identity and its bound; with `rd = rc` its
completion step ends in IllegalCommand in every state. -/
def Obligations.BezoutWritesTheCoefficients : Prop :=
  (∀ rd rc ra rb, rd ≠ rc → decode (commandWord 0x61 rd ra rb rc) = .ok (.bezout rd rc ra rb)) ∧
  (∀ (s : State) (rd ra rb : BigReg), s.cur = commandWord 0x61 rd ra rb rd → unitStep s = .next (s.afterError 3)) ∧
  ∀ (s : State) (rd rc ra rb : BigReg), s.Inv → rd ≠ rc →
    (s.regVal ra < 0 ∨ s.regVal rb < 0 → exec (.bezout rd rc ra rb) s = .next (s.afterError 5)) ∧
    (0 ≤ s.regVal ra → 0 ≤ s.regVal rb →
      ∃ (g : Nat) (u w : Int),
        Egcd (min (s.regVal ra) (s.regVal rb)).toNat (max (s.regVal ra) (s.regVal rb)).toNat g u w ∧
        exec (.bezout rd rc ra rb) s = .next (s.afterPair rd rc u w) ∧ g = Int.gcd (s.regVal ra) (s.regVal rb) ∧
        u * min (s.regVal ra) (s.regVal rb) + w * max (s.regVal ra) (s.regVal rb) = g ∧
        (u.natAbs : Int) ≤ max 1 (max (s.regVal ra) (s.regVal rb)) ∧
        (w.natAbs : Int) ≤ max 1 (min (s.regVal ra) (s.regVal rb)))

/-- 45 R246. -/
def Obligations.ModinvIsTheInverse : Prop :=
  (∀ rd ra rb, decode (commandWord 0x62 rd ra rb 0) = .ok (.modinv rd ra rb)) ∧
  ∀ (s : State) (rd ra rb : BigReg), s.Inv →
    (s.regVal rb = 0 → exec (.modinv rd ra rb) s = .next (s.afterError 1)) ∧
    (s.regVal rb < 0 → exec (.modinv rd ra rb) s = .next (s.afterError 2)) ∧
    (0 < s.regVal rb → Int.gcd (s.regVal ra % s.regVal rb) (s.regVal rb) ≠ 1 →
      exec (.modinv rd ra rb) s = .next (s.afterError 6)) ∧
    (0 < s.regVal rb → Int.gcd (s.regVal ra % s.regVal rb) (s.regVal rb) = 1 →
      ∃ v, exec (.modinv rd ra rb) s = .next (s.afterBig rd v) ∧ 0 ≤ v ∧ v < s.regVal rb ∧
        s.regVal ra * v % s.regVal rb = 1 % s.regVal rb)

/-- 45 R251: the product itself is never checked against the capacity. -/
def Obligations.MulmodIsTheReducedProduct : Prop :=
  (∀ rd ra rb rc, decode (commandWord 0x63 rd ra rb rc) = .ok (.mulmod rd ra rb rc)) ∧
  ∀ (s : State) (rd ra rb rc : BigReg), s.Inv →
    (s.regVal rc = 0 → exec (.mulmod rd ra rb rc) s = .next (s.afterError 1)) ∧
    (s.regVal rc < 0 → exec (.mulmod rd ra rb rc) s = .next (s.afterError 2)) ∧
    (0 < s.regVal rc →
      exec (.mulmod rd ra rb rc) s = .next (s.afterBig rd (s.regVal ra * s.regVal rb % s.regVal rc)))

/-- 45 R260, R252 (the order of the errors) and the value contract R261, for both variants. -/
def Obligations.ModexpIsTheReducedPower : Prop :=
  (∀ rd ra rb rc, decode (commandWord 0x64 rd ra rb rc) = .ok (.modexp rd ra rb rc)) ∧
  ∀ (s : State) (rd ra rb rc : BigReg), s.Inv →
    (s.regVal rc = 0 → exec (.modexp rd ra rb rc) s = .next (s.afterError 1)) ∧
    (s.regVal rc < 0 → exec (.modexp rd ra rb rc) s = .next (s.afterError 2)) ∧
    (0 < s.regVal rc → s.regVal rb < 0 → exec (.modexp rd ra rb rc) s = .next (s.afterError 5)) ∧
    (0 < s.regVal rc → 0 ≤ s.regVal rb → s.regVal rc ∣ s.regVal ra →
      exec (.modexp rd ra rb rc) s = .next (s.afterBig rd 0)) ∧
    (0 < s.regVal rc → 0 ≤ s.regVal rb → ¬ s.regVal rc ∣ s.regVal ra →
      exec (.modexp rd ra rb rc) s =
        .next (s.afterBig rd (s.regVal ra ^ (s.regVal rb).toNat % s.regVal rc)))

/-- 00 R6, 45 R259: the unit built as the Montgomery ladder and the unit built without it take every command to the same
state. -/
def Obligations.NoResultDependsOnLadder : Prop :=
  ∀ (i : Instr) (s : State) (l : Bool), s.Inv →
    ∃ t, exec i s = .next t ∧
      exec i { s with params := { s.params with ladder := l } } =
        .next { t with params := { t.params with ladder := l } }

/-! ### Frames and errors -/

/-- The frame of every command that writes one big register: LD, MOV, LDI, ADD, SUB, MUL, MULS, MULADD, DIV, MOD, SHL, SHR,
ABS, GCD, MODINV, MULMOD, MODEXP. Only `rd`, Z, N, BUSY, DONE and, after an error, the error record change; no byte of the
buffer does. The flags are those of the value written (10 R27). -/
def Obligations.OneRegisterCommandsFrame : Prop :=
  ∀ (s t : State) (rd ra rb rc : BigReg) (i : Instr),
    i ∈ [Instr.ld rd, .mov rd ra, .ldi rd, .add rd ra rb, .sub rd ra rb, .mul rd ra rb, .muls rd ra, .muladd rd ra,
      .div rd ra rb, .mod rd ra rb, .shl rd ra, .shr rd ra, .abs rd ra, .gcd rd ra rb, .modinv rd ra rb,
      .mulmod rd ra rb rc, .modexp rd ra rb rc] →
    exec i s = .next t →
    (∀ r, r ≠ rd → t.reg r = s.reg r) ∧ t.sres = s.sres ∧ s.SameOutside t ∧ s.SameBuffer t ∧
      t.busy = false ∧ t.done = true ∧
      ((t.z = decide (t.regVal rd = 0) ∧ t.n = decide (t.regVal rd < 0) ∧ s.SameErrorRecord t) ∨
        (t.regs = s.regs ∧ t.z = s.z ∧ t.n = s.n ∧ t.err = true ∧ t.ecmd = s.cur))

/-- The frame of BEZOUT: only its two destinations, the flags (from `rd`'s value) and, after an error, the error record;
after an error both destinations keep their values. -/
def Obligations.BezoutFrame : Prop :=
  ∀ (s t : State) (rd rc ra rb : BigReg), rd ≠ rc → exec (.bezout rd rc ra rb) s = .next t →
    (∀ r, r ≠ rd → r ≠ rc → t.reg r = s.reg r) ∧ t.sres = s.sres ∧ s.SameOutside t ∧ s.SameBuffer t ∧
      t.busy = false ∧ t.done = true ∧
      ((t.z = decide (t.regVal rd = 0) ∧ t.n = decide (t.regVal rd < 0) ∧ s.SameErrorRecord t) ∨
        (t.regs = s.regs ∧ t.z = s.z ∧ t.n = s.n ∧ t.err = true ∧ t.ecmd = s.cur))

/-- The frame of CMP, SIZE, TZ, BIT and ISPOW2: no big register and no byte of the buffer changes; of SIZE, TZ, BIT and
ISPOW2 the flags are those of the scalar written (10 R27), of CMP those of the order. -/
def Obligations.ScalarCommandsFrame : Prop :=
  ∀ (s t : State) (ra rb : BigReg) (i : Instr),
    i ∈ [Instr.cmp ra rb, .size ra, .tz ra, .bit ra, .ispow2 ra] → exec i s = .next t →
    t.regs = s.regs ∧ s.SameOutside t ∧ s.SameBuffer t ∧ t.busy = false ∧ t.done = true ∧
      ((t.z = decide (t.sres = 0) ∧ t.n = decide (i = .cmp ra rb ∧ t.sres = 0xFFFFFFFF) ∧ s.SameErrorRecord t) ∨
        (t.sres = s.sres ∧ t.z = s.z ∧ t.n = s.n ∧ t.err = true ∧ t.ecmd = s.cur))

/-- 60 R283, R284: a command that ends in an error records ERR, ECODE and ECMD, ends BUSY, sets DONE and changes nothing
else; the unit then drops a command until ERR is cleared. -/
def Obligations.ErrorEntryChangesNothingElse : Prop :=
  ∀ (i : Instr) (s t : State), s.err = false → exec i s = .next t → t.err = true →
    t = { s with err := true, ecode := t.ecode, ecmd := s.cur, busy := false, done := true } ∧
      t.ecode ≠ 0 ∧ t.ecode.toNat ≤ 7 ∧ t.irq = s.ie ∧ ∀ c, t.issue c = { t with drop := true }

/-- 60 R281: which command can raise which error. -/
def Obligations.CommandsRaiseOnlyTheirErrors : Prop :=
  ∀ (i : Instr) (s t : State), s.Inv → i.wellFormed = true → s.err = false → exec i s = .next t →
    (t.err = false ∧ t.ecode = s.ecode ∧ t.ecmd = s.ecmd) ∨ t.ecode ∈ mayRaise i

/-- 20 R70, 10 R33: what a command writes depends on the build, the big registers, SA, SB and the buffer alone: not on the
flags, SRES, CTRL, DROP or the events around it. -/
def Obligations.ResultDependsOnTheOperandsAlone : Prop :=
  ∀ (i : Instr) (s s' : State), s.SameOperands s' →
    ∃ t t', exec i s = .next t ∧ exec i s' = .next t' ∧ t.regs = t'.regs ∧ t.olen = t'.olen ∧ t.osign = t'.osign ∧
      t.obuf = t'.obuf ∧
      ((∃ e, t = s.afterError e ∧ t' = s'.afterError e) ∨
        (t.z = t'.z ∧ t.n = t'.n ∧ s.SameErrorRecord t ∧ s'.SameErrorRecord t' ∧
          (t.sres = t'.sres ∨ (t.sres = s.sres ∧ t'.sres = s'.sres))))

/-- 20 R65, R67, R70: whatever the host does on the bus while a command is in flight, and however many accesses fall
before the unit's turn (log entry 1), the command ends as if it had completed at once. -/
def Obligations.ResultIsThatOfTheStateAtIssue : Prop :=
  ∀ (s : State) (accesses : List Access) (later : List Event), s.Inv → s.busy = true →
    (later = [] ∨ ∃ rest, later = .unitTurn :: rest) →
    ∃ t u, step { s with inputs := [] } = .next t ∧
      Sys2Proof.core.run (accesses.length + 1) { s with inputs := accesses.map Event.access ++ later } = .next u ∧
      u.regs = t.regs ∧ u.z = t.z ∧ u.n = t.n ∧ u.err = t.err ∧ u.ecode = t.ecode ∧ u.ecmd = t.ecmd ∧
      u.sres = t.sres ∧ u.sa = t.sa ∧ u.sb = t.sb ∧ u.olen = t.olen ∧ u.osign = t.osign ∧ u.obuf = t.obuf ∧
      u.busy = false ∧ u.done = true ∧ u.inputs = later.tail

/-! ### The host's accesses -/

/-- 20 R60, 93 U10: the window is the least power of two that holds OBUF; an access outside it leaves the unit as it is,
whatever the platform answers. The model counts such accesses (log entry 7, the model's choice). -/
def Obligations.WindowIsTheLeastPowerOfTwo : Prop :=
  (∀ p : Params, p.Ok → ∃ k, windowSize p = 2 ^ k ∧ 0x1000 + 4 * p.lmax ≤ 2 ^ k ∧
    ∀ j, 0x1000 + 4 * p.lmax ≤ 2 ^ j → k ≤ j) ∧
  (∀ (s : State) (a : Access), windowSize s.params ≤ a.offset →
    ∃ r, s.access a = .next { s with resp := r, strays := s.strays + 1 })

/-- 20 R62: an access of another width or at an offset that is not a multiple of 4 gets BusError and changes nothing. -/
def Obligations.MalformedAccessGetsBusError : Prop :=
  ∀ (s : State) (a : Access), a.offset < windowSize s.params → (a.width ≠ .w32 ∨ a.offset % 4 ≠ 0) →
    s.access a = .next { s with resp := .busError }

/-- 10 R28 to R36 and R39, 20 R63, R64: what every offset reads, and that no read changes anything. -/
def Obligations.ReadsReturnTheRegisterMap : Prop :=
  ∀ (s : State) (offset : Nat), s.params.Ok → offset < windowSize s.params → offset % 4 = 0 →
    ∃ w : Word, s.access ⟨.w32, offset, .read⟩ = .next { s with resp := .word w } ∧
      (offset = 0x000 → w.toNat =
        s.params.lmax + 2 ^ 16 * 16 + 2 ^ 24 * s.params.ladder.toNat + 2 ^ 28 * 1) ∧
      (offset = 0x004 → w.toNat = s.ie.toNat) ∧
      (offset = 0x008 → w.toNat = s.busy.toNat + 2 * s.done.toNat + 4 * s.err.toNat + 8 * s.drop.toNat +
        16 * s.ecode.toNat + 256 * s.z.toNat + 512 * s.n.toNat) ∧
      (offset = 0x00C → w = 0) ∧ (offset = 0x010 → w = s.ecmd) ∧ (offset = 0x014 → w = s.sa) ∧
      (offset = 0x018 → w = s.sb) ∧ (offset = 0x01C → w = s.sres) ∧
      (offset = 0x020 → w.toNat = s.olen.toNat + 2 ^ 31 * s.osign.toNat) ∧
      (0x024 ≤ offset → offset < 0x1000 → w = 0) ∧
      (∀ i, i < s.params.lmax → offset = 0x1000 + 4 * i → w = s.obufWord i) ∧
      (0x1000 + 4 * s.params.lmax ≤ offset → w = 0)

/-- 20 R65: while a command is in flight a write to SA, SB, OHDR or a word of OBUF is dropped and sets DROP; writes to CTRL
and STATUS are performed. -/
def Obligations.WritesAreDroppedWhileBusy : Prop :=
  ∀ (s : State) (offset : Nat) (v : Word), s.params.Ok → s.busy = true →
    (offset = 0x014 ∨ offset = 0x018 ∨ offset = 0x020 ∨ (∃ i, i < s.params.lmax ∧ offset = 0x1000 + 4 * i) →
      s.access ⟨.w32, offset, .write v⟩ = .next { s with drop := true, resp := .ok }) ∧
    (offset = 0x004 → s.access ⟨.w32, offset, .write v⟩ = .next { s with ie := v.getLsbD 0, resp := .ok }) ∧
    (offset = 0x008 → ∃ t, s.access ⟨.w32, offset, .write v⟩ = .next t ∧
      t.done = (s.done && !v.getLsbD 1) ∧ t.err = (s.err && !v.getLsbD 2) ∧ t.drop = (s.drop && !v.getLsbD 3))

/-- 10 R33, R35, R36, 20 R63: with no command in flight, writes to SA, SB, OHDR and OBUF store the value in the writable bits
and do nothing else; of OBUF the four bytes of the word written, and no other byte. -/
def Obligations.WritesAreStoredWhenIdle : Prop :=
  ∀ (s : State) (v : Word), s.params.Ok → s.busy = false →
    s.access ⟨.w32, 0x014, .write v⟩ = .next { s with sa := v, resp := .ok } ∧
    s.access ⟨.w32, 0x018, .write v⟩ = .next { s with sb := v, resp := .ok } ∧
    s.access ⟨.w32, 0x020, .write v⟩ =
      .next { s with olen := BitVec.ofNat 16 v.toNat, osign := v.getLsbD 31, resp := .ok } ∧
    ∀ i, i < s.params.lmax → ∃ t, s.access ⟨.w32, 0x1000 + 4 * i, .write v⟩ = .next t ∧ t.obufWord i = v ∧
      (∀ j, j ≠ i → t.obufWord j = s.obufWord j) ∧
      (∀ a, ¬ (0x1000 + 4 * i ≤ a ∧ a < 0x1000 + 4 * i + 4) → t.readByte a = s.readByte a) ∧
      t = { s with obuf := t.obuf, resp := .ok }

/-- 20 R63, R64: writes to ID, ECMD, SRES and the reserved offsets do nothing and answer ok. -/
def Obligations.ReadOnlyWritesDoNothing : Prop :=
  ∀ (s : State) (offset : Nat) (v : Word), s.params.Ok → offset < windowSize s.params → offset % 4 = 0 →
    (offset = 0x000 ∨ offset = 0x010 ∨ offset = 0x01C ∨ (0x024 ≤ offset ∧ offset < 0x1000) ∨
      0x1000 + 4 * s.params.lmax ≤ offset) →
    s.access ⟨.w32, offset, .write v⟩ = .next { s with resp := .ok }

/-- 10 R28, 60 R287: a write of STATUS clears the W1C bits it names, together; clearing ERR clears ECODE and ECMD and
restores nothing else; the unit accepts commands again. -/
def Obligations.StatusWriteClearsAndAcknowledges : Prop :=
  ∀ (s : State) (v : Word), s.params.Ok →
    ∃ t, s.access ⟨.w32, 0x008, .write v⟩ = .next t ∧
      t = { s with
        done := s.done && !v.getLsbD 1
        drop := s.drop && !v.getLsbD 3
        err := s.err && !v.getLsbD 2
        ecode := if v.getLsbD 2 then 0 else s.ecode
        ecmd := if v.getLsbD 2 then 0 else s.ecmd
        resp := .ok } ∧
      (v.getLsbD 2 = true → s.busy = false → ∀ c, t.issue c = { t with cur := c, busy := true, done := false })

/-- 20 R66, 60 R288: the issue of a command by a write to CMD, and its dropping while a command is in flight or an error
stands. -/
def Obligations.IssueAcceptsOrDrops : Prop :=
  ∀ (s : State) (c : Word), s.params.Ok →
    (s.busy = true ∨ s.err = true →
      s.access ⟨.w32, 0x00C, .write c⟩ = .next { s with drop := true, resp := .ok }) ∧
    (s.busy = false → s.err = false →
      s.access ⟨.w32, 0x00C, .write c⟩ = .next { s with cur := c, busy := true, done := false, resp := .ok })

/-- 20 R66, R70: from idle, the write of a command's word to CMD and the unit's turn after it take the machine to the end
of that command, with whatever the outside presents next still to come (log entry 1). -/
def Obligations.IssuedCommandRunsToItsEnd : Prop :=
  ∀ (s : State) (i : Instr) (rest : List Event), s.params.Ok → i.wellFormed = true → s.busy = false → s.err = false →
    Sys2Proof.core.run 2 { s with inputs := .access ⟨.w32, 0x00C, .write (encode i)⟩ :: .unitTurn :: rest } =
      exec i { s with cur := encode i, busy := true, done := false, resp := .ok, inputs := rest }

/-- 10 R29, 60 R289: CTRL.IE is written whatever BUSY is; `irq` is IE and DONE, so it follows IE at every completion step,
and falls when a command is accepted or DONE is cleared. -/
def Obligations.IrqFollowsEnableAndDone : Prop :=
  ∀ (s : State) (v : Word), s.params.Ok →
    s.access ⟨.w32, 0x004, .write v⟩ = .next { s with ie := v.getLsbD 0, resp := .ok } ∧
    s.irq = (s.ie && s.done) ∧
    (∀ i t, exec i s = .next t → t.irq = s.ie) ∧
    (s.busy = false → s.err = false → (s.issue v).irq = false) ∧
    (v.getLsbD 1 = true → (s.writeStatus v).irq = false)

/-- 20 R68, R70, R73; 93 section 2, "Nothing in the unit is `stuck`": every step of every state answers a next state, be
it an access anywhere, a reset, or a turn of the unit with any word in flight (events: log entry 1). -/
def Obligations.EveryStepAnswersANextState : Prop := ∀ s : State, ∃ t, step s = .next t

end Statements
end

