-- ==== Sys2Proof/Laws/BigNum.lean ====
section
/-! SUPPORT. What the notation of the spec means on numbers: bit lengths, magnitudes, normalization, `big`, `val`, `len`. -/

namespace Sys2Proof

theorem bitlength_le_iff (v k : Nat) : bitlength v ≤ k ↔ v < 2 ^ k := by
  unfold bitlength
  by_cases hv : v = 0
  · simp [hv]
  · rw [if_neg hv, ← Nat.log2_lt hv]; exact Iff.rfl

theorem lt_two_pow_bitlength (v : Nat) : v < 2 ^ bitlength v := (bitlength_le_iff v _).1 le_rfl

theorem lt_bitlength_iff (v k : Nat) : k < bitlength v ↔ 2 ^ k ≤ v := by
  have := bitlength_le_iff v k; omega

theorem bitlength_eq_zero (v : Nat) : bitlength v = 0 ↔ v = 0 := by
  have := bitlength_le_iff v 0; simp at this; omega

theorem bitlength_mul_two_pow (v k : Nat) (hv : v ≠ 0) : bitlength (v * 2 ^ k) = bitlength v + k := by
  apply le_antisymm
  · rw [bitlength_le_iff, pow_add]
    exact Nat.mul_lt_mul_of_pos_right (lt_two_pow_bitlength v) (by positivity)
  · have h0 : 0 < bitlength v := Nat.pos_of_ne_zero (fun h => hv ((bitlength_eq_zero v).1 h))
    have h1 : 2 ^ (bitlength v - 1) ≤ v := (lt_bitlength_iff v _).1 (by omega)
    have : bitlength v - 1 + k < bitlength (v * 2 ^ k) := by
      rw [lt_bitlength_iff, pow_add]; exact Nat.mul_le_mul_right _ h1
    omega

theorem radix_eq : radix = 2 ^ 32 := by norm_num [radix]

theorem radix_pow (n : Nat) : radix ^ n = 2 ^ (32 * n) := by rw [radix_eq, ← pow_mul]

theorem toNat_lt_radix (w : Word) : w.toNat < radix := w.isLt

theorem clz32_le (w : Word) : clz32 w ≤ 32 := Nat.sub_le _ _

/-- The bit length of a non-zero word is 32 less its leading zeros. -/
theorem bitlength_word (w : Word) : bitlength w.toNat + clz32 w = 32 := by
  have : bitlength w.toNat ≤ 32 := (bitlength_le_iff _ _).2 w.isLt
  unfold clz32; omega

/-! ### Magnitudes -/

@[simp] theorem mag_nil : mag [] = 0 := rfl
theorem mag_cons (w : Word) (ws : Limbs) : mag (w :: ws) = w.toNat + radix * mag ws := rfl

theorem mag_append (x y : Limbs) : mag (x ++ y) = mag x + radix ^ x.length * mag y := by
  induction x with
  | nil => simp
  | cons w ws ih => simp only [List.cons_append, mag_cons, ih, List.length_cons, pow_succ]; ring

@[simp] theorem mag_replicate_zero (n : Nat) : mag (List.replicate n 0#32) = 0 := by
  induction n with
  | zero => rfl
  | succ n ih => rw [List.replicate_succ, mag_cons, ih]; rfl

theorem mag_lt (x : Limbs) : mag x < radix ^ x.length := by
  induction x with
  | nil => simp
  | cons w ws ih =>
    have := toNat_lt_radix w
    simp only [mag_cons, List.length_cons, pow_succ]
    generalize radix ^ ws.length = p at *
    simp only [radix] at *; omega

@[simp] theorem mag_singleton (w : Word) : mag [w] = w.toNat := by simp [mag_cons]

theorem mag_take_drop (x : Limbs) (n : Nat) (h : n ≤ x.length) :
    mag x = mag (x.take n) + radix ^ n * mag (x.drop n) := by
  conv_lhs => rw [← List.take_append_drop n x, mag_append]
  simp [h]

theorem limbAt_cons_succ (w : Word) (x : Limbs) (i : Nat) : limbAt (w :: x) (i + 1) = limbAt x i := by
  simp [limbAt]

theorem limbAt_cons_zero (w : Word) (x : Limbs) : limbAt (w :: x) 0 = w := by simp [limbAt]

/-- The top limb splits off. -/
theorem mag_top (x : Limbs) (n : Nat) (h : x.length = n + 1) :
    mag x = mag (x.take n) + radix ^ n * (limbAt x n).toNat := by
  rw [mag_take_drop x n (by omega)]
  congr 2
  have : x.drop n = [limbAt x n] := by
    apply List.ext_getElem
    · simp [h]
    · intro i h1 h2
      simp at h2; subst h2
      simp [limbAt, List.getD, List.getElem?_eq_getElem (show n < x.length by omega)]
  rw [this, mag_singleton]

theorem mag_ge_of_top (x : Limbs) (h : x ≠ []) (ht : limbAt x (x.length - 1) ≠ 0) :
    radix ^ (x.length - 1) ≤ mag x := by
  have hl : x.length = (x.length - 1) + 1 := by
    have := List.length_pos_iff.2 h; omega
  rw [mag_top x (x.length - 1) hl]
  have : 1 ≤ (limbAt x (x.length - 1)).toNat := by
    rcases Nat.eq_zero_or_pos (limbAt x (x.length - 1)).toNat with h0 | h0
    · exact absurd (BitVec.eq_of_toNat_eq (by simpa using h0)) ht
    · exact h0
  nlinarith [Nat.pos_of_ne_zero (pow_ne_zero (x.length - 1) (show radix ≠ 0 by norm_num [radix]))]

/-! ### Normalization -/

theorem dropTopZeros_mag (x : Limbs) : mag (dropTopZeros x) = mag x := by
  induction x with
  | nil => rfl
  | cons w ws ih =>
    simp only [dropTopZeros]
    cases h : dropTopZeros ws with
    | nil =>
      rw [h] at ih
      by_cases hw : w = 0
      · simp [hw, mag_cons, ← ih]
      · simp only [if_neg hw, mag_cons, ← ih]
    | cons v vs => rw [h] at ih; simp [mag_cons, ← ih]

theorem dropTopZeros_last (x : Limbs) : (dropTopZeros x).getLast? ≠ some 0 := by
  induction x with
  | nil => simp [dropTopZeros]
  | cons w ws ih =>
    simp only [dropTopZeros]
    cases h : dropTopZeros ws with
    | nil =>
      by_cases hw : w = 0
      · simp [hw]
      · simp only [if_neg hw, List.getLast?_singleton, ne_eq, Option.some.injEq]; exact hw
    | cons v vs => rw [h] at ih; simpa [List.getLast?_cons_cons] using ih

@[simp] theorem mag_strip (x : Limbs) : mag (strip x) = mag x := by
  have h1 := dropTopZeros_mag x
  unfold strip
  cases h : dropTopZeros x with
  | nil => rw [h] at h1; simpa using h1
  | cons v vs => rw [h] at h1; exact h1

theorem limbsNormal_strip (x : Limbs) : LimbsNormal (strip x) := by
  have h1 := dropTopZeros_last x
  unfold strip
  cases h : dropTopZeros x with
  | nil => exact ⟨by simp, fun _ => rfl⟩
  | cons v vs => rw [h] at h1; exact ⟨by simp, fun hh => absurd hh h1⟩

theorem LimbsNormal.length_pos {x : Limbs} (h : LimbsNormal x) : 0 < x.length := List.length_pos_iff.2 h.1

theorem limbAt_last (x : Limbs) (h : x ≠ []) : x.getLast? = some (limbAt x (x.length - 1)) := by
  have := List.length_pos_iff.2 h
  simp [List.getLast?_eq_getElem?, limbAt, List.getElem?_eq_getElem (show x.length - 1 < x.length by omega)]

/-- A normalized non-zero magnitude has a non-zero top limb. -/
theorem LimbsNormal.top_ne_zero {x : Limbs} (h : LimbsNormal x) (h0 : mag x ≠ 0) : limbAt x (x.length - 1) ≠ 0 := by
  intro ht
  have := h.2 (by rw [limbAt_last x h.1, ht])
  simp [this] at h0

theorem LimbsNormal.mag_ge {x : Limbs} (h : LimbsNormal x) (h0 : mag x ≠ 0) : radix ^ (x.length - 1) ≤ mag x :=
  mag_ge_of_top x h.1 (h.top_ne_zero h0)

theorem LimbsNormal.eq_of_mag_zero {x : Limbs} (h : LimbsNormal x) (h0 : mag x = 0) : x = [0] := by
  apply h.2
  rw [limbAt_last x h.1]
  congr 1
  by_contra ht
  have := mag_ge_of_top x h.1 ht
  have : 0 < radix ^ (x.length - 1) := by positivity
  omega

/-- The limb count of a normalized magnitude (00 R8: `len`). -/
theorem LimbsNormal.length_eq {x : Limbs} (h : LimbsNormal x) : x.length = max 1 ((bitlength (mag x) + 31) / 32) := by
  have hp := h.length_pos
  by_cases h0 : mag x = 0
  · rw [h.eq_of_mag_zero h0]; simp [bitlength]
  · have h1 := h.mag_ge h0
    have h2 := mag_lt x
    rw [radix_pow] at h1 h2
    have h3 := (bitlength_le_iff _ _).2 h2
    have h4 := (lt_bitlength_iff _ _).2 h1
    omega

/-- A magnitude has one normalized limb sequence. -/
theorem LimbsNormal.ext {x y : Limbs} (hx : LimbsNormal x) (hy : LimbsNormal y) (h : mag x = mag y) : x = y := by
  have hl : x.length = y.length := by rw [hx.length_eq, hy.length_eq, h]
  clear hx hy
  induction x generalizing y with
  | nil => cases y with
    | nil => rfl
    | cons => simp at hl
  | cons w ws ih => cases y with
    | nil => simp at hl
    | cons v vs =>
      simp only [mag_cons] at h
      have h1 := toNat_lt_radix w
      have h2 := toNat_lt_radix v
      have h3 : w.toNat = v.toNat := by simp only [radix] at *; omega
      have h4 : mag ws = mag vs := by simp only [radix] at *; omega
      rw [BitVec.eq_of_toNat_eq h3, ih h4 (by simpa using hl)]

theorem mag_limbsOf (f v : Nat) (h : v < radix ^ f) : mag (limbsOf f v) = v := by
  induction f generalizing v with
  | zero => simp at h; simp [limbsOf, h]
  | succ f ih =>
    simp only [limbsOf]
    by_cases hv : v = 0
    · simp [hv]
    · rw [if_neg hv, mag_cons, ih]
      · simp only [BitVec.toNat_ofNat, radix]; omega
      · rw [pow_succ] at h; exact Nat.div_lt_of_lt_mul (by rwa [mul_comm])

theorem limbsOf_last (f v : Nat) (h : v < radix ^ f) : (limbsOf f v).getLast? ≠ some 0 := by
  induction f generalizing v with
  | zero => simp [limbsOf]
  | succ f ih =>
    simp only [limbsOf]
    by_cases hv : v = 0
    · simp [hv]
    · have hd : v / radix < radix ^ f := by
        rw [pow_succ] at h; exact Nat.div_lt_of_lt_mul (by rwa [mul_comm])
      rw [if_neg hv]
      have h1 := ih _ hd
      have h2 := mag_limbsOf f _ hd
      cases hl : limbsOf f (v / radix) with
      | nil =>
        rw [hl] at h2
        simp only [mag_nil] at h2
        simp only [List.getLast?_singleton, ne_eq, Option.some.injEq]
        intro h0
        have h3 := congrArg BitVec.toNat h0
        have h4 : BitVec.toNat (0 : Word) = 0 := rfl
        simp only [BitVec.toNat_ofNat, radix] at *
        omega
      | cons a as => rw [hl] at h1; simpa [List.getLast?_cons_cons] using h1

theorem natLimbs_fuel (v : Nat) : v < radix ^ ((bitlength v + 31) / 32) := by
  rw [radix_pow]
  exact lt_of_lt_of_le (lt_two_pow_bitlength v) (Nat.pow_le_pow_right (by norm_num) (by omega))

@[simp] theorem mag_natLimbs (v : Nat) : mag (natLimbs v) = v := by
  unfold natLimbs
  by_cases hv : v = 0
  · simp [hv]
  · rw [if_neg hv, mag_limbsOf _ _ (natLimbs_fuel v)]

theorem limbsNormal_natLimbs (v : Nat) : LimbsNormal (natLimbs v) := by
  unfold natLimbs
  by_cases hv : v = 0
  · rw [if_pos hv]; exact ⟨by simp, fun _ => rfl⟩
  · rw [if_neg hv]
    refine ⟨fun h => hv ?_, fun h => absurd h (limbsOf_last _ _ (natLimbs_fuel v))⟩
    have := mag_limbsOf _ _ (natLimbs_fuel v)
    rw [h] at this; exact this.symm

/-- A normalized sequence is the one `natLimbs` gives. -/
theorem LimbsNormal.natLimbs_mag {x : Limbs} (h : LimbsNormal x) : natLimbs (mag x) = x :=
  (limbsNormal_natLimbs _).ext h (mag_natLimbs _)

theorem strip_eq_natLimbs (x : Limbs) : strip x = natLimbs (mag x) :=
  (limbsNormal_strip x).ext (limbsNormal_natLimbs _) (by simp)

/-! ### BigInt values -/

theorem BigInt.val_eq (x : BigInt) : x.val = if x.sign then -(Sys2Proof.mag x.limbs : Int) else Sys2Proof.mag x.limbs := rfl

theorem BigInt.mag_eq_natAbs (x : BigInt) : x.mag = x.val.natAbs := by
  unfold BigInt.val; split <;> simp

@[simp] theorem norm_val (s : Bool) (x : Limbs) : (norm s x).val = if s then -(mag x : Int) else mag x := by
  cases s
  · simp [norm, BigInt.val_eq]
  · by_cases h : mag x = 0 <;> simp [norm, BigInt.val_eq, h]

theorem norm_normal (s : Bool) (x : Limbs) : (norm s x).Normal := by
  refine ⟨limbsNormal_strip x, fun h h0 => ?_⟩
  have h1 : mag (strip x) = 0 := by
    have : strip x = [0] := h0
    rw [this]; rfl
  simp [norm] at h
  simp at h1
  exact h.2 h1

@[simp] theorem big_val (v : Int) : (big v).val = v := by
  rw [BigInt.val_eq]
  simp only [big, mag_natLimbs, decide_eq_true_eq]
  split <;> omega

@[simp] theorem big_limbs (v : Int) : (big v).limbs = natLimbs v.natAbs := rfl

theorem big_normal (v : Int) : (big v).Normal := by
  refine ⟨limbsNormal_natLimbs _, fun h h0 => ?_⟩
  have h1 := mag_natLimbs v.natAbs
  have h2 : natLimbs v.natAbs = [0] := h0
  rw [h2] at h1
  simp [big] at h
  simp at h1
  omega

/-- A normalized value is determined by its integer (10 R23). -/
theorem BigInt.Normal.big_val {x : BigInt} (h : x.Normal) : big x.val = x := by
  have hm : natLimbs x.val.natAbs = x.limbs := by
    rw [← BigInt.mag_eq_natAbs]; exact h.1.natLimbs_mag
  have hs : decide (x.val < 0) = x.sign := by
    cases hs : x.sign with
    | false => simp [BigInt.val_eq, hs]
    | true =>
      have : Sys2Proof.mag x.limbs ≠ 0 := fun h0 => h.2 hs (h.1.eq_of_mag_zero h0)
      simp [BigInt.val_eq, hs]; omega
  cases x with
  | mk sg lb => simp only [big, BigInt.mk.injEq]; exact ⟨hs, hm⟩

theorem big_len (v : Int) : (big v).len = lenOf v := by
  unfold BigInt.len lenOf
  rw [big_limbs, (limbsNormal_natLimbs _).length_eq, mag_natLimbs]

theorem BigInt.Normal.len_eq {x : BigInt} (h : x.Normal) : x.len = lenOf x.val := by
  rw [← big_len, h.big_val]

/-- The capacity in bits (60 R285): `len(v) <= L` exactly when `|v| < 2^(32*L)`. -/
theorem lenOf_le_iff (v : Int) (L : Nat) (hL : 1 ≤ L) : lenOf v ≤ L ↔ v.natAbs < 2 ^ (32 * L) := by
  rw [← bitlength_le_iff]; unfold lenOf; omega

@[simp] theorem zero_val : BigInt.zero.val = 0 := by decide
theorem zero_normal : BigInt.zero.Normal := by decide
theorem big_zero : big 0 = BigInt.zero := by decide

end Sys2Proof
end

