-- ==== Sys2Proof/Laws/AddSub.lean ====
section
/-! SUPPORT. The adder/subtractor computes sums and differences (41_addsub.md): one lemma per primitive. -/

namespace Sys2Proof

@[simp] theorem mag_padTo (n : Nat) (x : Limbs) : mag (padTo n x) = mag x := by
  simp [padTo, mag_append]

theorem length_padTo (n : Nat) (x : Limbs) (h : x.length ≤ n) : (padTo n x).length = n := by
  simp [padTo]; omega

/-- The carry chain adds (41 R140). -/
theorem addLoop_mag (ps : List (Word × Word)) (c : Nat) (hc : c ≤ 1) :
    mag (addLoop ps c) = mag (ps.map Prod.fst) + mag (ps.map Prod.snd) + c := by
  induction ps generalizing c with
  | nil =>
    rcases Nat.le_one_iff_eq_zero_or_eq_one.1 hc with h | h <;> subst h <;> rfl
  | cons p ps ih =>
    obtain ⟨x, y⟩ := p
    have hx := toNat_lt_radix x
    have hy := toNat_lt_radix y
    have h1 : (x.toNat + y.toNat + c) / radix ≤ 1 := by simp only [radix] at *; omega
    simp only [addLoop, mag_cons, List.map_cons, ih _ h1, BitVec.toNat_ofNat]
    simp only [radix] at *; omega

/-- `mag_add` is the sum (41 R140). -/
@[simp] theorem magAdd_mag (x y : Limbs) : mag (magAdd x y) = mag x + mag y := by
  unfold magAdd
  have hx := length_padTo (max x.length y.length) x (by omega)
  have hy := length_padTo (max x.length y.length) y (by omega)
  rw [addLoop_mag _ _ (by omega), List.map_fst_zip (by omega), List.map_snd_zip (by omega)]
  simp

/-! ### Comparison -/

/-- -1, 0 or +1 as `m < n`, `m = n` or `m > n`. -/
def natSign (m n : Nat) : Int := if m < n then -1 else if n < m then 1 else 0

theorem natSign_lt {m n : Nat} (h : m < n) : natSign m n = -1 := if_pos h
theorem natSign_gt {m n : Nat} (h : n < m) : natSign m n = 1 := by unfold natSign; rw [if_neg (by omega), if_pos h]
@[simp] theorem natSign_self (m : Nat) : natSign m m = 0 := by simp [natSign]

theorem natSign_neg (m n : Nat) : -natSign m n = natSign n m := by
  unfold natSign; split <;> split <;> omega

theorem cmpTop_append (ps qs : List (Word × Word)) :
    cmpTop (ps ++ qs) = if cmpTop ps = 0 then cmpTop qs else cmpTop ps := by
  induction ps with
  | nil => simp [cmpTop]
  | cons p ps ih =>
    obtain ⟨x, y⟩ := p
    simp only [List.cons_append, cmpTop, ih]
    split
    · simp
    · split <;> simp

/-- Limbs compared from the top compare the magnitudes (41 R141). -/
theorem cmpTop_zip (x y : Limbs) (h : x.length = y.length) : cmpTop (x.zip y).reverse = natSign (mag x) (mag y) := by
  induction x generalizing y with
  | nil => cases y with
    | nil => rfl
    | cons => simp at h
  | cons w ws ih => cases y with
    | nil => simp at h
    | cons v vs =>
      have hw := toNat_lt_radix w
      have hv := toNat_lt_radix v
      rw [List.zip_cons_cons, List.reverse_cons, cmpTop_append, ih vs (by simpa using h)]
      simp only [radix] at hw hv
      rcases lt_trichotomy (mag ws) (mag vs) with h1 | h1 | h1
      · rw [natSign_lt h1, if_neg (by norm_num), natSign_lt]
        simp only [mag_cons, radix]; omega
      · rw [h1, natSign_self, if_pos rfl]
        simp only [cmpTop, natSign, mag_cons, radix, h1]
        split_ifs <;> omega
      · rw [natSign_gt h1, if_neg (by norm_num), natSign_gt]
        simp only [mag_cons, radix]; omega

/-- `mag_cmp` of normalized magnitudes is the sign of their difference (41 R141). -/
theorem magCmp_eq (x y : Limbs) (hx : LimbsNormal x) (hy : LimbsNormal y) : magCmp x y = natSign (mag x) (mag y) := by
  have shorter : ∀ {u v : Limbs}, LimbsNormal u → LimbsNormal v → u.length < v.length → mag u < mag v := by
    intro u v hu hv hl
    have h0 : mag v ≠ 0 := by
      intro h0
      have := hu.length_pos
      rw [hv.eq_of_mag_zero h0] at hl
      rw [List.length_singleton] at hl; omega
    have h1 := mag_lt u
    have h2 := hv.mag_ge h0
    have h3 : radix ^ u.length ≤ radix ^ (v.length - 1) := Nat.pow_le_pow_right (by norm_num [radix]) (by omega)
    omega
  unfold magCmp
  split
  · have := shorter hx hy ‹_›
    simp [natSign, this]
  · split
    · have := shorter hy hx ‹_›
      simp [natSign, this]; omega
    · exact cmpTop_zip x y (by omega)

/-! ### Subtraction -/

/-- The borrow chain subtracts modulo the length (41 R142). -/
theorem subLoop_mag (ps : List (Word × Word)) (b : Int) (hb : b = 0 ∨ b = 1) :
    (mag (subLoop ps b) : Int) =
      ((mag (ps.map Prod.fst) : Int) - mag (ps.map Prod.snd) - b) % (4294967296 : Int) ^ ps.length := by
  induction ps generalizing b with
  | nil => simp [subLoop]
  | cons p ps ih =>
    obtain ⟨x, y⟩ := p
    have hx := toNat_lt_radix x
    have hy := toNat_lt_radix y
    have key : ∀ (d b' : Int), (b' = 0 ∨ b' = 1) → 0 ≤ d → d < 4294967296 → (x.toNat : Int) - y.toNat - b = d - 4294967296 * b' →
        ((mag (BitVec.ofInt 32 d :: subLoop ps b') : Nat) : Int) =
          ((mag (x :: ps.map Prod.fst) : Int) - mag (y :: ps.map Prod.snd) - b) % (4294967296 : Int) ^ (ps.length + 1) := by
      intro d b' hb' h0 h1 h2
      have hd : ((BitVec.ofInt 32 d).toNat : Int) = d := by
        rw [BitVec.toNat_ofInt]
        rw [Int.toNat_of_nonneg (Int.emod_nonneg _ (by norm_num))]
        exact Int.emod_eq_of_lt h0 (by simpa using h1)
      set M := ((mag (ps.map Prod.fst) : Int) - mag (ps.map Prod.snd) - b') with hM
      have e : (mag (x :: ps.map Prod.fst) : Int) - mag (y :: ps.map Prod.snd) - b = d + 4294967296 * M := by
        simp only [mag_cons]; push_cast; rw [hM]; linear_combination h2
      rw [e, mag_cons]
      push_cast
      rw [hd, ih b' hb', ← hM]
      have hp : (0 : Int) < (4294967296 : Int) ^ ps.length := by positivity
      symm
      have m0 := Int.emod_nonneg M hp.ne'
      have m1 := Int.emod_lt_of_pos M hp
      have m2 := Int.emod_add_mul_ediv M ((4294967296 : Int) ^ ps.length)
      have : d + 4294967296 * M = (d + 4294967296 * (M % (4294967296 : Int) ^ ps.length)) + (4294967296 : Int) ^ (ps.length + 1) * (M / (4294967296 : Int) ^ ps.length) := by
        rw [pow_succ]; linear_combination (-4294967296 : Int) * m2
      rw [this, Int.add_mul_emod_self_left]
      apply Int.emod_eq_of_lt
      · positivity
      · rw [pow_succ]; nlinarith
    simp only [subLoop, List.map_cons, List.length_cons]
    simp only [radix] at hx hy
    split
    · exact key _ 1 (Or.inr rfl) (by omega) (by omega) (by ring)
    · exact key _ 0 (Or.inl rfl) (by omega) (by omega) (by ring)

/-- `mag_sub` is the difference when it is not negative (41 R142). -/
theorem magSub_mag (x y : Limbs) (hy : y.length ≤ x.length) (h : mag y ≤ mag x) : mag (magSub x y) = mag x - mag y := by
  have hl := length_padTo x.length y hy
  have h1 := subLoop_mag (x.zip (padTo x.length y)) 0 (Or.inl rfl)
  rw [List.map_fst_zip (by omega), List.map_snd_zip (by omega), mag_padTo, List.length_zip, hl, Nat.min_self] at h1
  have h2 := mag_lt x
  rw [Int.emod_eq_of_lt (by omega) (by
    have h3 : (mag x : Int) < ((radix ^ x.length : Nat) : Int) := by exact_mod_cast h2
    rw [Nat.cast_pow] at h3
    have h4 : ((radix : Nat) : Int) = 4294967296 := rfl
    rw [h4] at h3; omega)] at h1
  unfold magSub
  rw [mag_strip]; omega

theorem LimbsNormal.length_le {x y : Limbs} (hx : LimbsNormal x) (hy : LimbsNormal y) (h : mag y ≤ mag x) :
    y.length ≤ x.length := by
  rw [hx.length_eq, hy.length_eq]
  have : bitlength (mag y) ≤ bitlength (mag x) :=
    (bitlength_le_iff _ _).2 (lt_of_le_of_lt h (lt_two_pow_bitlength _))
  omega

/-- `msub` is the signed difference (41 R143). -/
theorem msub_val (x y : Limbs) (hx : LimbsNormal x) (hy : LimbsNormal y) :
    (if (msub x y).1 then -(mag (msub x y).2 : Int) else mag (msub x y).2) = (mag x : Int) - mag y := by
  unfold msub
  rw [magCmp_eq x y hx hy]
  by_cases h : mag x < mag y
  · have := magSub_mag y x (hy.length_le hx h.le) h.le
    have e : natSign (mag x) (mag y) = -1 := if_pos h
    rw [e, if_pos (by norm_num)]
    simp only [show (-1 : Int) < 0 from by norm_num, if_true, this]; omega
  · have := magSub_mag x y (hx.length_le hy (by omega)) (by omega)
    have e : ¬ natSign (mag x) (mag y) < 0 := by unfold natSign; split_ifs <;> omega
    rw [if_neg e]
    simp only [Bool.false_eq_true, if_false, this]; omega

/-- `add` is the sum (41 R143). -/
theorem add_val (a b : BigInt) (ha : a.Normal) (hb : b.Normal) : (BigInt.add a b).val = a.val + b.val := by
  unfold BigInt.add
  have h1 := msub_val a.limbs b.limbs ha.1 hb.1
  have h2 := msub_val b.limbs a.limbs hb.1 ha.1
  cases hsa : a.sign <;> cases hsb : b.sign <;>
    simp only [BigInt.val_eq a, BigInt.val_eq b, norm_val, hsa, hsb, magAdd_mag, h1, h2, if_true, if_false, Bool.not_false, Bool.not_true,
      Bool.false_eq_true, reduceCtorEq] <;> push_cast <;> ring

theorem add_normal (a b : BigInt) : (BigInt.add a b).Normal := by
  unfold BigInt.add; split_ifs <;> exact norm_normal _ _

theorem BigInt.Normal.abs {b : BigInt} (hb : b.Normal) : ({ b with sign := false } : BigInt).Normal :=
  ⟨hb.1, fun h => absurd h (by simp)⟩

/-- `sub` is the difference (41 R143). -/
theorem sub_val (a b : BigInt) (ha : a.Normal) (hb : b.Normal) : (BigInt.sub a b).val = a.val - b.val := by
  unfold BigInt.sub
  have h1 := msub_val a.limbs b.limbs ha.1 hb.1
  have h3 : (BigInt.add a { b with sign := false }).val = a.val + mag b.limbs :=
    (add_val a { b with sign := false } ha hb.abs).trans rfl
  cases hsa : a.sign <;> cases hsb : b.sign <;>
    simp only [BigInt.val_eq a, BigInt.val_eq b, norm_val, hsa, hsb, magAdd_mag, h1, h3, if_true, if_false, Bool.not_false, Bool.not_true,
      Bool.false_eq_true] <;> push_cast <;> ring

theorem sub_normal (a b : BigInt) : (BigInt.sub a b).Normal := by
  unfold BigInt.sub; split_ifs <;> first | exact norm_normal _ _ | exact add_normal _ _

end Sys2Proof
end

