-- ==== Sys2Proof/Laws/Decode.lean ====
section
/-! SUPPORT. The fields of an assembled command word, and what the masks of the formats leave of it (30_encoding.md rules
R91, R92). -/

namespace Sys2Proof

variable (op : BitVec 8) (rd ra rb rc : BigReg)

theorem assemble_toNat : (assemble op rd ra rb rc).toNat =
    op.toNat + 256 * rd.val + 4096 * ra.val + 65536 * rb.val + 1048576 * rc.val := by
  have h1 := op.isLt
  have h2 := rd.isLt
  have h3 := ra.isLt
  have h4 := rb.isLt
  have h5 := rc.isLt
  unfold assemble
  simp only [BitVec.toNat_append, BitVec.toNat_ofFin, BitVec.toNat_ofNat]
  rw [← Nat.shiftLeft_add_eq_or_of_lt (by omega), ← Nat.shiftLeft_add_eq_or_of_lt (by omega),
    ← Nat.shiftLeft_add_eq_or_of_lt (by omega), ← Nat.shiftLeft_add_eq_or_of_lt (by omega),
    ← Nat.shiftLeft_add_eq_or_of_lt (by omega)]
  simp only [Nat.shiftLeft_eq]
  omega

theorem toNat_extractLsb' (w : Word) (a n : Nat) : (w.extractLsb' a n).toNat = w.toNat / 2 ^ a % 2 ^ n := by
  rw [BitVec.extractLsb'_toNat, Nat.shiftRight_eq_div_pow]

@[simp] theorem opcodeField_assemble : opcodeField (assemble op rd ra rb rc) = op := by
  have h1 := op.isLt
  apply BitVec.eq_of_toNat_eq
  rw [opcodeField, toNat_extractLsb', assemble_toNat]
  omega

@[simp] theorem zeroField_assemble : zeroField (assemble op rd ra rb rc) = 0 := by
  have h1 := op.isLt
  apply BitVec.eq_of_toNat_eq
  rw [zeroField, toNat_extractLsb', assemble_toNat]
  simp; omega

@[simp] theorem rdField_assemble : rdField (assemble op rd ra rb rc) = rd := by
  have h1 := op.isLt
  apply Fin.ext
  change ((assemble op rd ra rb rc).extractLsb' 8 4).toNat = rd.val
  rw [toNat_extractLsb', assemble_toNat]
  omega

@[simp] theorem raField_assemble : raField (assemble op rd ra rb rc) = ra := by
  have h1 := op.isLt
  apply Fin.ext
  change ((assemble op rd ra rb rc).extractLsb' 12 4).toNat = ra.val
  rw [toNat_extractLsb', assemble_toNat]
  omega

@[simp] theorem rbField_assemble : rbField (assemble op rd ra rb rc) = rb := by
  have h1 := op.isLt
  apply Fin.ext
  change ((assemble op rd ra rb rc).extractLsb' 16 4).toNat = rb.val
  rw [toNat_extractLsb', assemble_toNat]
  omega

@[simp] theorem rcField_assemble : rcField (assemble op rd ra rb rc) = rc := by
  have h1 := op.isLt
  apply Fin.ext
  change ((assemble op rd ra rb rc).extractLsb' 20 4).toNat = rc.val
  rw [toNat_extractLsb', assemble_toNat]
  omega

/-- A word is its fields (30 R91). -/
theorem assemble_fields (c : Word) (h : zeroField c = 0) :
    assemble (opcodeField c) (rdField c) (raField c) (rbField c) (rcField c) = c := by
  apply BitVec.eq_of_toNat_eq
  rw [assemble_toNat]
  have h0 : c.toNat / 2 ^ 24 % 2 ^ 8 = 0 := by
    have := congrArg BitVec.toNat h
    rwa [zeroField, toNat_extractLsb'] at this
  have e0 : (opcodeField c).toNat = c.toNat / 2 ^ 0 % 2 ^ 8 := toNat_extractLsb' c 0 8
  have e1 : (rdField c).val = c.toNat / 2 ^ 8 % 2 ^ 4 := toNat_extractLsb' c 8 4
  have e2 : (raField c).val = c.toNat / 2 ^ 12 % 2 ^ 4 := toNat_extractLsb' c 12 4
  have e3 : (rbField c).val = c.toNat / 2 ^ 16 % 2 ^ 4 := toNat_extractLsb' c 16 4
  have e4 : (rcField c).val = c.toNat / 2 ^ 20 % 2 ^ 4 := toNat_extractLsb' c 20 4
  have := c.isLt
  rw [e0, e1, e2, e3, e4]
  omega

/-! ### The masks -/

/-- A masked comparison with the opcode forces every masked bit above it to 0. -/
theorem extract_eq_zero_of_mask (c mask : Word) (lo n : Nat) (h : c &&& mask = (opcodeField c).setWidth 32)
    (hm : ∀ k, k < n → mask.getLsbD (lo + k) = true) (hlo : 8 ≤ lo) : c.extractLsb' lo n = 0 := by
  apply BitVec.eq_of_getLsbD_eq
  intro k hk
  have h1 := congrArg (fun w : Word => w.getLsbD (lo + k)) h
  simp only [BitVec.getLsbD_and, hm k hk, Bool.and_true, BitVec.getLsbD_setWidth] at h1
  simp [hk, h1, BitVec.getLsbD_of_ge (opcodeField c) (lo + k) (by omega)]

theorem raField_eq_zero {c : Word} (h : c.extractLsb' 12 4 = 0) : raField c = 0 := by rw [raField, h]; rfl
theorem rdField_eq_zero {c : Word} (h : c.extractLsb' 8 4 = 0) : rdField c = 0 := by rw [rdField, h]; rfl
theorem rbField_eq_zero {c : Word} (h : c.extractLsb' 16 4 = 0) : rbField c = 0 := by rw [rbField, h]; rfl
theorem rcField_eq_zero {c : Word} (h : c.extractLsb' 20 4 = 0) : rcField c = 0 := by rw [rcField, h]; rfl

/-- The fields that a format does not use are 0 (30 R92). -/
def Format.unusedZero (rd ra rb rc : BigReg) : Format → Prop
  | .fmtD => ra = 0 ∧ rb = 0 ∧ rc = 0
  | .fmtA => rd = 0 ∧ rb = 0 ∧ rc = 0
  | .fmtDA => rb = 0 ∧ rc = 0
  | .fmtAB => rd = 0 ∧ rc = 0
  | .fmtDAB => rc = 0
  | .fmtDABC => True

/-- The mask of a format keeps exactly the opcode of a word whose unused fields are 0 (30 R92). -/
theorem assemble_mask (op : BitVec 8) (rd ra rb rc : BigReg) (f : Format) (h : f.unusedZero rd ra rb rc) :
    assemble op rd ra rb rc &&& f.mask = op.setWidth 32 := by
  cases f <;> simp only [Format.unusedZero] at h <;> obtain ⟨rfl, rfl, rfl⟩ := h <;>
    unfold assemble Format.mask <;> apply BitVec.eq_of_getLsbD_eq <;> intro i hi <;>
    simp only [BitVec.getLsbD_and, BitVec.getLsbD_append, BitVec.getLsbD_setWidth] <;>
    interval_cases i <;> simp

/-- The decoder's test of a format (30 R95): the unused fields are 0. -/
theorem mask_eq_iff (c : Word) (f : Format) (hz : zeroField c = 0) :
    c &&& f.mask = (opcodeField c).setWidth 32 ↔ f.unusedZero (rdField c) (raField c) (rbField c) (rcField c) := by
  constructor
  · intro h
    have hd : ∀ lo, 8 ≤ lo → (∀ k, k < 4 → f.mask.getLsbD (lo + k) = true) → c.extractLsb' lo 4 = 0 :=
      fun lo h8 hm => extract_eq_zero_of_mask c _ lo 4 h hm h8
    cases f with
    | fmtD => exact ⟨raField_eq_zero (hd 12 (by norm_num) (by decide)), rbField_eq_zero (hd 16 (by norm_num) (by decide)),
        rcField_eq_zero (hd 20 (by norm_num) (by decide))⟩
    | fmtA => exact ⟨rdField_eq_zero (hd 8 (by norm_num) (by decide)), rbField_eq_zero (hd 16 (by norm_num) (by decide)),
        rcField_eq_zero (hd 20 (by norm_num) (by decide))⟩
    | fmtDA => exact ⟨rbField_eq_zero (hd 16 (by norm_num) (by decide)), rcField_eq_zero (hd 20 (by norm_num) (by decide))⟩
    | fmtAB => exact ⟨rdField_eq_zero (hd 8 (by norm_num) (by decide)), rcField_eq_zero (hd 20 (by norm_num) (by decide))⟩
    | fmtDAB => exact rcField_eq_zero (hd 20 (by norm_num) (by decide))
    | fmtDABC => exact trivial
  · intro h
    have := assemble_mask (opcodeField c) _ _ _ _ f h
    rwa [assemble_fields c hz] at this

end Sys2Proof
end

