-- ==== Sys2Proof/Laws/Multiply.lean ====
section
/-! SUPPORT. The multiplier computes products (42_multiply.md): one lemma per primitive. -/

namespace Sys2Proof

/-- A sequence splits into its lowest limb and the rest; the empty one too. -/
theorem mag_head_tail (x : Limbs) : mag x = (limbAt x 0).toNat + radix * mag x.tail := by
  cases x with
  | nil => simp [limbAt]
  | cons w ws => simp [limbAt, mag_cons]

theorem toNat_ofNat_add_div (n : Nat) : (BitVec.ofNat 32 n).toNat + radix * (n / radix) = n := by
  rw [BitVec.toNat_ofNat]; simp only [radix]; omega

/-- Folding a carry adds it (42 R161). -/
theorem foldCarry_mag (zs : Limbs) (c : Nat) (hc : c < radix) : mag (foldCarry zs c) = mag zs + c := by
  induction zs generalizing c with
  | nil =>
    unfold foldCarry
    split
    · simp only [mag_singleton, BitVec.toNat_ofNat, mag_nil, radix] at *; omega
    · simp; omega
  | cons z zs ih =>
    have hz := toNat_lt_radix z
    unfold foldCarry
    split
    · omega
    · have := toNat_ofNat_add_div (z.toNat + c)
      simp only [mag_cons]
      rw [ih _ (by simp only [radix] at *; omega)]
      simp only [radix] at *; omega

/-- One row adds `x * y` (42 R160). -/
theorem mulRow_mag (x : Nat) (hx : x < radix) (ys zs : Limbs) (c : Nat) (hc : c < radix) :
    mag (mulRow x ys zs c) = mag zs + x * mag ys + c := by
  induction ys generalizing zs c with
  | nil => simp [mulRow, foldCarry_mag _ _ hc]
  | cons y ys ih =>
    have hy := toNat_lt_radix y
    have hz := toNat_lt_radix (limbAt zs 0)
    have hb : x * y.toNat ≤ (radix - 1) * (radix - 1) := Nat.mul_le_mul (by omega) (by omega)
    simp only [mulRow, mag_cons]
    generalize hacc : x * y.toNat + (limbAt zs 0).toNat + c = acc
    have hd : acc / radix < radix := by
      apply Nat.div_lt_of_lt_mul
      simp only [radix] at *; omega
    rw [ih _ _ hd, mag_head_tail zs]
    have := toNat_ofNat_add_div acc
    rw [← hacc] at this ⊢
    linear_combination this

/-- The rows add `x * y` (42 R160). -/
theorem mulRows_mag (xs y zs : Limbs) : mag (mulRows xs y zs) = mag zs + mag xs * mag y := by
  induction xs generalizing zs with
  | nil => simp [mulRows]
  | cons x xs ih =>
    have h1 := mulRow_mag x.toNat (toNat_lt_radix x) y zs 0 (by norm_num [radix])
    have h2 := mag_head_tail (mulRow x.toNat y zs 0)
    simp only [mulRows, mag_cons, ih]
    linear_combination h1 - h2

/-- `mag_mul` is the product (42 R160). -/
@[simp] theorem magMul_mag (x y : Limbs) : mag (magMul x y) = mag x * mag y := by
  simp [magMul, mulRows_mag]

/-- `mul` is the product (42 R162). -/
theorem mul_val (a b : BigInt) : (BigInt.mul a b).val = a.val * b.val := by
  unfold BigInt.mul
  cases hsa : a.sign <;> cases hsb : b.sign <;>
    simp [BigInt.val_eq a, BigInt.val_eq b, norm_val, hsa, hsb]

theorem mul_normal (a b : BigInt) : (BigInt.mul a b).Normal := norm_normal _ _

theorem muladdLoop_mag (m : Nat) (hm : m < radix) (xs : Limbs) (c : Nat) (hc : c < radix) :
    mag (muladdLoop m xs c) = mag xs * m + c := by
  induction xs generalizing c with
  | nil =>
    unfold muladdLoop
    split
    · simp only [mag_singleton, BitVec.toNat_ofNat, mag_nil, radix] at *; omega
    · simp; omega
  | cons x xs ih =>
    have hx := toNat_lt_radix x
    have hb : x.toNat * m ≤ (radix - 1) * (radix - 1) := Nat.mul_le_mul (by omega) (by omega)
    simp only [muladdLoop, mag_cons]
    generalize hacc : x.toNat * m + c = acc
    have hd : acc / radix < radix := by
      apply Nat.div_lt_of_lt_mul
      simp only [radix] at *; omega
    rw [ih _ hd]
    have := toNat_ofNat_add_div acc
    rw [← hacc] at this ⊢
    linear_combination this

/-- `mag_muladd` is `x * m + c` (42 R164). -/
@[simp] theorem magMuladd_mag (x : Limbs) (m c : Word) : mag (magMuladd x m c) = mag x * m.toNat + c.toNat := by
  rw [magMuladd, mag_strip, muladdLoop_mag _ (toNat_lt_radix m) _ _ (toNat_lt_radix c)]

end Sys2Proof
end

