-- ==== Sys2Proof/Laws/Shift.lean ====
section
/-! SUPPORT. The magnitude shifts multiply and divide by powers of two (44_shift_compare.md rules R210, R211). -/

namespace Sys2Proof

theorem two_pow_split (r : Nat) (hr : r ≤ 32) : radix = 2 ^ r * 2 ^ (32 - r) := by
  rw [← pow_add, radix_eq]; congr 1; omega

/-- One limb of a left shift. -/
theorem shl_limb (x lower : Word) (r : Nat) (hr : r < 32) :
    ((x <<< r) ||| (lower >>> (32 - r))).toNat + radix * (x.toNat / 2 ^ (32 - r)) =
      x.toNat * 2 ^ r + lower.toNat / 2 ^ (32 - r) := by
  have hs := two_pow_split r hr.le
  have hl : lower.toNat / 2 ^ (32 - r) < 2 ^ r := by
    apply Nat.div_lt_of_lt_mul
    have := toNat_lt_radix lower
    rw [hs] at this; rwa [mul_comm] at this
  have e1 : (x <<< r).toNat = 2 ^ r * (x.toNat % 2 ^ (32 - r)) := by
    rw [BitVec.toNat_shiftLeft, Nat.shiftLeft_eq, show (2 : Nat) ^ 32 = 2 ^ r * 2 ^ (32 - r) by rw [← hs, radix_eq],
      mul_comm x.toNat, Nat.mul_mod_mul_left]
  rw [BitVec.toNat_or, e1, BitVec.toNat_ushiftRight, Nat.shiftRight_eq_div_pow, ← Nat.two_pow_add_eq_or_of_lt hl]
  have := Nat.mod_add_div x.toNat (2 ^ (32 - r))
  rw [hs]
  calc 2 ^ r * (x.toNat % 2 ^ (32 - r)) + lower.toNat / 2 ^ (32 - r) + 2 ^ r * 2 ^ (32 - r) * (x.toNat / 2 ^ (32 - r))
      = 2 ^ r * (x.toNat % 2 ^ (32 - r) + 2 ^ (32 - r) * (x.toNat / 2 ^ (32 - r))) + lower.toNat / 2 ^ (32 - r) := by ring
    _ = _ := by rw [this, mul_comm]

@[simp] theorem length_shlLoop (r : Nat) (xs : Limbs) (lower : Word) : (shlLoop r xs lower).length = xs.length := by
  induction xs generalizing lower with
  | nil => rfl
  | cons x xs ih => simp [shlLoop, ih]

/-- The bit shift of limbs multiplies, but for what is pushed out at the top (44 R210). -/
theorem shlLoop_mag_out (r : Nat) (hr : r < 32) (xs : Limbs) (lower : Word) :
    ∃ out, mag (shlLoop r xs lower) + radix ^ xs.length * out = mag xs * 2 ^ r + lower.toNat / 2 ^ (32 - r) := by
  induction xs generalizing lower with
  | nil => exact ⟨lower.toNat / 2 ^ (32 - r), by simp [shlLoop]⟩
  | cons x xs ih =>
    obtain ⟨out, h⟩ := ih x
    refine ⟨out, ?_⟩
    have := shl_limb x lower r hr
    simp only [shlLoop, mag_cons, List.length_cons, pow_succ]
    linear_combination this + radix * h

/-- With nothing pushed out, the bit shift of limbs multiplies by `2^r` (44 R210). -/
theorem shlLoop_mag (r : Nat) (hr : r < 32) (xs : Limbs) (h : mag xs * 2 ^ r < radix ^ xs.length) :
    mag (shlLoop r xs 0) = mag xs * 2 ^ r := by
  obtain ⟨out, ho⟩ := shlLoop_mag_out r hr xs 0
  simp only [BitVec.ofNat_eq_ofNat, BitVec.toNat_ofNat, Nat.zero_mod, Nat.zero_div, add_zero] at ho ⊢
  rcases Nat.eq_zero_or_pos out with h0 | h0
  · simpa [h0] using ho
  · have : radix ^ xs.length ≤ radix ^ xs.length * out := Nat.le_mul_of_pos_right _ h0
    omega

/-- One limb of a right shift. -/
theorem shr_limb (x next : Word) (r : Nat) (hr : r < 32) :
    ((x >>> r) ||| (next <<< (32 - r))).toNat = x.toNat / 2 ^ r + 2 ^ (32 - r) * (next.toNat % 2 ^ r) := by
  have hs := two_pow_split r hr.le
  have hl : x.toNat / 2 ^ r < 2 ^ (32 - r) := by
    apply Nat.div_lt_of_lt_mul
    have := toNat_lt_radix x
    rwa [hs] at this
  have e1 : (next <<< (32 - r)).toNat = 2 ^ (32 - r) * (next.toNat % 2 ^ r) := by
    rw [BitVec.toNat_shiftLeft, Nat.shiftLeft_eq,
      show (2 : Nat) ^ 32 = 2 ^ (32 - r) * 2 ^ r by rw [mul_comm, ← hs, radix_eq], mul_comm next.toNat,
      Nat.mul_mod_mul_left]
  rw [BitVec.toNat_or, e1, BitVec.toNat_ushiftRight, Nat.shiftRight_eq_div_pow, Nat.or_comm,
    ← Nat.two_pow_add_eq_or_of_lt hl, add_comm]

/-- The bit shift of limbs divides by `2^r` (44 R211). -/
theorem shrLoop_mag (r : Nat) (hr : r < 32) (xs : Limbs) : mag (shrLoop r xs) = mag xs / 2 ^ r := by
  induction xs with
  | nil => simp [shrLoop]
  | cons x xs ih =>
    have hs := two_pow_split r hr.le
    have hp : 0 < 2 ^ r := by positivity
    have e0 : mag xs % 2 ^ r = (limbAt xs 0).toNat % 2 ^ r := by
      rw [mag_head_tail xs, hs, mul_assoc, Nat.add_mul_mod_self_left]
    have e1 : (x.toNat + radix * mag xs) / 2 ^ r = x.toNat / 2 ^ r + 2 ^ (32 - r) * mag xs := by
      rw [hs, mul_assoc, Nat.add_mul_div_left _ _ hp]
    have e2 := Nat.mod_add_div (mag xs) (2 ^ r)
    simp only [shrLoop, mag_cons, shr_limb x _ r hr, ih, e1, ← e0]
    have : radix * (mag xs / 2 ^ r) + 2 ^ (32 - r) * (mag xs % 2 ^ r) = 2 ^ (32 - r) * mag xs := by
      conv_rhs => rw [← e2]
      rw [hs]; ring
    omega

/-- The magnitude is bounded by the bit length of its top limb. -/
theorem mag_lt_top (x : Limbs) (h : x ≠ []) :
    mag x < 2 ^ (32 * x.length - clz32 (limbAt x (x.length - 1))) := by
  have hl := List.length_pos_iff.2 h
  obtain ⟨n, hn⟩ : ∃ n, x.length = n + 1 := ⟨x.length - 1, by omega⟩
  rw [hn, Nat.add_sub_cancel, mag_top x n hn]
  have h1 := mag_lt (x.take n)
  rw [List.length_take, Nat.min_eq_left (by omega), radix_pow] at h1
  have h2 := lt_two_pow_bitlength (limbAt x n).toNat
  have h3 := bitlength_word (limbAt x n)
  have h4 : 32 * (n + 1) - clz32 (limbAt x n) = 32 * n + bitlength (limbAt x n).toNat := by omega
  rw [h4, pow_add, radix_pow]
  nlinarith

/-- `mag_shl` multiplies by `2^k` (44 R210). -/
theorem magShl_mag (x : Limbs) (k : Nat) (hx : LimbsNormal x) : mag (magShl x k) = mag x * 2 ^ k := by
  unfold magShl
  by_cases h0 : mag x = 0
  · simp [h0]
  · rw [if_neg h0]
    have hk : 2 ^ k = radix ^ (k / 32) * 2 ^ (k % 32) := by
      rw [radix_pow, ← pow_add, Nat.div_add_mod]
    have hr : k % 32 < 32 := Nat.mod_lt _ (by norm_num)
    simp only [mag_append, BitVec.ofNat_eq_ofNat, mag_replicate_zero, List.length_replicate, zero_add, hk]
    rw [← mul_assoc, mul_comm (mag x), mul_assoc]
    congr 1
    by_cases h1 : 0 < k % 32
    · rw [if_pos h1]
      split
      · have e : mag (x ++ [0#32]) = mag x := by simp [mag_append]
        have : mag (shlLoop (k % 32) (x ++ [0#32]) 0) = mag (x ++ [0#32]) * 2 ^ (k % 32) := by
          apply shlLoop_mag _ hr
          rw [e, List.length_append, List.length_singleton, pow_succ]
          exact Nat.mul_lt_mul_of_lt_of_le (mag_lt x)
            (by rw [radix_eq]; exact Nat.pow_le_pow_right (by norm_num) hr.le) (by positivity)
        rw [e] at this; exact this
      · apply shlLoop_mag _ hr
        have h2 := mag_lt_top x hx.1
        have h3 := clz32_le (limbAt x (x.length - 1))
        have h4 := hx.length_pos
        calc mag x * 2 ^ (k % 32) < 2 ^ (32 * x.length - clz32 (limbAt x (x.length - 1))) * 2 ^ (k % 32) :=
              Nat.mul_lt_mul_of_pos_right h2 (by positivity)
          _ ≤ radix ^ x.length := by
              rw [← pow_add, radix_pow]
              exact Nat.pow_le_pow_right (by norm_num) (by omega)
    · have : k % 32 = 0 := by omega
      simp [this]

theorem mag_drop (x : Limbs) (q : Nat) (h : q ≤ x.length) : mag (x.drop q) = mag x / radix ^ q := by
  have h1 := mag_take_drop x q h
  have h2 := mag_lt (x.take q)
  rw [List.length_take, Nat.min_eq_left h] at h2
  rw [h1, Nat.add_mul_div_left _ _ (by positivity), Nat.div_eq_of_lt h2, zero_add]

/-- `mag_shr` divides by `2^k` (44 R211). -/
theorem magShr_mag (x : Limbs) (k : Nat) : mag (magShr x k) = mag x / 2 ^ k := by
  unfold magShr
  by_cases h0 : bitlength (mag x) ≤ k
  · rw [if_pos h0, mag_singleton, Nat.div_eq_of_lt ((bitlength_le_iff _ _).1 h0)]; rfl
  · rw [if_neg h0]
    have hk : 2 ^ k = radix ^ (k / 32) * 2 ^ (k % 32) := by
      rw [radix_pow, ← pow_add, Nat.div_add_mod]
    have hr : k % 32 < 32 := Nat.mod_lt _ (by norm_num)
    have hl : bitlength (mag x) ≤ 32 * x.length := by
      rw [bitlength_le_iff, ← radix_pow]; exact mag_lt x
    rw [mag_strip, hk, ← Nat.div_div_eq_div_mul, ← mag_drop x (k / 32) (by omega)]
    split
    · exact shrLoop_mag _ hr _
    · have : k % 32 = 0 := by omega
      simp [this]

end Sys2Proof
end

