-- ==== Sys2Proof/Laws/Divide.lean ====
section
/-! SUPPORT. The divider meets its contract (43_divide.md rule R191): Knuth's Algorithm D with the q-hat correction and
the add-back step computes the floor quotient and its remainder. -/

namespace Sys2Proof

/-- The single-limb loop divides (43 R181). -/
theorem divSmallLoop_spec (d : Nat) (hd : 0 < d) (_hd2 : d < radix) (xs : Limbs) (rem : Nat) (q : Limbs) (hr : rem < d) :
    mag (divSmallLoop d xs rem q).1 = (rem * radix ^ xs.length + mag xs.reverse) / d + radix ^ xs.length * mag q ∧
      (divSmallLoop d xs rem q).2 = (rem * radix ^ xs.length + mag xs.reverse) % d := by
  induction xs generalizing rem q with
  | nil => simp [divSmallLoop, Nat.div_eq_of_lt hr, Nat.mod_eq_of_lt hr]
  | cons x xs ih =>
    have hx := toNat_lt_radix x
    have hcur : rem * radix + x.toNat < d * radix := by
      have : (rem + 1) * radix ≤ d * radix := Nat.mul_le_mul_right _ hr
      rw [add_mul, one_mul] at this; omega
    generalize hc : rem * radix + x.toNat = cur at hcur
    have hq : cur / d < radix := Nat.div_lt_of_lt_mul hcur
    have e : rem * radix ^ (x :: xs).length + mag (x :: xs).reverse =
        (cur % d * radix ^ xs.length + mag xs.reverse) + d * (cur / d * radix ^ xs.length) := by
      have h1 := Nat.mod_add_div cur d
      rw [List.reverse_cons, mag_append, List.length_cons, pow_succ, List.length_reverse, mag_singleton]
      rw [← hc] at h1 ⊢
      linear_combination radix ^ xs.length * h1.symm
    obtain ⟨h1, h2⟩ := ih (cur % d) (BitVec.ofNat 32 (cur / d) :: q) (Nat.mod_lt _ hd)
    have h3 : (BitVec.ofNat 32 (cur / d)).toNat = cur / d := by
      rw [BitVec.toNat_ofNat]; exact Nat.mod_eq_of_lt hq
    simp only [divSmallLoop, hc, h1, h2, e, Nat.add_mul_div_left _ _ hd, Nat.add_mul_mod_self_left, mag_cons, h3]
    refine ⟨?_, trivial⟩
    rw [List.length_cons, pow_succ]; ring

theorem divSmall_spec (x : Limbs) (d : Word) (hd : 0 < d.toNat) :
    mag (divSmall x d).1 = mag x / d.toNat ∧ mag (divSmall x d).2 = mag x % d.toNat := by
  obtain ⟨h1, h2⟩ := divSmallLoop_spec d.toNat hd (toNat_lt_radix d) x.reverse 0 [] hd
  simp only [zero_mul, zero_add, List.reverse_reverse, mag_nil, mul_zero, add_zero] at h1 h2
  refine ⟨by simp only [divSmall, mag_strip, h1], ?_⟩
  simp only [divSmall, mag_singleton, h2, BitVec.toNat_ofNat]
  exact Nat.mod_eq_of_lt (lt_trans (Nat.mod_lt _ hd) d.isLt)

/-! ### The loops over the window -/

theorem length_mulSubLoop (qhat : Nat) (v us : Limbs) (k : Int) : (mulSubLoop qhat v us k).1.length = v.length + 1 := by
  induction v generalizing us k with
  | nil => rfl
  | cons y ys ih => simp [mulSubLoop, ih]

theorem length_addBackLoop (v us : Limbs) (c : Nat) : (addBackLoop v us c).length = v.length + 1 := by
  induction v generalizing us c with
  | nil => rfl
  | cons y ys ih => simp [addBackLoop, ih]

theorem toNat_ofInt_emod (t : Int) : ((BitVec.ofInt 32 t).toNat : Int) = t % 4294967296 := by
  rw [BitVec.toNat_ofInt, Int.toNat_of_nonneg (Int.emod_nonneg _ (by norm_num))]; rfl

/-- Splitting a residue: low limb and the rest. -/
theorem emod_limb (a M P : Int) (h0 : 0 ≤ a) (h1 : a < 4294967296) (hP : 0 < P) :
    (a + 4294967296 * M) % (4294967296 * P) = a + 4294967296 * (M % P) := by
  have m0 := Int.emod_nonneg M hP.ne'
  have m1 := Int.emod_lt_of_pos M hP
  have m2 := Int.emod_add_mul_ediv M P
  have : a + 4294967296 * M = (a + 4294967296 * (M % P)) + (4294967296 * P) * (M / P) := by
    linear_combination (-4294967296 : Int) * m2
  rw [this, Int.add_mul_emod_self_left]
  apply Int.emod_eq_of_lt
  · positivity
  · nlinarith

/-- Multiply and subtract, at the level of values: the window modulo its length, and the sign (43 R187). -/
theorem mulSubLoop_spec (qhat : Nat) (v us : Limbs) (k : Int) (h : us.length = v.length + 1) :
    (mag (mulSubLoop qhat v us k).1 : Int) =
        ((mag us : Int) - qhat * mag v - k) % (4294967296 : Int) ^ (v.length + 1) ∧
      (mulSubLoop qhat v us k).2 = decide ((mag us : Int) - qhat * mag v - k < 0) := by
  induction v generalizing us k with
  | nil =>
    obtain ⟨u, rfl⟩ := List.length_eq_one_iff.1 h
    simp only [mulSubLoop, limbAt_cons_zero, mag_singleton, toNat_ofInt_emod, mag_nil, List.length_nil]
    simp
  | cons y ys ih =>
    cases us with
    | nil => simp at h
    | cons u us =>
      have h' : us.length = ys.length + 1 := by simpa using h
      generalize hp : qhat * y.toNat = p
      generalize ht : ((u.toNat : Int) - k - ((p % radix : Nat) : Int)) = t
      obtain ⟨i1, i2⟩ := ih us (((p / radix : Nat) : Int) - t / 4294967296) h'
      have hpd : ((p % radix : Nat) : Int) + 4294967296 * ((p / radix : Nat) : Int) = (p : Int) := by
        have := Nat.mod_add_div p radix
        exact_mod_cast this
      have htd := Int.emod_add_mul_ediv t 4294967296
      have e : (mag (u :: us) : Int) - qhat * mag (y :: ys) - k =
          t % 4294967296 + 4294967296 * ((mag us : Int) - qhat * mag ys - (((p / radix : Nat) : Int) - t / 4294967296)) := by
        have hp' : (qhat : Int) * (y.toNat : Int) = (p : Int) := by exact_mod_cast hp
        have hr : ((radix : Nat) : Int) = 4294967296 := rfl
        simp only [mag_cons, Nat.cast_add, Nat.cast_mul, hr]
        linear_combination ht - htd - hp' + hpd
      have b0 := Int.emod_nonneg t (show (4294967296 : Int) ≠ 0 by norm_num)
      have b1 := Int.emod_lt_of_pos t (show (0 : Int) < 4294967296 by norm_num)
      have hP : (0 : Int) < 4294967296 ^ (ys.length + 1) := by positivity
      simp only [mulSubLoop, limbAt_cons_zero, List.tail_cons, hp, ht, List.length_cons]
      rw [e, pow_succ, mul_comm (4294967296 ^ (ys.length + 1) : Int), emod_limb _ _ _ b0 b1 hP, ← i1]
      refine ⟨?_, ?_⟩
      · rw [mag_cons, Nat.cast_add, Nat.cast_mul, toNat_ofInt_emod]; rfl
      · rw [i2]; congr 1; apply propext; constructor <;> intro <;> omega

/-- Add back, at the level of values: the carry out of the window is discarded (43 R188). -/
theorem addBackLoop_spec (v us : Limbs) (c : Nat) (h : us.length = v.length + 1) :
    mag (addBackLoop v us c) = (mag us + mag v + c) % radix ^ (v.length + 1) := by
  induction v generalizing us c with
  | nil =>
    obtain ⟨u, rfl⟩ := List.length_eq_one_iff.1 h
    simp [addBackLoop, limbAt_cons_zero]
  | cons y ys ih =>
    cases us with
    | nil => simp at h
    | cons u us =>
      have h' : us.length = ys.length + 1 := by simpa using h
      simp only [addBackLoop, limbAt_cons_zero, List.tail_cons, mag_cons, List.length_cons, ih us _ h']
      generalize hacc : u.toNat + y.toNat + c = acc
      have h1 := Nat.mod_add_div acc radix
      have e : u.toNat + radix * mag us + (y.toNat + radix * mag ys) + c =
          acc % radix + radix * (mag us + mag ys + acc / radix) := by
        rw [← hacc] at h1 ⊢; linear_combination h1.symm
      rw [e, pow_succ radix (ys.length + 1), mul_comm (radix ^ (ys.length + 1)), BitVec.toNat_ofNat]
      have hlt : acc % radix < radix := Nat.mod_lt _ (by norm_num [radix])
      generalize radix ^ (ys.length + 1) = P
      generalize mag us + mag ys + acc / radix = M
      rw [Nat.mod_mul, Nat.add_mul_mod_self_left, Nat.mod_mod, Nat.add_mul_div_left _ _ (by norm_num [radix]),
        Nat.div_eq_of_lt hlt, zero_add]

/-! ### The trial digit -/

/-- The correction loop gives the greatest digit below `B` that the top three limbs of the window allow (43 R186):
`min(B - 1, N3 div V2)` with `N3` the window's top three limbs and `V2` the divisor's top two. -/
theorem correctQhat_spec (v1 v2 u num : Nat) (hv1 : 2147483648 ≤ v1) (hv1' : v1 < radix) (hv2 : v2 < radix)
    (hu : u < radix) (hnum : num < (v1 + 1) * radix) :
    correctQhat v1 v2 u 2 (num / v1) (num % v1) < radix ∧
      correctQhat v1 v2 u 2 (num / v1) (num % v1) * (v1 * radix + v2) ≤ num * radix + u ∧
      ∀ d, d < radix → d * (v1 * radix + v2) ≤ num * radix + u → d ≤ correctQhat v1 v2 u 2 (num / v1) (num % v1) := by
  have hpos : 0 < v1 := by omega
  have hdm := Nat.mod_add_div num v1
  have hrem := Nat.mod_lt num hpos
  have hmax : ∀ d, d * (v1 * radix + v2) ≤ num * radix + u → d ≤ num / v1 := by
    intro d hd
    rw [Nat.le_div_iff_mul_le hpos]
    by_contra hc
    have h1 : (num + 1) * radix ≤ d * v1 * radix := Nat.mul_le_mul_right _ (by omega)
    have h2 : d * (v1 * radix + v2) = d * v1 * radix + d * v2 := by ring
    have h3 : (num + 1) * radix = num * radix + radix := by ring
    omega
  have hq : num / v1 ≤ radix + 1 := by
    have h1 : (v1 + 1) * radix ≤ (radix + 2) * v1 := by
      have : (radix + 2) * v1 = v1 * radix + 2 * v1 := by ring
      have : (v1 + 1) * radix = v1 * radix + radix := by ring
      simp only [radix] at *; omega
    have : num / v1 < radix + 2 := by
      rw [Nat.div_lt_iff_lt_mul hpos]; omega
    omega
  generalize num / v1 = q at *
  generalize num % v1 = r at *
  -- the test of R186 in terms of the three-limb and two-limb numbers
  have key : ∀ q r : Nat, r + v1 * q = num →
      (r * radix + u < q * v2 ↔ num * radix + u < q * (v1 * radix + v2)) := by
    intro q r h
    have : num * radix + u = r * radix + u + q * v1 * radix := by rw [← h]; ring
    have h2 : q * (v1 * radix + v2) = q * v2 + q * v1 * radix := by ring
    omega
  -- once `rhat >= B` the test cannot hold any more
  have exitR : ∀ q r : Nat, r + v1 * q = num → q ≤ radix → radix ≤ r → q * (v1 * radix + v2) ≤ num * radix + u := by
    intro q r h hq hr
    have h1 := key q r h
    have h2 : q * v2 ≤ radix * radix := Nat.mul_le_mul hq hv2.le
    have h3 : radix * radix ≤ r * radix := Nat.mul_le_mul_right _ hr
    omega
  have down : ∀ q, 0 < q → (radix ≤ q ∨ num * radix + u < q * (v1 * radix + v2)) →
      (∀ d, d < radix → d * (v1 * radix + v2) ≤ num * radix + u → d ≤ q) →
      ∀ d, d < radix → d * (v1 * radix + v2) ≤ num * radix + u → d ≤ q - 1 := by
    intro q hq ht hm d hd hd2
    have h1 := hm d hd hd2
    rcases eq_or_lt_of_le h1 with h2 | h2
    · subst h2; rcases ht with ht | ht <;> omega
    · omega
  have m0 : ∀ d, d < radix → d * (v1 * radix + v2) ≤ num * radix + u → d ≤ q := fun d _ h => hmax d h
  have qpos : ∀ q : Nat, (radix ≤ q ∨ num * radix + u < q * (v1 * radix + v2)) → 0 < q := by
    intro q h
    rcases Nat.eq_zero_or_pos q with h0 | h0
    · subst h0; rcases h with h | h
      · simp [radix] at h
      · simp at h
    · exact h0
  simp only [correctQhat, key q r hdm]
  by_cases t0 : radix ≤ q ∨ num * radix + u < q * (v1 * radix + v2)
  · rw [if_pos t0]
    have p0 := qpos q t0
    have e1 : (r + v1) + v1 * (q - 1) = num := by
      obtain ⟨p, rfl⟩ : ∃ p, q = p + 1 := ⟨q - 1, by omega⟩
      rw [Nat.add_sub_cancel, ← hdm]; ring
    have m1 := down q p0 t0 m0
    by_cases l0 : radix ≤ r + v1
    · rw [if_pos l0]
      have hlt : q - 1 < radix := by
        by_contra hc
        have : v1 * radix ≤ v1 * (q - 1) := Nat.mul_le_mul_left _ (by omega)
        have h4 : (v1 + 1) * radix = v1 * radix + radix := by ring
        omega
      exact ⟨hlt, exitR _ _ e1 hlt.le l0, m1⟩
    · rw [if_neg l0]
      simp only [key (q - 1) (r + v1) e1]
      by_cases t1 : radix ≤ q - 1 ∨ num * radix + u < (q - 1) * (v1 * radix + v2)
      · rw [if_pos t1]
        have p1 := qpos (q - 1) t1
        have e2 : (r + v1 + v1) + v1 * (q - 1 - 1) = num := by
          obtain ⟨p, hp⟩ : ∃ p, q - 1 = p + 1 := ⟨q - 1 - 1, by omega⟩
          rw [hp, Nat.add_sub_cancel, ← e1, hp]; ring
        have l1 : radix ≤ r + v1 + v1 := by simp only [radix] at *; omega
        rw [if_pos l1]
        have hlt : q - 1 - 1 < radix := by omega
        exact ⟨hlt, exitR _ _ e2 hlt.le l1, down (q - 1) p1 t1 m1⟩
      · rw [if_neg t1]
        push Not at t1
        exact ⟨t1.1, t1.2, m1⟩
  · rw [if_neg t0]
    push Not at t0
    exact ⟨t0.1, t0.2, m0⟩

/-- The top `k + 1` limbs split off as limb and rest, from the top (used for the divisor's top two and the window's top
three limbs). -/
theorem mag_take_succ (x : Limbs) (k : Nat) (h : k < x.length) :
    mag (x.take (k + 1)) = mag (x.take k) + radix ^ k * (limbAt x k).toNat := by
  have h1 : (x.take (k + 1)).length = k + 1 := by simp; omega
  rw [mag_top _ k h1]
  congr 2
  · rw [List.take_take, Nat.min_eq_left (by omega)]
  · simp [limbAt, List.getD]

/-- A window below `B` times the divisor has its top two limbs below `(v1 + 1) * B`. -/
theorem num_lt (P vlo v1 v2 wlo u2 num : Nat) (hvlo : vlo < P) (hv2 : v2 < radix)
    (hlt : wlo + P * (num * radix + u2) < radix * (vlo + P * (v1 * radix + v2))) : num < (v1 + 1) * radix := by
  by_contra hc
  have h1 : P * ((v1 + 1) * radix * radix) ≤ wlo + P * (num * radix + u2) := by
    have : (v1 + 1) * radix * radix ≤ num * radix + u2 :=
      le_trans (Nat.mul_le_mul_right _ (by omega)) (Nat.le_add_right _ _)
    exact le_trans (Nat.mul_le_mul_left _ this) (Nat.le_add_left _ _)
  have h2 : vlo + P * (v1 * radix + v2) < P * ((v1 + 1) * radix) := by
    have : v1 * radix + v2 + 1 ≤ (v1 + 1) * radix := by rw [add_mul]; omega
    have := Nat.mul_le_mul_left P this
    rw [mul_add, mul_one] at this
    omega
  have h3 : radix * (vlo + P * (v1 * radix + v2)) < radix * (P * ((v1 + 1) * radix)) :=
    Nat.mul_lt_mul_of_pos_left h2 (by norm_num [radix])
  have h4 : radix * (P * ((v1 + 1) * radix)) = P * ((v1 + 1) * radix * radix) := by ring
  omega

/-- The corrected digit is the true one or one more ("within 2" sharpened by R186, 43 R186). -/
theorem trial_digit (P V W vlo v1 v2 wlo u2 num c : Nat) (hvlo : vlo < P) (hwlo : wlo < P) (hv1 : 0 < v1)
    (hV : V = vlo + P * (v1 * radix + v2)) (hW : W = wlo + P * (num * radix + u2)) (hlt : W < radix * V)
    (c1 : c < radix) (c2 : c * (v1 * radix + v2) ≤ num * radix + u2)
    (c3 : ∀ d, d < radix → d * (v1 * radix + v2) ≤ num * radix + u2 → d ≤ c) :
    0 < V ∧ W / V ≤ c ∧ c - 1 ≤ W / V := by
  have hge : radix ≤ v1 * radix + v2 := le_trans (Nat.le_mul_of_pos_left _ hv1) (Nat.le_add_right _ _)
  have hPV : P * radix ≤ V := by
    rw [hV]; exact le_trans (Nat.mul_le_mul_left _ hge) (Nat.le_add_left _ _)
  have hVpos : 0 < V := lt_of_lt_of_le (Nat.mul_pos (by omega) (by norm_num [radix])) hPV
  refine ⟨hVpos, ?_, ?_⟩
  · apply c3
    · rw [Nat.div_lt_iff_lt_mul hVpos]; exact hlt
    · have h1 := Nat.div_mul_le_self W V
      generalize W / V = q at *
      by_contra hc
      have h2 : P * (num * radix + u2 + 1) ≤ P * (q * (v1 * radix + v2)) :=
        Nat.mul_le_mul_left _ (Nat.succ_le_of_lt (not_le.1 hc))
      have h3 : q * V = q * vlo + P * (q * (v1 * radix + v2)) := by rw [hV]; ring
      rw [mul_add, mul_one] at h2
      omega
  · rw [Nat.le_div_iff_mul_le hVpos]
    rcases Nat.eq_zero_or_pos c with h0 | h0
    · simp [h0]
    · have h1 : c * V = c * vlo + P * (c * (v1 * radix + v2)) := by rw [hV]; ring
      have h2 : P * (c * (v1 * radix + v2)) ≤ P * (num * radix + u2) := Nat.mul_le_mul_left _ c2
      have h3 : c * vlo ≤ radix * P := Nat.mul_le_mul c1.le hvlo.le
      have h4 : radix * P = P * radix := Nat.mul_comm _ _
      have h5 : c * V = (c - 1) * V + V := by
        obtain ⟨p, rfl⟩ : ∃ p, c = p + 1 := ⟨c - 1, by omega⟩
        rw [Nat.add_sub_cancel]; ring
      omega

/-- One iteration divides the window (43 R185 to R189). -/
theorem divStep_spec (v w : Limbs) (hn : 2 ≤ v.length) (hw : w.length = v.length + 1)
    (hv1 : 2147483648 ≤ (limbAt v (v.length - 1)).toNat) (hlt : mag w < radix * mag v) :
    (divStep v w).1 = mag w / mag v ∧ mag (divStep v w).2 = mag w % mag v ∧ (divStep v w).2.length = v.length + 1 := by
  have n1 : v.length - 2 + 1 = v.length - 1 := by omega
  have n2 : v.length - 1 + 1 = v.length := by omega
  have hV : mag v = mag (v.take (v.length - 2)) + radix ^ (v.length - 2) *
      ((limbAt v (v.length - 1)).toNat * radix + (limbAt v (v.length - 2)).toNat) := by
    conv_lhs => rw [mag_top v (v.length - 1) n2.symm, ← n1, mag_take_succ v (v.length - 2) (by omega), pow_succ]
    rw [n1]; ring
  have hW : mag w = mag (w.take (v.length - 2)) + radix ^ (v.length - 2) *
      (((limbAt w v.length).toNat * radix + (limbAt w (v.length - 1)).toNat) * radix
        + (limbAt w (v.length - 2)).toNat) := by
    have e1 := mag_top w v.length hw
    have e2 := mag_take_succ w (v.length - 1) (by omega)
    have e3 := mag_take_succ w (v.length - 2) (by omega)
    have e4 : radix ^ v.length = radix ^ (v.length - 2) * radix * radix := by rw [← pow_succ, ← pow_succ, n1, n2]
    have e5 : radix ^ (v.length - 1) = radix ^ (v.length - 2) * radix := by rw [← pow_succ, n1]
    rw [n2] at e2
    rw [n1] at e3
    rw [e1, e2, e3, e4, e5]; ring
  have hvlo := mag_lt (v.take (v.length - 2))
  have hwlo := mag_lt (w.take (v.length - 2))
  rw [List.length_take, Nat.min_eq_left (by omega)] at hvlo hwlo
  have b1 := toNat_lt_radix (limbAt v (v.length - 1))
  have b2 := toNat_lt_radix (limbAt v (v.length - 2))
  have b3 := toNat_lt_radix (limbAt w (v.length - 2))
  have hnumlt := num_lt _ _ _ _ _ _ ((limbAt w v.length).toNat * radix + (limbAt w (v.length - 1)).toNat) hvlo b2
    (by rw [← hV, ← hW]; exact hlt)
  obtain ⟨c1, c2, c3⟩ := correctQhat_spec _ _ _ _ hv1 b1 b2 b3 hnumlt
  unfold divStep
  dsimp only
  set c := correctQhat (limbAt v (v.length - 1)).toNat (limbAt v (v.length - 2)).toNat (limbAt w (v.length - 2)).toNat 2
    (((limbAt w v.length).toNat * radix + (limbAt w (v.length - 1)).toNat) / (limbAt v (v.length - 1)).toNat)
    (((limbAt w v.length).toNat * radix + (limbAt w (v.length - 1)).toNat) % (limbAt v (v.length - 1)).toNat) with hcdef
  obtain ⟨hVpos, hq, hc'⟩ := trial_digit _ _ _ _ _ _ _ _ _ c hvlo hwlo (lt_of_lt_of_le (by norm_num) hv1) hV hW hlt c1 c2 c3
  clear_value c
  clear hV hW hvlo hwlo hnumlt c2 c3 b1 b2 b3 hcdef
  have hw' : w.length = v.length + 1 := by omega
  obtain ⟨s1, s2⟩ := mulSubLoop_spec c v w 0 hw'
  have hlen := length_mulSubLoop c v w 0
  have hdm := Nat.div_add_mod (mag w) (mag v)
  have hml := Nat.mod_lt (mag w) hVpos
  have hvR := mag_lt v
  have hR : radix ^ v.length < radix ^ (v.length + 1) := Nat.pow_lt_pow_right (by norm_num [radix]) (by omega)
  have hcast : ((radix ^ (v.length + 1) : Nat) : Int) = (4294967296 : Int) ^ (v.length + 1) := by
    rw [Nat.cast_pow]; rfl
  rw [← hcast, sub_zero] at s1
  rw [sub_zero] at s2
  rw [s2]
  by_cases heq : c = mag w / mag v
  · have hD : (mag w : Int) - c * mag v = ((mag w % mag v : Nat) : Int) := by
      have : (mag w : Int) = ((mag v * (mag w / mag v) + mag w % mag v : Nat) : Int) := by rw [hdm]
      rw [this, heq]; push_cast; ring
    rw [hD] at s1 ⊢
    rw [decide_eq_false (by omega), if_neg (by simp)]
    refine ⟨heq, ?_, hlen⟩
    rw [Int.emod_eq_of_lt (by omega) (by exact_mod_cast (by omega : mag w % mag v < radix ^ (v.length + 1)))] at s1
    exact_mod_cast s1
  · have hc1 : c = mag w / mag v + 1 := by omega
    have hD : (mag w : Int) - c * mag v = ((mag w % mag v : Nat) : Int) - mag v := by
      have : (mag w : Int) = ((mag v * (mag w / mag v) + mag w % mag v : Nat) : Int) := by rw [hdm]
      rw [this, hc1]; push_cast; ring
    rw [hD] at s1 ⊢
    rw [decide_eq_true (by omega), if_pos rfl]
    have a1 := addBackLoop_spec v (mulSubLoop c v w 0).1 0 hlen
    refine ⟨by omega, ?_, length_addBackLoop _ _ _⟩
    have s3 : (mag (mulSubLoop c v w 0).1 : Int) =
        ((radix ^ (v.length + 1) : Nat) : Int) + ((mag w % mag v : Nat) : Int) - mag v := by
      rw [s1, ← Int.add_emod_right, Int.emod_eq_of_lt] <;> omega
    have s4 : mag (mulSubLoop c v w 0).1 + mag v + 0 = mag w % mag v + radix ^ (v.length + 1) := by omega
    rw [a1, s4, Nat.add_mod_right, Nat.mod_eq_of_lt (by omega)]

/-! ### The main loop and the contract -/

/-- The main loop divides (43 R184 to R190). -/
theorem divLoop_spec (v : Limbs) (hn : 2 ≤ v.length) (hv1 : 2147483648 ≤ (limbAt v (v.length - 1)).toNat)
    (k : Nat) (u q : Limbs) (hl : k + v.length ≤ u.length) (hinv : mag (u.drop k) < mag v) :
    mag (divLoop v k u q).1 = mag u / mag v + radix ^ k * mag q ∧ mag (divLoop v k u q).2 = mag u % mag v := by
  have hVpos : 0 < mag v := by omega
  induction k generalizing u q with
  | zero =>
    simp only [List.drop_zero] at hinv
    simp [divLoop, Nat.div_eq_of_lt hinv, Nat.mod_eq_of_lt hinv]
  | succ j ih =>
    set n := v.length with hndef
    set win := (u.drop j).take (n + 1) with hwin
    set hi := u.drop (j + (n + 1)) with hhi
    have hwl : win.length = n + 1 := by simp [hwin]; omega
    have hvR := mag_lt v
    -- the window holds all of `U` from limb `j` on
    have hdrop : mag (u.drop j) = mag win + radix ^ (n + 1) * mag hi := by
      rw [mag_take_drop (u.drop j) (n + 1) (by simp; omega), List.drop_drop]
    have hsplit1 : mag (u.drop j) = (limbAt (u.drop j) 0).toNat + radix * mag (u.drop (j + 1)) := by
      rw [mag_head_tail, List.tail_drop]
    have hb := toNat_lt_radix (limbAt (u.drop j) 0)
    have hdlt : mag (u.drop j) < radix * mag v := by
      have : radix * (mag (u.drop (j + 1)) + 1) ≤ radix * mag v := Nat.mul_le_mul_left _ hinv
      rw [mul_add, mul_one] at this; omega
    have hhi0 : mag hi = 0 := by
      by_contra hne
      have h1 : radix ^ (n + 1) ≤ radix ^ (n + 1) * mag hi := Nat.le_mul_of_pos_right _ (by omega)
      have h2 : radix * mag v < radix ^ (n + 1) := by
        rw [pow_succ, mul_comm]; exact Nat.mul_lt_mul_of_pos_right hvR (by norm_num [radix])
      omega
    have hwd : mag win = mag (u.drop j) := by rw [hdrop, hhi0]; ring
    obtain ⟨d1, d2, d3⟩ := divStep_spec v win hn hwl hv1 (by omega)
    set w' := (divStep v win).2 with hw'
    have hjl : (u.take j).length = j := by simp; omega
    have hu : mag u = mag (u.take j) + radix ^ j * mag win := by rw [hwd]; exact mag_take_drop u j (by omega)
    have hu' : mag (u.take j ++ w' ++ hi) = mag (u.take j) + radix ^ j * mag w' := by
      rw [mag_append, mag_append, hhi0, hjl]; ring
    have hdrop' : mag ((u.take j ++ w' ++ hi).drop j) = mag w' := by
      rw [List.append_assoc, List.drop_append_of_le_length (by omega), List.drop_of_length_le (by omega), List.nil_append,
        mag_append, hhi0]; ring
    have hq : mag win / mag v < radix := by rw [Nat.div_lt_iff_lt_mul hVpos]; omega
    obtain ⟨i1, i2⟩ := ih (u.take j ++ w' ++ hi) (BitVec.ofNat 32 (divStep v win).1 :: q)
      (by simp only [List.length_append, hjl, d3, hhi, List.length_drop]; omega)
      (by rw [hdrop', d2]; exact Nat.mod_lt _ hVpos)
    have hdm := Nat.div_add_mod (mag win) (mag v)
    have e : mag u = mag (u.take j ++ w' ++ hi) + mag v * (radix ^ j * (mag win / mag v)) := by
      rw [hu, hu', d2]
      linear_combination radix ^ j * hdm.symm
    have hdig : (BitVec.ofNat 32 (divStep v win).1).toNat = mag win / mag v := by
      rw [d1, BitVec.toNat_ofNat]; exact Nat.mod_eq_of_lt hq
    simp only [divLoop, ← hndef, ← hwin, ← hhi, ← hw', i1, i2]
    rw [e, Nat.add_mul_div_left _ _ hVpos, Nat.add_mul_mod_self_left, mag_cons, hdig]
    exact ⟨by rw [pow_succ]; ring, rfl⟩

/-- Algorithm D divides (43 R183 to R190). -/
theorem divKnuth_spec (x y : Limbs) (hy : LimbsNormal y) (hn : 2 ≤ y.length) (hl : y.length ≤ x.length) :
    mag (divKnuth x y).1 = mag x / mag y ∧ mag (divKnuth x y).2 = mag x % mag y := by
  have hy0 : mag y ≠ 0 := by
    intro h; rw [hy.eq_of_mag_zero h] at hn; simp at hn
  have htop := hy.top_ne_zero hy0
  set n := y.length with hndef
  set s := clz32 (limbAt y (n - 1)) with hs
  have hbl := bitlength_word (limbAt y (n - 1))
  have htop' : (limbAt y (n - 1)).toNat ≠ 0 := fun h => htop (BitVec.eq_of_toNat_eq (by simpa using h))
  have hbpos : bitlength (limbAt y (n - 1)).toNat ≠ 0 := fun h => htop' ((bitlength_eq_zero _).1 h)
  have hs32 : s < 32 := by omega
  have hnn : n = (n - 1) + 1 := by omega
  -- the normalized divisor
  have hyR : mag y * 2 ^ s < radix ^ n := by
    have h1 := mag_lt_top y hy.1
    rw [← hndef, ← hs] at h1
    calc mag y * 2 ^ s < 2 ^ (32 * n - s) * 2 ^ s := Nat.mul_lt_mul_of_pos_right h1 (by positivity)
      _ = radix ^ n := by rw [← pow_add, radix_pow]; congr 1; omega
  have hV := shlLoop_mag s hs32 y hyR
  have hVl : (shlLoop s y 0).length = n := length_shlLoop _ _ _
  have hylow : 2 ^ (32 * n - s - 1) ≤ mag y := by
    have h1 : 2 ^ (bitlength (limbAt y (n - 1)).toNat - 1) ≤ (limbAt y (n - 1)).toNat := (lt_bitlength_iff _ _).1 (by omega)
    rw [mag_top y (n - 1) (by omega)]
    have h2 : 2 ^ (32 * n - s - 1) = radix ^ (n - 1) * 2 ^ (bitlength (limbAt y (n - 1)).toNat - 1) := by
      rw [radix_pow, ← pow_add]; congr 1; omega
    rw [h2]
    exact le_trans (Nat.mul_le_mul_left _ h1) (Nat.le_add_left _ _)
  have hVlow : 2 ^ (32 * n - 1) ≤ mag (shlLoop s y 0) := by
    rw [hV]
    calc 2 ^ (32 * n - 1) = 2 ^ (32 * n - s - 1) * 2 ^ s := by rw [← pow_add]; congr 1; omega
      _ ≤ _ := Nat.mul_le_mul_right _ hylow
  have hv1 : 2147483648 ≤ (limbAt (shlLoop s y 0) ((shlLoop s y 0).length - 1)).toNat := by
    rw [hVl]
    by_contra hc
    have h1 := mag_top (shlLoop s y 0) (n - 1) (by omega)
    have h2 := mag_lt ((shlLoop s y 0).take (n - 1))
    rw [List.length_take, hVl, Nat.min_eq_left (by omega)] at h2
    have h3 : radix ^ (n - 1) * (limbAt (shlLoop s y 0) (n - 1)).toNat ≤ radix ^ (n - 1) * 2147483647 :=
      Nat.mul_le_mul_left _ (by omega)
    have h4 : 2 ^ (32 * n - 1) = radix ^ (n - 1) * 2147483648 := by
      rw [radix_pow, show (2147483648 : Nat) = 2 ^ 31 by norm_num, ← pow_add]; congr 1; omega
    have h5 : radix ^ (n - 1) * 2147483648 = radix ^ (n - 1) * 2147483647 + radix ^ (n - 1) := by ring
    omega
  -- the shifted dividend
  have hU : mag (shlLoop s (x ++ [0]) 0) = mag x * 2 ^ s := by
    have e : mag (x ++ [(0 : Word)]) = mag x := by simp [mag_append]
    rw [shlLoop_mag s hs32 _ ?_, e]
    rw [e, List.length_append, List.length_singleton, pow_succ]
    exact Nat.mul_lt_mul_of_lt_of_le (mag_lt x) (by rw [radix_eq]; exact Nat.pow_le_pow_right (by norm_num) hs32.le) (by positivity)
  have hUl : (shlLoop s (x ++ [0]) 0).length = x.length + 1 := by simp
  have hy1 := hy.mag_ge hy0
  rw [← hndef] at hy1
  have hinv : mag ((shlLoop s (x ++ [0]) 0).drop (x.length - n + 1)) < mag (shlLoop s y 0) := by
    rw [mag_drop _ _ (by omega), hU, hV, Nat.div_lt_iff_lt_mul (by positivity)]
    calc mag x * 2 ^ s < radix ^ x.length * 2 ^ s := Nat.mul_lt_mul_of_pos_right (mag_lt x) (by positivity)
      _ = radix ^ (n - 1) * 2 ^ s * radix ^ (x.length - n + 1) := by
          rw [mul_right_comm, ← pow_add]; congr 2; omega
      _ ≤ _ := Nat.mul_le_mul_right _ (Nat.mul_le_mul_right _ hy1)
  obtain ⟨l1, l2⟩ := divLoop_spec (shlLoop s y 0) (by omega) hv1 (x.length - n + 1) (shlLoop s (x ++ [0]) 0) []
    (by omega) hinv
  have h2s : 0 < 2 ^ s := by positivity
  rw [hU, hV, Nat.mul_div_mul_right _ _ h2s] at l1
  rw [hU, hV, Nat.mul_mod_mul_right] at l2
  unfold divKnuth
  simp only [← hndef, ← hs, mag_strip]
  refine ⟨by simpa using l1, ?_⟩
  generalize (divLoop (shlLoop s y 0) (x.length - n + 1) (shlLoop s (x ++ [0]) 0) []).2 = R at l2
  rw [shrLoop_mag s hs32]
  -- the remainder's limbs above `n` are 0
  have hRlt : mag R < radix ^ n := by
    rw [l2]
    have := Nat.mod_lt (mag x) (Nat.pos_of_ne_zero hy0)
    exact lt_of_le_of_lt (Nat.mul_le_mul_right _ this.le) hyR
  have htake : mag (R.take n) = mag R := by
    by_cases hR : R.length ≤ n
    · rw [List.take_of_length_le hR]
    · have h1 := mag_take_drop R n (by omega)
      rcases Nat.eq_zero_or_pos (mag (R.drop n)) with h0 | h0
      · rw [h0] at h1; omega
      · have : radix ^ n ≤ radix ^ n * mag (R.drop n) := Nat.le_mul_of_pos_right _ h0
        omega
  rw [htake, l2, Nat.mul_div_cancel _ h2s]

/-- THE CONTRACT OF THE MAGNITUDE DIVIDER (43 R191). -/
theorem magDivmod_spec (x y : Limbs) (hy : LimbsNormal y) (h0 : mag y ≠ 0) :
    mag (magDivmod x y).1 = mag x / mag y ∧ mag (magDivmod x y).2 = mag x % mag y := by
  have hyp := hy.length_pos
  unfold magDivmod
  split
  · rename_i h1
    have e : mag y = (limbAt y 0).toNat := by
      rw [mag_top y 0 (by omega)]; simp
    rw [e] at h0 ⊢
    exact divSmall_spec x _ (Nat.pos_of_ne_zero h0)
  · split
    · rename_i h2
      have : mag x < mag y := by
        have h3 := mag_lt x
        have h4 := hy.mag_ge h0
        have h5 : radix ^ x.length ≤ radix ^ (y.length - 1) := Nat.pow_le_pow_right (by norm_num [radix]) (by omega)
        omega
      simp [Nat.div_eq_of_lt this, Nat.mod_eq_of_lt this]
    · exact divKnuth_spec x y hy (by omega) (by omega)

end Sys2Proof
end

