-- ==== Sys2Proof/Laws/Signed.lean ====
section
/-! SUPPORT. The signed operations on BigInt values, as integers: shifts (44 R212), comparison (44 R215), bit length and
bits (44 R217, R219), quotient, remainder and modulus (43 R193 to R196), and the modular multiplier (45 R250). -/

namespace Sys2Proof

/-- `shl` on integers: a multiplication for `k >= 0`, a truncating division for `k < 0` (44 R212). -/
theorem shl_val (a : BigInt) (k : Int) (ha : a.Normal) :
    (a.shl k).val = if 0 ≤ k then a.val * 2 ^ k.toNat else a.val.tdiv (2 ^ (-k).toNat) := by
  unfold BigInt.shl
  split
  · rw [norm_val, magShl_mag _ _ ha.1, BigInt.val_eq a]; split <;> push_cast <;> ring
  · rw [norm_val, magShr_mag, BigInt.val_eq a]
    split
    · rw [Int.neg_tdiv]; push_cast; rw [Int.tdiv_eq_ediv_of_nonneg (by positivity)]
    · push_cast; rw [Int.tdiv_eq_ediv_of_nonneg (by positivity)]

/-- `shr` on integers: a truncating division for `k >= 0`, a multiplication for `k < 0` (44 R212). -/
theorem shr_val (a : BigInt) (k : Int) (ha : a.Normal) :
    (a.shr k).val = if 0 ≤ k then a.val.tdiv (2 ^ k.toNat) else a.val * 2 ^ (-k).toNat := by
  unfold BigInt.shr
  split
  · rw [norm_val, magShr_mag, BigInt.val_eq a]
    split
    · rw [Int.neg_tdiv]; push_cast; rw [Int.tdiv_eq_ediv_of_nonneg (by positivity)]
    · push_cast; rw [Int.tdiv_eq_ediv_of_nonneg (by positivity)]
  · rw [norm_val, magShl_mag _ _ ha.1, BigInt.val_eq a]; split <;> push_cast <;> ring

/-- The cases of R215 on signs and magnitudes. -/
theorem cmp_arith (sa sb : Bool) (m n : Nat) (h1 : sa = true → m ≠ 0) (h2 : sb = true → n ≠ 0) :
    (if m = 0 ∧ n = 0 then 0 else if sa ≠ sb then (if sa then -1 else 1)
      else if sa then -(natSign m n) else natSign m n) =
      if (if sa then -(m : Int) else m) < (if sb then -(n : Int) else n) then -1
      else if (if sa then -(m : Int) else m) = (if sb then -(n : Int) else n) then (0 : Int) else 1 := by
  rcases lt_trichotomy m n with h | h | h
  · rw [natSign_lt h]
    cases sa <;> cases sb <;> simp_all <;> (try split_ifs) <;> omega
  · subst h
    cases sa <;> cases sb <;> simp_all
  · rw [natSign_gt h]
    cases sa <;> cases sb <;> simp_all <;> (try split_ifs) <;> omega

/-- `cmp` is the sign of the difference (44 R215). -/
theorem cmp_eq (a b : BigInt) (ha : a.Normal) (hb : b.Normal) :
    BigInt.cmp a b = if a.val < b.val then -1 else if a.val = b.val then 0 else 1 := by
  have ham : a.sign = true → mag a.limbs ≠ 0 := fun h h0 => ha.2 h (ha.1.eq_of_mag_zero h0)
  have hbm : b.sign = true → mag b.limbs ≠ 0 := fun h h0 => hb.2 h (hb.1.eq_of_mag_zero h0)
  unfold BigInt.cmp
  rw [magCmp_eq _ _ ha.1 hb.1]
  exact cmp_arith a.sign b.sign _ _ ham hbm

/-- The size command's formula is the bit length (44 R217). -/
theorem magSize_eq (x : Limbs) (hx : LimbsNormal x) : magSize x = bitlength (mag x) := by
  unfold magSize
  by_cases h0 : mag x = 0
  · simp [h0, bitlength]
  · rw [if_neg h0]
    have hl := hx.length_pos
    have hb := bitlength_word (limbAt x (x.length - 1))
    have ht := hx.top_ne_zero h0
    have ht' : (limbAt x (x.length - 1)).toNat ≠ 0 := fun h => ht (BitVec.eq_of_toNat_eq (by simpa using h))
    have hb0 : bitlength (limbAt x (x.length - 1)).toNat ≠ 0 := fun h => ht' ((bitlength_eq_zero _).1 h)
    have h1 : bitlength (mag x) ≤ 32 * x.length - clz32 (limbAt x (x.length - 1)) :=
      (bitlength_le_iff _ _).2 (mag_lt_top x hx.1)
    have h2 : 32 * (x.length - 1) + (bitlength (limbAt x (x.length - 1)).toNat - 1) < bitlength (mag x) := by
      rw [lt_bitlength_iff, pow_add, ← radix_pow, mag_top x (x.length - 1) (by omega)]
      have : 2 ^ (bitlength (limbAt x (x.length - 1)).toNat - 1) ≤ (limbAt x (x.length - 1)).toNat :=
        (lt_bitlength_iff _ _).1 (by omega)
      exact le_trans (Nat.mul_le_mul_left _ this) (Nat.le_add_left _ _)
    omega

/-- A bit of the limbs is the bit of the magnitude (44 R219). -/
theorem magBit_eq (x : Limbs) (i : Nat) : magBit x i = mag x / 2 ^ i % 2 := by
  unfold magBit
  have hi : 2 ^ i = radix ^ (i / 32) * 2 ^ (i % 32) := by rw [radix_pow, ← pow_add, Nat.div_add_mod]
  by_cases hl : x.length ≤ i / 32
  · rw [if_pos hl]
    have h1 := mag_lt x
    have h2 : radix ^ x.length ≤ radix ^ (i / 32) := Nat.pow_le_pow_right (by norm_num [radix]) hl
    have h3 : radix ^ (i / 32) ≤ 2 ^ i := by rw [hi]; exact Nat.le_mul_of_pos_right _ (by positivity)
    rw [Nat.div_eq_of_lt (by omega)]
  · rw [if_neg hl, hi, ← Nat.div_div_eq_div_mul, ← mag_drop x (i / 32) (by omega), mag_head_tail (x.drop (i / 32))]
    have e : limbAt (x.drop (i / 32)) 0 = limbAt x (i / 32) := by simp [limbAt, List.getD]
    have hs : radix = 2 ^ (i % 32) * (2 * 2 ^ (31 - i % 32)) := by
      rw [radix_eq, ← pow_succ', ← pow_add]; congr 1; omega
    rw [e, Nat.shiftRight_eq_div_pow]
    generalize mag (x.drop (i / 32)).tail = M
    conv_rhs => rw [hs]
    rw [mul_assoc, Nat.add_mul_div_left _ _ (by positivity), mul_assoc, Nat.add_mul_mod_self_left]

/-! ### Trailing zeros -/

theorem trailingZeros_spec (f v : Nat) (h0 : v ≠ 0) (h : v < 2 ^ f) :
    trailingZeros f v < f ∧ 2 ^ trailingZeros f v ∣ v ∧ ¬ 2 ^ (trailingZeros f v + 1) ∣ v := by
  induction f generalizing v with
  | zero => simp at h; omega
  | succ f ih =>
    unfold trailingZeros
    by_cases hv : v % 2 = 0
    · rw [if_pos hv]
      have hd : v = 2 * (v / 2) := by omega
      obtain ⟨h1, h2, h3⟩ := ih (v / 2) (by omega) (by rw [pow_succ] at h; omega)
      refine ⟨by omega, ?_, fun h4 => h3 ?_⟩
      · rw [hd, pow_succ']
        exact Nat.mul_dvd_mul_left 2 (by simpa using h2)
      · rw [hd, pow_succ'] at h4
        have := Nat.dvd_of_mul_dvd_mul_left (by norm_num) h4
        simpa using this
    · rw [if_neg hv]
      refine ⟨by omega, one_dvd v, fun h4 => hv ?_⟩
      simpa using Nat.mod_eq_zero_of_dvd h4

/-- The trailing-zero count is the largest `t` with `2^t` dividing the magnitude (44 R218). -/
theorem magTrailingZeros_spec (x : Limbs) (h0 : mag x ≠ 0) :
    2 ^ magTrailingZeros x ∣ mag x ∧ ¬ 2 ^ (magTrailingZeros x + 1) ∣ mag x := by
  induction x with
  | nil => simp at h0
  | cons w ws ih =>
    unfold magTrailingZeros
    rw [mag_cons] at h0 ⊢
    rw [radix_eq] at h0 ⊢
    by_cases hw : w = 0
    · subst hw
      rw [if_pos rfl]
      simp only [BitVec.ofNat_eq_ofNat, BitVec.toNat_ofNat, Nat.zero_mod, zero_add] at h0 ⊢
      obtain ⟨h1, h2⟩ := ih (fun h => h0 (by rw [h, mul_zero]))
      refine ⟨?_, fun h => h2 ?_⟩
      · rw [pow_add]; exact Nat.mul_dvd_mul_left _ h1
      · rw [add_assoc, pow_add] at h
        exact Nat.dvd_of_mul_dvd_mul_left (by norm_num) h
    · rw [if_neg hw]
      have hw' : w.toNat ≠ 0 := fun h => hw (BitVec.eq_of_toNat_eq (by simpa using h))
      obtain ⟨h1, h2, h3⟩ := trailingZeros_spec 32 w.toNat hw' w.isLt
      have hd : 2 ^ (trailingZeros 32 w.toNat + 1) ∣ 2 ^ 32 * mag ws :=
        Dvd.dvd.mul_right (pow_dvd_pow 2 (by omega)) _
      exact ⟨(Nat.dvd_add_iff_left (dvd_trans (pow_dvd_pow 2 (Nat.le_succ _)) hd)).1 h2,
        fun h => h3 ((Nat.dvd_add_iff_left hd).2 h)⟩

/-- The power-of-two test (44 R221). -/
theorem isPow2_iff (x : BigInt) : x.isPow2 = true ↔ ∃ k : Nat, x.val = 2 ^ k := by
  have hm := x.mag_eq_natAbs
  have hx : Sys2Proof.mag x.limbs = x.mag := rfl
  unfold BigInt.isPow2
  simp only [Bool.and_eq_true, decide_eq_true_eq, beq_iff_eq]
  constructor
  · rintro ⟨h1, h2⟩
    have h0 : x.mag ≠ 0 := by omega
    have hb := bitlength_eq_zero x.mag
    obtain ⟨⟨q, h3⟩, -⟩ := magTrailingZeros_spec x.limbs h0
    have h4 := lt_two_pow_bitlength x.mag
    rw [show bitlength x.mag = magTrailingZeros x.limbs + 1 by omega, pow_succ] at h4
    rw [hx] at h3
    have h5 : q < 2 := by
      rw [h3] at h4
      exact Nat.lt_of_mul_lt_mul_left h4
    have h6 : q ≠ 0 := fun h => h0 (by rw [h3, h, mul_zero])
    have h7 : x.mag = 2 ^ magTrailingZeros x.limbs := by rw [h3, show q = 1 by omega, mul_one]
    refine ⟨magTrailingZeros x.limbs, ?_⟩
    have : x.val = (x.mag : Int) := by omega
    rw [this, h7]; push_cast; rfl
  · rintro ⟨k, hk⟩
    have hmk : x.mag = 2 ^ k := by rw [hm, hk, Int.natAbs_pow]; rfl
    obtain ⟨h1, h2⟩ := magTrailingZeros_spec x.limbs (by rw [hx, hmk]; positivity)
    rw [hx, hmk] at h1 h2
    have h3 := (Nat.pow_dvd_pow_iff_le_right (by norm_num : 1 < 2)).1 h1
    have h4 : ¬ magTrailingZeros x.limbs + 1 ≤ k := fun h => h2 (pow_dvd_pow 2 h)
    have h5 : bitlength (2 ^ k) = k + 1 := by
      have := bitlength_mul_two_pow 1 k (by norm_num)
      rw [one_mul] at this
      rw [this, show bitlength 1 = 1 from by decide]; omega
    exact ⟨by rw [hk]; positivity, by rw [hmk, h5]; omega⟩

/-! ### Division -/

/-- `quot` is the truncated quotient (43 R193). -/
theorem quot_val (a b : BigInt) (hb : b.Normal) (h0 : b.val ≠ 0) : (BigInt.quot a b).val = a.val.tdiv b.val := by
  have hm : mag b.limbs ≠ 0 := fun h => h0 (by simp [BigInt.val_eq, h])
  unfold BigInt.quot
  rw [norm_val, (magDivmod_spec _ _ hb.1 hm).1, BigInt.val_eq a, BigInt.val_eq b]
  cases a.sign <;> cases b.sign <;>
    simp [Int.neg_tdiv, Int.tdiv_neg, Int.tdiv_eq_ediv_of_nonneg]

theorem quot_normal (a b : BigInt) : (BigInt.quot a b).Normal := norm_normal _ _

/-- `rem0` is the remainder with the dividend's sign (43 R195). -/
theorem rem0_val (a b : BigInt) (hb : b.Normal) (h0 : b.val ≠ 0) : (BigInt.rem0 a b).val = a.val.tmod b.val := by
  have hm : mag b.limbs ≠ 0 := fun h => h0 (by simp [BigInt.val_eq, h])
  unfold BigInt.rem0
  rw [norm_val, (magDivmod_spec _ _ hb.1 hm).2, BigInt.val_eq a, BigInt.val_eq b]
  cases a.sign <;> cases b.sign <;>
    simp [Int.neg_tmod, Int.tmod_neg, Int.tmod_eq_emod_of_nonneg]

/-- The modulus function gives the least non-negative residue (43 R196). -/
theorem modVal_eq (a m : BigInt) (hm : m.Normal) (h0 : 0 < m.val) : BigInt.modVal a m = a.val % m.val := by
  have hr := rem0_val a m hm h0.ne'
  have hn : (BigInt.rem0 a m).Normal := norm_normal _ _
  unfold BigInt.modVal
  simp only [add_val _ _ hn hm, hr]
  have h1 := Int.tmod_add_mul_tdiv a.val m.val
  have h2 := Int.emod_add_mul_ediv a.val m.val
  have h3 := Int.emod_nonneg a.val h0.ne'
  have h4 := Int.emod_lt_of_pos a.val h0
  have h5 : a.val.tmod m.val < m.val := Int.tmod_lt_of_pos _ h0
  have h6 : -m.val < a.val.tmod m.val := by
    have := Int.tmod_lt_of_pos (-a.val) h0
    rw [Int.neg_tmod] at this; omega
  split
  · rename_i h
    have : a.val % m.val = (a.val.tmod m.val + m.val) % m.val := by
      rw [Int.add_emod_right, ← Int.add_mul_emod_self_left (a.val.tmod m.val) m.val (a.val.tdiv m.val), h1]
    rw [this, Int.emod_eq_of_lt (by omega) (by omega)]
  · rename_i h
    have : a.val % m.val = a.val.tmod m.val % m.val := by
      rw [← Int.add_mul_emod_self_left (a.val.tmod m.val) m.val (a.val.tdiv m.val), h1]
    rw [this, Int.emod_eq_of_lt (by omega) h5]

/-- The divider's quotient on non-negative integers (43 R191). -/
@[simp] theorem natDiv_eq (b a : Nat) (ha : a ≠ 0) : natDiv b a = b / a := by
  have := (magDivmod_spec (natLimbs b) (natLimbs a) (limbsNormal_natLimbs a) (by simpa using ha)).1
  simpa [natDiv] using this

/-- The divider's remainder on non-negative integers (43 R191). -/
@[simp] theorem natMod_eq (b a : Nat) (ha : a ≠ 0) : natMod b a = b % a := by
  have := (magDivmod_spec (natLimbs b) (natLimbs a) (limbsNormal_natLimbs a) (by simpa using ha)).2
  simpa [natMod] using this

/-- `mod` on integers (43 R196). -/
theorem intMod_eq (a m : Int) (h : 0 < m) : intMod a m = a % m := by
  unfold intMod
  rw [modVal_eq _ _ (big_normal m) (by simpa using h)]; simp

/-- `modmul` on integers (45 R250). -/
theorem modmul_eq (a b m : Int) (h : 0 < m) : modmul a b m = a * b % m := by
  unfold modmul
  rw [modVal_eq _ _ (big_normal m) (by simpa using h), mul_val]; simp

/-- A bit of the exponent (45 R256). -/
theorem expBit_eq (e : Int) (i : Nat) : expBit e i = e.natAbs / 2 ^ i % 2 := by
  unfold expBit; rw [magBit_eq]; simp

end Sys2Proof
end

