-- ==== Sys2Proof/Laws/State.lean ====
section
/-! SUPPORT. One lemma per field per update of the state, each true by rfl, so that no proof unfolds a record update. -/

namespace Sys2Proof.Machine

variable (s : State)


/-! ### State.setFlags -/

@[simp] theorem State.setFlags_params (zf nf : Bool) : (s.setFlags zf nf).params = s.params := rfl
@[simp] theorem State.setFlags_regs (zf nf : Bool) : (s.setFlags zf nf).regs = s.regs := rfl
@[simp] theorem State.setFlags_z (zf nf : Bool) : (s.setFlags zf nf).z = zf := rfl
@[simp] theorem State.setFlags_n (zf nf : Bool) : (s.setFlags zf nf).n = nf := rfl
@[simp] theorem State.setFlags_busy (zf nf : Bool) : (s.setFlags zf nf).busy = s.busy := rfl
@[simp] theorem State.setFlags_done (zf nf : Bool) : (s.setFlags zf nf).done = s.done := rfl
@[simp] theorem State.setFlags_err (zf nf : Bool) : (s.setFlags zf nf).err = s.err := rfl
@[simp] theorem State.setFlags_drop (zf nf : Bool) : (s.setFlags zf nf).drop = s.drop := rfl
@[simp] theorem State.setFlags_ecode (zf nf : Bool) : (s.setFlags zf nf).ecode = s.ecode := rfl
@[simp] theorem State.setFlags_ie (zf nf : Bool) : (s.setFlags zf nf).ie = s.ie := rfl
@[simp] theorem State.setFlags_ecmd (zf nf : Bool) : (s.setFlags zf nf).ecmd = s.ecmd := rfl
@[simp] theorem State.setFlags_sa (zf nf : Bool) : (s.setFlags zf nf).sa = s.sa := rfl
@[simp] theorem State.setFlags_sb (zf nf : Bool) : (s.setFlags zf nf).sb = s.sb := rfl
@[simp] theorem State.setFlags_sres (zf nf : Bool) : (s.setFlags zf nf).sres = s.sres := rfl
@[simp] theorem State.setFlags_olen (zf nf : Bool) : (s.setFlags zf nf).olen = s.olen := rfl
@[simp] theorem State.setFlags_osign (zf nf : Bool) : (s.setFlags zf nf).osign = s.osign := rfl
@[simp] theorem State.setFlags_obuf (zf nf : Bool) : (s.setFlags zf nf).obuf = s.obuf := rfl
@[simp] theorem State.setFlags_cur (zf nf : Bool) : (s.setFlags zf nf).cur = s.cur := rfl
@[simp] theorem State.setFlags_inputs (zf nf : Bool) : (s.setFlags zf nf).inputs = s.inputs := rfl
@[simp] theorem State.setFlags_resp (zf nf : Bool) : (s.setFlags zf nf).resp = s.resp := rfl
@[simp] theorem State.setFlags_epoch (zf nf : Bool) : (s.setFlags zf nf).epoch = s.epoch := rfl
@[simp] theorem State.setFlags_strays (zf nf : Bool) : (s.setFlags zf nf).strays = s.strays := rfl

/-! ### State.setReg -/

@[simp] theorem State.setReg_params (i : BigReg) (v : Int) : (s.setReg i v).params = s.params := rfl
@[simp] theorem State.setReg_regs (i : BigReg) (v : Int) : (s.setReg i v).regs = s.regs.set i (big v) := rfl
@[simp] theorem State.setReg_z (i : BigReg) (v : Int) : (s.setReg i v).z = s.z := rfl
@[simp] theorem State.setReg_n (i : BigReg) (v : Int) : (s.setReg i v).n = s.n := rfl
@[simp] theorem State.setReg_busy (i : BigReg) (v : Int) : (s.setReg i v).busy = s.busy := rfl
@[simp] theorem State.setReg_done (i : BigReg) (v : Int) : (s.setReg i v).done = s.done := rfl
@[simp] theorem State.setReg_err (i : BigReg) (v : Int) : (s.setReg i v).err = s.err := rfl
@[simp] theorem State.setReg_drop (i : BigReg) (v : Int) : (s.setReg i v).drop = s.drop := rfl
@[simp] theorem State.setReg_ecode (i : BigReg) (v : Int) : (s.setReg i v).ecode = s.ecode := rfl
@[simp] theorem State.setReg_ie (i : BigReg) (v : Int) : (s.setReg i v).ie = s.ie := rfl
@[simp] theorem State.setReg_ecmd (i : BigReg) (v : Int) : (s.setReg i v).ecmd = s.ecmd := rfl
@[simp] theorem State.setReg_sa (i : BigReg) (v : Int) : (s.setReg i v).sa = s.sa := rfl
@[simp] theorem State.setReg_sb (i : BigReg) (v : Int) : (s.setReg i v).sb = s.sb := rfl
@[simp] theorem State.setReg_sres (i : BigReg) (v : Int) : (s.setReg i v).sres = s.sres := rfl
@[simp] theorem State.setReg_olen (i : BigReg) (v : Int) : (s.setReg i v).olen = s.olen := rfl
@[simp] theorem State.setReg_osign (i : BigReg) (v : Int) : (s.setReg i v).osign = s.osign := rfl
@[simp] theorem State.setReg_obuf (i : BigReg) (v : Int) : (s.setReg i v).obuf = s.obuf := rfl
@[simp] theorem State.setReg_cur (i : BigReg) (v : Int) : (s.setReg i v).cur = s.cur := rfl
@[simp] theorem State.setReg_inputs (i : BigReg) (v : Int) : (s.setReg i v).inputs = s.inputs := rfl
@[simp] theorem State.setReg_resp (i : BigReg) (v : Int) : (s.setReg i v).resp = s.resp := rfl
@[simp] theorem State.setReg_epoch (i : BigReg) (v : Int) : (s.setReg i v).epoch = s.epoch := rfl
@[simp] theorem State.setReg_strays (i : BigReg) (v : Int) : (s.setReg i v).strays = s.strays := rfl

/-! ### State.setSres -/

@[simp] theorem State.setSres_params (w : Word) : (s.setSres w).params = s.params := rfl
@[simp] theorem State.setSres_regs (w : Word) : (s.setSres w).regs = s.regs := rfl
@[simp] theorem State.setSres_z (w : Word) : (s.setSres w).z = s.z := rfl
@[simp] theorem State.setSres_n (w : Word) : (s.setSres w).n = s.n := rfl
@[simp] theorem State.setSres_busy (w : Word) : (s.setSres w).busy = s.busy := rfl
@[simp] theorem State.setSres_done (w : Word) : (s.setSres w).done = s.done := rfl
@[simp] theorem State.setSres_err (w : Word) : (s.setSres w).err = s.err := rfl
@[simp] theorem State.setSres_drop (w : Word) : (s.setSres w).drop = s.drop := rfl
@[simp] theorem State.setSres_ecode (w : Word) : (s.setSres w).ecode = s.ecode := rfl
@[simp] theorem State.setSres_ie (w : Word) : (s.setSres w).ie = s.ie := rfl
@[simp] theorem State.setSres_ecmd (w : Word) : (s.setSres w).ecmd = s.ecmd := rfl
@[simp] theorem State.setSres_sa (w : Word) : (s.setSres w).sa = s.sa := rfl
@[simp] theorem State.setSres_sb (w : Word) : (s.setSres w).sb = s.sb := rfl
@[simp] theorem State.setSres_sres (w : Word) : (s.setSres w).sres = w := rfl
@[simp] theorem State.setSres_olen (w : Word) : (s.setSres w).olen = s.olen := rfl
@[simp] theorem State.setSres_osign (w : Word) : (s.setSres w).osign = s.osign := rfl
@[simp] theorem State.setSres_obuf (w : Word) : (s.setSres w).obuf = s.obuf := rfl
@[simp] theorem State.setSres_cur (w : Word) : (s.setSres w).cur = s.cur := rfl
@[simp] theorem State.setSres_inputs (w : Word) : (s.setSres w).inputs = s.inputs := rfl
@[simp] theorem State.setSres_resp (w : Word) : (s.setSres w).resp = s.resp := rfl
@[simp] theorem State.setSres_epoch (w : Word) : (s.setSres w).epoch = s.epoch := rfl
@[simp] theorem State.setSres_strays (w : Word) : (s.setSres w).strays = s.strays := rfl

/-! ### State.complete -/

@[simp] theorem State.complete_params : s.complete.params = s.params := rfl
@[simp] theorem State.complete_regs : s.complete.regs = s.regs := rfl
@[simp] theorem State.complete_z : s.complete.z = s.z := rfl
@[simp] theorem State.complete_n : s.complete.n = s.n := rfl
@[simp] theorem State.complete_busy : s.complete.busy = false := rfl
@[simp] theorem State.complete_done : s.complete.done = true := rfl
@[simp] theorem State.complete_err : s.complete.err = s.err := rfl
@[simp] theorem State.complete_drop : s.complete.drop = s.drop := rfl
@[simp] theorem State.complete_ecode : s.complete.ecode = s.ecode := rfl
@[simp] theorem State.complete_ie : s.complete.ie = s.ie := rfl
@[simp] theorem State.complete_ecmd : s.complete.ecmd = s.ecmd := rfl
@[simp] theorem State.complete_sa : s.complete.sa = s.sa := rfl
@[simp] theorem State.complete_sb : s.complete.sb = s.sb := rfl
@[simp] theorem State.complete_sres : s.complete.sres = s.sres := rfl
@[simp] theorem State.complete_olen : s.complete.olen = s.olen := rfl
@[simp] theorem State.complete_osign : s.complete.osign = s.osign := rfl
@[simp] theorem State.complete_obuf : s.complete.obuf = s.obuf := rfl
@[simp] theorem State.complete_cur : s.complete.cur = s.cur := rfl
@[simp] theorem State.complete_inputs : s.complete.inputs = s.inputs := rfl
@[simp] theorem State.complete_resp : s.complete.resp = s.resp := rfl
@[simp] theorem State.complete_epoch : s.complete.epoch = s.epoch := rfl
@[simp] theorem State.complete_strays : s.complete.strays = s.strays := rfl

/-! ### State.raise -/

@[simp] theorem State.raise_params (e : ErrorKind) : (s.raise e).params = s.params := rfl
@[simp] theorem State.raise_regs (e : ErrorKind) : (s.raise e).regs = s.regs := rfl
@[simp] theorem State.raise_z (e : ErrorKind) : (s.raise e).z = s.z := rfl
@[simp] theorem State.raise_n (e : ErrorKind) : (s.raise e).n = s.n := rfl
@[simp] theorem State.raise_busy (e : ErrorKind) : (s.raise e).busy = false := rfl
@[simp] theorem State.raise_done (e : ErrorKind) : (s.raise e).done = true := rfl
@[simp] theorem State.raise_err (e : ErrorKind) : (s.raise e).err = true := rfl
@[simp] theorem State.raise_drop (e : ErrorKind) : (s.raise e).drop = s.drop := rfl
@[simp] theorem State.raise_ecode (e : ErrorKind) : (s.raise e).ecode = e.code := rfl
@[simp] theorem State.raise_ie (e : ErrorKind) : (s.raise e).ie = s.ie := rfl
@[simp] theorem State.raise_ecmd (e : ErrorKind) : (s.raise e).ecmd = s.cur := rfl
@[simp] theorem State.raise_sa (e : ErrorKind) : (s.raise e).sa = s.sa := rfl
@[simp] theorem State.raise_sb (e : ErrorKind) : (s.raise e).sb = s.sb := rfl
@[simp] theorem State.raise_sres (e : ErrorKind) : (s.raise e).sres = s.sres := rfl
@[simp] theorem State.raise_olen (e : ErrorKind) : (s.raise e).olen = s.olen := rfl
@[simp] theorem State.raise_osign (e : ErrorKind) : (s.raise e).osign = s.osign := rfl
@[simp] theorem State.raise_obuf (e : ErrorKind) : (s.raise e).obuf = s.obuf := rfl
@[simp] theorem State.raise_cur (e : ErrorKind) : (s.raise e).cur = s.cur := rfl
@[simp] theorem State.raise_inputs (e : ErrorKind) : (s.raise e).inputs = s.inputs := rfl
@[simp] theorem State.raise_resp (e : ErrorKind) : (s.raise e).resp = s.resp := rfl
@[simp] theorem State.raise_epoch (e : ErrorKind) : (s.raise e).epoch = s.epoch := rfl
@[simp] theorem State.raise_strays (e : ErrorKind) : (s.raise e).strays = s.strays := rfl

/-! ### State.acknowledge -/

@[simp] theorem State.acknowledge_params : s.acknowledge.params = s.params := rfl
@[simp] theorem State.acknowledge_regs : s.acknowledge.regs = s.regs := rfl
@[simp] theorem State.acknowledge_z : s.acknowledge.z = s.z := rfl
@[simp] theorem State.acknowledge_n : s.acknowledge.n = s.n := rfl
@[simp] theorem State.acknowledge_busy : s.acknowledge.busy = s.busy := rfl
@[simp] theorem State.acknowledge_done : s.acknowledge.done = s.done := rfl
@[simp] theorem State.acknowledge_err : s.acknowledge.err = false := rfl
@[simp] theorem State.acknowledge_drop : s.acknowledge.drop = s.drop := rfl
@[simp] theorem State.acknowledge_ecode : s.acknowledge.ecode = 0 := rfl
@[simp] theorem State.acknowledge_ie : s.acknowledge.ie = s.ie := rfl
@[simp] theorem State.acknowledge_ecmd : s.acknowledge.ecmd = 0 := rfl
@[simp] theorem State.acknowledge_sa : s.acknowledge.sa = s.sa := rfl
@[simp] theorem State.acknowledge_sb : s.acknowledge.sb = s.sb := rfl
@[simp] theorem State.acknowledge_sres : s.acknowledge.sres = s.sres := rfl
@[simp] theorem State.acknowledge_olen : s.acknowledge.olen = s.olen := rfl
@[simp] theorem State.acknowledge_osign : s.acknowledge.osign = s.osign := rfl
@[simp] theorem State.acknowledge_obuf : s.acknowledge.obuf = s.obuf := rfl
@[simp] theorem State.acknowledge_cur : s.acknowledge.cur = s.cur := rfl
@[simp] theorem State.acknowledge_inputs : s.acknowledge.inputs = s.inputs := rfl
@[simp] theorem State.acknowledge_resp : s.acknowledge.resp = s.resp := rfl
@[simp] theorem State.acknowledge_epoch : s.acknowledge.epoch = s.epoch := rfl
@[simp] theorem State.acknowledge_strays : s.acknowledge.strays = s.strays := rfl

/-! ### State.accept -/

@[simp] theorem State.accept_params (c : Word) : (s.accept c).params = s.params := rfl
@[simp] theorem State.accept_regs (c : Word) : (s.accept c).regs = s.regs := rfl
@[simp] theorem State.accept_z (c : Word) : (s.accept c).z = s.z := rfl
@[simp] theorem State.accept_n (c : Word) : (s.accept c).n = s.n := rfl
@[simp] theorem State.accept_busy (c : Word) : (s.accept c).busy = true := rfl
@[simp] theorem State.accept_done (c : Word) : (s.accept c).done = false := rfl
@[simp] theorem State.accept_err (c : Word) : (s.accept c).err = s.err := rfl
@[simp] theorem State.accept_drop (c : Word) : (s.accept c).drop = s.drop := rfl
@[simp] theorem State.accept_ecode (c : Word) : (s.accept c).ecode = s.ecode := rfl
@[simp] theorem State.accept_ie (c : Word) : (s.accept c).ie = s.ie := rfl
@[simp] theorem State.accept_ecmd (c : Word) : (s.accept c).ecmd = s.ecmd := rfl
@[simp] theorem State.accept_sa (c : Word) : (s.accept c).sa = s.sa := rfl
@[simp] theorem State.accept_sb (c : Word) : (s.accept c).sb = s.sb := rfl
@[simp] theorem State.accept_sres (c : Word) : (s.accept c).sres = s.sres := rfl
@[simp] theorem State.accept_olen (c : Word) : (s.accept c).olen = s.olen := rfl
@[simp] theorem State.accept_osign (c : Word) : (s.accept c).osign = s.osign := rfl
@[simp] theorem State.accept_obuf (c : Word) : (s.accept c).obuf = s.obuf := rfl
@[simp] theorem State.accept_cur (c : Word) : (s.accept c).cur = c := rfl
@[simp] theorem State.accept_inputs (c : Word) : (s.accept c).inputs = s.inputs := rfl
@[simp] theorem State.accept_resp (c : Word) : (s.accept c).resp = s.resp := rfl
@[simp] theorem State.accept_epoch (c : Word) : (s.accept c).epoch = s.epoch := rfl
@[simp] theorem State.accept_strays (c : Word) : (s.accept c).strays = s.strays := rfl

/-! ### State.dropWrite -/

@[simp] theorem State.dropWrite_params : s.dropWrite.params = s.params := rfl
@[simp] theorem State.dropWrite_regs : s.dropWrite.regs = s.regs := rfl
@[simp] theorem State.dropWrite_z : s.dropWrite.z = s.z := rfl
@[simp] theorem State.dropWrite_n : s.dropWrite.n = s.n := rfl
@[simp] theorem State.dropWrite_busy : s.dropWrite.busy = s.busy := rfl
@[simp] theorem State.dropWrite_done : s.dropWrite.done = s.done := rfl
@[simp] theorem State.dropWrite_err : s.dropWrite.err = s.err := rfl
@[simp] theorem State.dropWrite_drop : s.dropWrite.drop = true := rfl
@[simp] theorem State.dropWrite_ecode : s.dropWrite.ecode = s.ecode := rfl
@[simp] theorem State.dropWrite_ie : s.dropWrite.ie = s.ie := rfl
@[simp] theorem State.dropWrite_ecmd : s.dropWrite.ecmd = s.ecmd := rfl
@[simp] theorem State.dropWrite_sa : s.dropWrite.sa = s.sa := rfl
@[simp] theorem State.dropWrite_sb : s.dropWrite.sb = s.sb := rfl
@[simp] theorem State.dropWrite_sres : s.dropWrite.sres = s.sres := rfl
@[simp] theorem State.dropWrite_olen : s.dropWrite.olen = s.olen := rfl
@[simp] theorem State.dropWrite_osign : s.dropWrite.osign = s.osign := rfl
@[simp] theorem State.dropWrite_obuf : s.dropWrite.obuf = s.obuf := rfl
@[simp] theorem State.dropWrite_cur : s.dropWrite.cur = s.cur := rfl
@[simp] theorem State.dropWrite_inputs : s.dropWrite.inputs = s.inputs := rfl
@[simp] theorem State.dropWrite_resp : s.dropWrite.resp = s.resp := rfl
@[simp] theorem State.dropWrite_epoch : s.dropWrite.epoch = s.epoch := rfl
@[simp] theorem State.dropWrite_strays : s.dropWrite.strays = s.strays := rfl

/-! ### State.respond -/

@[simp] theorem State.respond_params (r : Response) : (s.respond r).params = s.params := rfl
@[simp] theorem State.respond_regs (r : Response) : (s.respond r).regs = s.regs := rfl
@[simp] theorem State.respond_z (r : Response) : (s.respond r).z = s.z := rfl
@[simp] theorem State.respond_n (r : Response) : (s.respond r).n = s.n := rfl
@[simp] theorem State.respond_busy (r : Response) : (s.respond r).busy = s.busy := rfl
@[simp] theorem State.respond_done (r : Response) : (s.respond r).done = s.done := rfl
@[simp] theorem State.respond_err (r : Response) : (s.respond r).err = s.err := rfl
@[simp] theorem State.respond_drop (r : Response) : (s.respond r).drop = s.drop := rfl
@[simp] theorem State.respond_ecode (r : Response) : (s.respond r).ecode = s.ecode := rfl
@[simp] theorem State.respond_ie (r : Response) : (s.respond r).ie = s.ie := rfl
@[simp] theorem State.respond_ecmd (r : Response) : (s.respond r).ecmd = s.ecmd := rfl
@[simp] theorem State.respond_sa (r : Response) : (s.respond r).sa = s.sa := rfl
@[simp] theorem State.respond_sb (r : Response) : (s.respond r).sb = s.sb := rfl
@[simp] theorem State.respond_sres (r : Response) : (s.respond r).sres = s.sres := rfl
@[simp] theorem State.respond_olen (r : Response) : (s.respond r).olen = s.olen := rfl
@[simp] theorem State.respond_osign (r : Response) : (s.respond r).osign = s.osign := rfl
@[simp] theorem State.respond_obuf (r : Response) : (s.respond r).obuf = s.obuf := rfl
@[simp] theorem State.respond_cur (r : Response) : (s.respond r).cur = s.cur := rfl
@[simp] theorem State.respond_inputs (r : Response) : (s.respond r).inputs = s.inputs := rfl
@[simp] theorem State.respond_resp (r : Response) : (s.respond r).resp = r := rfl
@[simp] theorem State.respond_epoch (r : Response) : (s.respond r).epoch = s.epoch := rfl
@[simp] theorem State.respond_strays (r : Response) : (s.respond r).strays = s.strays := rfl

/-! ### State.stray -/

@[simp] theorem State.stray_params : s.stray.params = s.params := rfl
@[simp] theorem State.stray_regs : s.stray.regs = s.regs := rfl
@[simp] theorem State.stray_z : s.stray.z = s.z := rfl
@[simp] theorem State.stray_n : s.stray.n = s.n := rfl
@[simp] theorem State.stray_busy : s.stray.busy = s.busy := rfl
@[simp] theorem State.stray_done : s.stray.done = s.done := rfl
@[simp] theorem State.stray_err : s.stray.err = s.err := rfl
@[simp] theorem State.stray_drop : s.stray.drop = s.drop := rfl
@[simp] theorem State.stray_ecode : s.stray.ecode = s.ecode := rfl
@[simp] theorem State.stray_ie : s.stray.ie = s.ie := rfl
@[simp] theorem State.stray_ecmd : s.stray.ecmd = s.ecmd := rfl
@[simp] theorem State.stray_sa : s.stray.sa = s.sa := rfl
@[simp] theorem State.stray_sb : s.stray.sb = s.sb := rfl
@[simp] theorem State.stray_sres : s.stray.sres = s.sres := rfl
@[simp] theorem State.stray_olen : s.stray.olen = s.olen := rfl
@[simp] theorem State.stray_osign : s.stray.osign = s.osign := rfl
@[simp] theorem State.stray_obuf : s.stray.obuf = s.obuf := rfl
@[simp] theorem State.stray_cur : s.stray.cur = s.cur := rfl
@[simp] theorem State.stray_inputs : s.stray.inputs = s.inputs := rfl
@[simp] theorem State.stray_resp : s.stray.resp = Config.platformResponse s.epoch s.strays := rfl
@[simp] theorem State.stray_epoch : s.stray.epoch = s.epoch := rfl
@[simp] theorem State.stray_strays : s.stray.strays = s.strays + 1 := rfl

/-! ### State.setInputs -/

@[simp] theorem State.setInputs_params (l : List Event) : (s.setInputs l).params = s.params := rfl
@[simp] theorem State.setInputs_regs (l : List Event) : (s.setInputs l).regs = s.regs := rfl
@[simp] theorem State.setInputs_z (l : List Event) : (s.setInputs l).z = s.z := rfl
@[simp] theorem State.setInputs_n (l : List Event) : (s.setInputs l).n = s.n := rfl
@[simp] theorem State.setInputs_busy (l : List Event) : (s.setInputs l).busy = s.busy := rfl
@[simp] theorem State.setInputs_done (l : List Event) : (s.setInputs l).done = s.done := rfl
@[simp] theorem State.setInputs_err (l : List Event) : (s.setInputs l).err = s.err := rfl
@[simp] theorem State.setInputs_drop (l : List Event) : (s.setInputs l).drop = s.drop := rfl
@[simp] theorem State.setInputs_ecode (l : List Event) : (s.setInputs l).ecode = s.ecode := rfl
@[simp] theorem State.setInputs_ie (l : List Event) : (s.setInputs l).ie = s.ie := rfl
@[simp] theorem State.setInputs_ecmd (l : List Event) : (s.setInputs l).ecmd = s.ecmd := rfl
@[simp] theorem State.setInputs_sa (l : List Event) : (s.setInputs l).sa = s.sa := rfl
@[simp] theorem State.setInputs_sb (l : List Event) : (s.setInputs l).sb = s.sb := rfl
@[simp] theorem State.setInputs_sres (l : List Event) : (s.setInputs l).sres = s.sres := rfl
@[simp] theorem State.setInputs_olen (l : List Event) : (s.setInputs l).olen = s.olen := rfl
@[simp] theorem State.setInputs_osign (l : List Event) : (s.setInputs l).osign = s.osign := rfl
@[simp] theorem State.setInputs_obuf (l : List Event) : (s.setInputs l).obuf = s.obuf := rfl
@[simp] theorem State.setInputs_cur (l : List Event) : (s.setInputs l).cur = s.cur := rfl
@[simp] theorem State.setInputs_inputs (l : List Event) : (s.setInputs l).inputs = l := rfl
@[simp] theorem State.setInputs_resp (l : List Event) : (s.setInputs l).resp = s.resp := rfl
@[simp] theorem State.setInputs_epoch (l : List Event) : (s.setInputs l).epoch = s.epoch := rfl
@[simp] theorem State.setInputs_strays (l : List Event) : (s.setInputs l).strays = s.strays := rfl

/-! ### State.setObufWord -/

@[simp] theorem State.setObufWord_params (i : Nat) (w : Word) : (s.setObufWord i w).params = s.params := rfl
@[simp] theorem State.setObufWord_regs (i : Nat) (w : Word) : (s.setObufWord i w).regs = s.regs := rfl
@[simp] theorem State.setObufWord_z (i : Nat) (w : Word) : (s.setObufWord i w).z = s.z := rfl
@[simp] theorem State.setObufWord_n (i : Nat) (w : Word) : (s.setObufWord i w).n = s.n := rfl
@[simp] theorem State.setObufWord_busy (i : Nat) (w : Word) : (s.setObufWord i w).busy = s.busy := rfl
@[simp] theorem State.setObufWord_done (i : Nat) (w : Word) : (s.setObufWord i w).done = s.done := rfl
@[simp] theorem State.setObufWord_err (i : Nat) (w : Word) : (s.setObufWord i w).err = s.err := rfl
@[simp] theorem State.setObufWord_drop (i : Nat) (w : Word) : (s.setObufWord i w).drop = s.drop := rfl
@[simp] theorem State.setObufWord_ecode (i : Nat) (w : Word) : (s.setObufWord i w).ecode = s.ecode := rfl
@[simp] theorem State.setObufWord_ie (i : Nat) (w : Word) : (s.setObufWord i w).ie = s.ie := rfl
@[simp] theorem State.setObufWord_ecmd (i : Nat) (w : Word) : (s.setObufWord i w).ecmd = s.ecmd := rfl
@[simp] theorem State.setObufWord_sa (i : Nat) (w : Word) : (s.setObufWord i w).sa = s.sa := rfl
@[simp] theorem State.setObufWord_sb (i : Nat) (w : Word) : (s.setObufWord i w).sb = s.sb := rfl
@[simp] theorem State.setObufWord_sres (i : Nat) (w : Word) : (s.setObufWord i w).sres = s.sres := rfl
@[simp] theorem State.setObufWord_olen (i : Nat) (w : Word) : (s.setObufWord i w).olen = s.olen := rfl
@[simp] theorem State.setObufWord_osign (i : Nat) (w : Word) : (s.setObufWord i w).osign = s.osign := rfl
@[simp] theorem State.setObufWord_obuf (i : Nat) (w : Word) : (s.setObufWord i w).obuf = putWord s.obuf (obufOffset i) w := rfl
@[simp] theorem State.setObufWord_cur (i : Nat) (w : Word) : (s.setObufWord i w).cur = s.cur := rfl
@[simp] theorem State.setObufWord_inputs (i : Nat) (w : Word) : (s.setObufWord i w).inputs = s.inputs := rfl
@[simp] theorem State.setObufWord_resp (i : Nat) (w : Word) : (s.setObufWord i w).resp = s.resp := rfl
@[simp] theorem State.setObufWord_epoch (i : Nat) (w : Word) : (s.setObufWord i w).epoch = s.epoch := rfl
@[simp] theorem State.setObufWord_strays (i : Nat) (w : Word) : (s.setObufWord i w).strays = s.strays := rfl

/-! ### State.storeBuffer -/

@[simp] theorem State.storeBuffer_params (x : BigInt) : (s.storeBuffer x).params = s.params := rfl
@[simp] theorem State.storeBuffer_regs (x : BigInt) : (s.storeBuffer x).regs = s.regs := rfl
@[simp] theorem State.storeBuffer_z (x : BigInt) : (s.storeBuffer x).z = s.z := rfl
@[simp] theorem State.storeBuffer_n (x : BigInt) : (s.storeBuffer x).n = s.n := rfl
@[simp] theorem State.storeBuffer_busy (x : BigInt) : (s.storeBuffer x).busy = s.busy := rfl
@[simp] theorem State.storeBuffer_done (x : BigInt) : (s.storeBuffer x).done = s.done := rfl
@[simp] theorem State.storeBuffer_err (x : BigInt) : (s.storeBuffer x).err = s.err := rfl
@[simp] theorem State.storeBuffer_drop (x : BigInt) : (s.storeBuffer x).drop = s.drop := rfl
@[simp] theorem State.storeBuffer_ecode (x : BigInt) : (s.storeBuffer x).ecode = s.ecode := rfl
@[simp] theorem State.storeBuffer_ie (x : BigInt) : (s.storeBuffer x).ie = s.ie := rfl
@[simp] theorem State.storeBuffer_ecmd (x : BigInt) : (s.storeBuffer x).ecmd = s.ecmd := rfl
@[simp] theorem State.storeBuffer_sa (x : BigInt) : (s.storeBuffer x).sa = s.sa := rfl
@[simp] theorem State.storeBuffer_sb (x : BigInt) : (s.storeBuffer x).sb = s.sb := rfl
@[simp] theorem State.storeBuffer_sres (x : BigInt) : (s.storeBuffer x).sres = s.sres := rfl
@[simp] theorem State.storeBuffer_olen (x : BigInt) : (s.storeBuffer x).olen = BitVec.ofNat 16 x.len := rfl
@[simp] theorem State.storeBuffer_osign (x : BigInt) : (s.storeBuffer x).osign = x.sign := rfl
@[simp] theorem State.storeBuffer_obuf (x : BigInt) : (s.storeBuffer x).obuf = wordCells obufBase (x.limbs ++ List.replicate (s.params.lmax - x.len) 0) := rfl
@[simp] theorem State.storeBuffer_cur (x : BigInt) : (s.storeBuffer x).cur = s.cur := rfl
@[simp] theorem State.storeBuffer_inputs (x : BigInt) : (s.storeBuffer x).inputs = s.inputs := rfl
@[simp] theorem State.storeBuffer_resp (x : BigInt) : (s.storeBuffer x).resp = s.resp := rfl
@[simp] theorem State.storeBuffer_epoch (x : BigInt) : (s.storeBuffer x).epoch = s.epoch := rfl
@[simp] theorem State.storeBuffer_strays (x : BigInt) : (s.storeBuffer x).strays = s.strays := rfl

/-! ### State.setZN, State.setZScalar -/

@[simp] theorem State.setZN_params (v : Int) : (s.setZN v).params = s.params := rfl
@[simp] theorem State.setZN_regs (v : Int) : (s.setZN v).regs = s.regs := rfl
@[simp] theorem State.setZN_z (v : Int) : (s.setZN v).z = decide (v = 0) := rfl
@[simp] theorem State.setZN_n (v : Int) : (s.setZN v).n = decide (v < 0) := rfl
@[simp] theorem State.setZN_busy (v : Int) : (s.setZN v).busy = s.busy := rfl
@[simp] theorem State.setZN_done (v : Int) : (s.setZN v).done = s.done := rfl
@[simp] theorem State.setZN_err (v : Int) : (s.setZN v).err = s.err := rfl
@[simp] theorem State.setZN_drop (v : Int) : (s.setZN v).drop = s.drop := rfl
@[simp] theorem State.setZN_ecode (v : Int) : (s.setZN v).ecode = s.ecode := rfl
@[simp] theorem State.setZN_ie (v : Int) : (s.setZN v).ie = s.ie := rfl
@[simp] theorem State.setZN_ecmd (v : Int) : (s.setZN v).ecmd = s.ecmd := rfl
@[simp] theorem State.setZN_sa (v : Int) : (s.setZN v).sa = s.sa := rfl
@[simp] theorem State.setZN_sb (v : Int) : (s.setZN v).sb = s.sb := rfl
@[simp] theorem State.setZN_sres (v : Int) : (s.setZN v).sres = s.sres := rfl
@[simp] theorem State.setZN_olen (v : Int) : (s.setZN v).olen = s.olen := rfl
@[simp] theorem State.setZN_osign (v : Int) : (s.setZN v).osign = s.osign := rfl
@[simp] theorem State.setZN_obuf (v : Int) : (s.setZN v).obuf = s.obuf := rfl
@[simp] theorem State.setZN_cur (v : Int) : (s.setZN v).cur = s.cur := rfl
@[simp] theorem State.setZN_inputs (v : Int) : (s.setZN v).inputs = s.inputs := rfl
@[simp] theorem State.setZN_resp (v : Int) : (s.setZN v).resp = s.resp := rfl
@[simp] theorem State.setZN_epoch (v : Int) : (s.setZN v).epoch = s.epoch := rfl
@[simp] theorem State.setZN_strays (v : Int) : (s.setZN v).strays = s.strays := rfl
@[simp] theorem State.setZScalar_params (v : Word) : (s.setZScalar v).params = s.params := rfl
@[simp] theorem State.setZScalar_regs (v : Word) : (s.setZScalar v).regs = s.regs := rfl
@[simp] theorem State.setZScalar_z (v : Word) : (s.setZScalar v).z = decide (v = 0) := rfl
@[simp] theorem State.setZScalar_n (v : Word) : (s.setZScalar v).n = false := rfl
@[simp] theorem State.setZScalar_busy (v : Word) : (s.setZScalar v).busy = s.busy := rfl
@[simp] theorem State.setZScalar_done (v : Word) : (s.setZScalar v).done = s.done := rfl
@[simp] theorem State.setZScalar_err (v : Word) : (s.setZScalar v).err = s.err := rfl
@[simp] theorem State.setZScalar_drop (v : Word) : (s.setZScalar v).drop = s.drop := rfl
@[simp] theorem State.setZScalar_ecode (v : Word) : (s.setZScalar v).ecode = s.ecode := rfl
@[simp] theorem State.setZScalar_ie (v : Word) : (s.setZScalar v).ie = s.ie := rfl
@[simp] theorem State.setZScalar_ecmd (v : Word) : (s.setZScalar v).ecmd = s.ecmd := rfl
@[simp] theorem State.setZScalar_sa (v : Word) : (s.setZScalar v).sa = s.sa := rfl
@[simp] theorem State.setZScalar_sb (v : Word) : (s.setZScalar v).sb = s.sb := rfl
@[simp] theorem State.setZScalar_sres (v : Word) : (s.setZScalar v).sres = s.sres := rfl
@[simp] theorem State.setZScalar_olen (v : Word) : (s.setZScalar v).olen = s.olen := rfl
@[simp] theorem State.setZScalar_osign (v : Word) : (s.setZScalar v).osign = s.osign := rfl
@[simp] theorem State.setZScalar_obuf (v : Word) : (s.setZScalar v).obuf = s.obuf := rfl
@[simp] theorem State.setZScalar_cur (v : Word) : (s.setZScalar v).cur = s.cur := rfl
@[simp] theorem State.setZScalar_inputs (v : Word) : (s.setZScalar v).inputs = s.inputs := rfl
@[simp] theorem State.setZScalar_resp (v : Word) : (s.setZScalar v).resp = s.resp := rfl
@[simp] theorem State.setZScalar_epoch (v : Word) : (s.setZScalar v).epoch = s.epoch := rfl
@[simp] theorem State.setZScalar_strays (v : Word) : (s.setZScalar v).strays = s.strays := rfl

end Sys2Proof.Machine
end

