-- ==== Sys2Proof/Laws/Ops.lean ====
section
/-! SUPPORT. One specification lemma per shared operation: the byte cells of the limb buffer and their canonical form, the
words of OBUF, and the ways a command ends. -/

namespace Sys2Proof.Machine

/-! ### Byte cells -/

theorem cellAt_putCell (m : List Host.Cell) (a : Nat) (v : Byte) (b : Nat) :
    cellAt (putCell m a v) b = if b = a then some v else cellAt m b := by
  induction m with
  | nil => simp [putCell, cellAt, eq_comm]
  | cons c m ih =>
    obtain ⟨k, w⟩ := c
    unfold putCell
    by_cases h1 : a < k
    · simp only [if_pos h1, cellAt, eq_comm]
    · by_cases h2 : a = k
      · subst h2
        rw [if_neg h1, if_pos rfl]
        by_cases h3 : b = a
        · simp [cellAt, h3]
        · simp [cellAt, h3, Ne.symm h3]
      · rw [if_neg h1, if_neg h2]
        by_cases h3 : k = b
        · have : b ≠ a := by omega
          simp [cellAt, h3, this]
        · simp [cellAt, h3, ih]

theorem mem_putCell {m : List Host.Cell} {a : Nat} {v : Byte} {c : Host.Cell} (h : c ∈ putCell m a v) :
    c = (a, v) ∨ c ∈ m := by
  induction m with
  | nil => simpa [putCell] using h
  | cons d m ih =>
    obtain ⟨k, w⟩ := d
    unfold putCell at h
    split at h
    · simpa using h
    · split at h
      · rcases List.mem_cons.1 h with h | h
        · exact .inl h
        · exact .inr (List.mem_cons_of_mem _ h)
      · rcases List.mem_cons.1 h with h | h
        · exact .inr (h ▸ List.mem_cons_self)
        · exact (ih h).imp id (List.mem_cons_of_mem _)

/-- A write of one byte keeps the canonical form. -/
theorem putCell_wf {m : List Host.Cell} (h : Memory.wf m) (a : Nat) (v : Byte) : Memory.wf (putCell m a v) := by
  induction m with
  | nil => simp [putCell]
  | cons d m ih =>
    obtain ⟨k, w⟩ := d
    have hc := List.pairwise_cons.1 h
    unfold putCell
    split
    · rename_i h1
      refine List.pairwise_cons.2 ⟨fun c hcm => ?_, h⟩
      rcases List.mem_cons.1 hcm with e | e
      · subst e; exact h1
      · exact lt_trans h1 (hc.1 c e)
    · split
      · rename_i h2
        subst h2
        exact List.pairwise_cons.2 ⟨hc.1, hc.2⟩
      · rename_i h1 h2
        refine List.pairwise_cons.2 ⟨fun c hcm => ?_, ih hc.2⟩
        rcases mem_putCell hcm with e | e
        · subst e; show k < a; omega
        · exact hc.1 c e

/-- A write of one word keeps the canonical form. -/
theorem putWord_wf {m : List Host.Cell} (h : Memory.wf m) (a : Nat) (w : Word) : Memory.wf (putWord m a w) :=
  putCell_wf (putCell_wf (putCell_wf (putCell_wf h _ _) _ _) _ _) _ _

theorem mem_putWord {m : List Host.Cell} {a : Nat} {w : Word} {c : Host.Cell} (h : c ∈ putWord m a w) :
    (a ≤ c.1 ∧ c.1 < a + 4) ∨ c ∈ m := by
  unfold putWord at h
  rcases mem_putCell h with e | h
  · subst e; exact .inl ⟨by simp, by simp⟩
  rcases mem_putCell h with e | h
  · subst e; exact .inl ⟨by simp, by simp⟩
  rcases mem_putCell h with e | h
  · subst e; exact .inl ⟨by simp, by simp⟩
  rcases mem_putCell h with e | h
  · subst e; exact .inl ⟨by simp, by simp⟩
  exact .inr h

theorem cellAt_putWord (m : List Host.Cell) (a : Nat) (w : Word) (b : Nat) :
    cellAt (putWord m a w) b = if a ≤ b ∧ b < a + 4 then some (byteOf w (b - a)) else cellAt m b := by
  unfold putWord
  simp only [cellAt_putCell]
  by_cases h : a ≤ b ∧ b < a + 4
  · rw [if_pos h]
    obtain h | h | h | h : b = a ∨ b = a + 1 ∨ b = a + 2 ∨ b = a + 3 := by omega
    all_goals subst h; simp
  · rw [if_neg h, if_neg (by omega), if_neg (by omega), if_neg (by omega), if_neg (by omega)]

/-- A word is its four bytes, the lowest address the least significant. -/
theorem byteOf_append (w : Word) : byteOf w 3 ++ byteOf w 2 ++ byteOf w 1 ++ byteOf w 0 = w := by
  unfold byteOf
  apply BitVec.eq_of_toNat_eq
  have := w.isLt
  simp only [BitVec.toNat_append, BitVec.extractLsb'_toNat, Nat.shiftRight_eq_div_pow]
  rw [← Nat.shiftLeft_add_eq_or_of_lt (by omega), ← Nat.shiftLeft_add_eq_or_of_lt (by omega),
    ← Nat.shiftLeft_add_eq_or_of_lt (by omega)]
  simp only [Nat.shiftLeft_eq]
  omega

/-! ### The cells of a whole buffer -/

theorem mem_wordCells {a : Nat} {ws : Limbs} {c : Host.Cell} (h : c ∈ wordCells a ws) :
    a ≤ c.1 ∧ c.1 < a + 4 * ws.length := by
  induction ws generalizing a with
  | nil => simp [wordCells] at h
  | cons w ws ih =>
    simp only [wordCells, List.mem_cons] at h
    simp only [List.length_cons]
    rcases h with e | e | e | e | h
    · subst e; exact ⟨by simp, by simp⟩
    · subst e; exact ⟨by simp, by simp; omega⟩
    · subst e; exact ⟨by simp, by simp; omega⟩
    · subst e; exact ⟨by simp, by simp; omega⟩
    · have := ih h; omega

/-- ST's buffer is in canonical form. -/
theorem wordCells_wf (a : Nat) (ws : Limbs) : Memory.wf (wordCells a ws) := by
  induction ws generalizing a with
  | nil => simp [wordCells]
  | cons w ws ih =>
    have hr : ∀ c ∈ wordCells (a + 4) ws, a + 4 ≤ c.1 := fun c h => (mem_wordCells h).1
    have h3 := (List.pairwise_cons (a := (a + 3, byteOf w 3))).2 ⟨fun c hc => Nat.lt_of_lt_of_le (Nat.lt_succ_self _) (hr c hc), ih (a + 4)⟩
    refine List.pairwise_cons.2 ⟨fun c hc => ?_, List.pairwise_cons.2 ⟨fun c hc => ?_, List.pairwise_cons.2 ⟨fun c hc => ?_, h3⟩⟩⟩
    · simp only [List.mem_cons] at hc
      rcases hc with e | e | e | h
      · subst e; simp
      · subst e; simp
      · subst e; simp
      · have := hr c h; show a < c.1; omega
    · simp only [List.mem_cons] at hc
      rcases hc with e | e | h
      · subst e; simp
      · subst e; simp
      · have := hr c h; show a + 1 < c.1; omega
    · simp only [List.mem_cons] at hc
      rcases hc with e | h
      · subst e; simp
      · have := hr c h; show a + 2 < c.1; omega

theorem cellAt_wordCells (a : Nat) (ws : Limbs) (i k : Nat) (hi : i < ws.length) (hk : k < 4) :
    cellAt (wordCells a ws) (a + 4 * i + k) = some (byteOf (limbAt ws i) k) := by
  induction ws generalizing a i with
  | nil => simp at hi
  | cons w ws ih =>
    cases i with
    | zero =>
      obtain h | h | h | h : k = 0 ∨ k = 1 ∨ k = 2 ∨ k = 3 := by omega
      all_goals subst h; simp [wordCells, cellAt, limbAt]
    | succ i =>
      have := ih (a + 4) i (by simpa using hi)
      rw [show a + 4 * (i + 1) + k = a + 4 + 4 * i + k by ring]
      simp only [wordCells, cellAt]
      rw [if_neg (by omega), if_neg (by omega), if_neg (by omega), if_neg (by omega), this, limbAt_cons_succ]

/-! ### OBUF as words -/

theorem State.readWord_of_cells (s : State) (a : Nat) (w : Word)
    (h : ∀ k, k < 4 → cellAt s.obuf (a + k) = some (byteOf w k)) : s.readWord a = w := by
  unfold State.readWord State.readByte
  rw [h 3 (by norm_num), h 2 (by norm_num), h 1 (by norm_num)]
  have h0 := h 0 (by norm_num)
  rw [Nat.add_zero] at h0
  rw [h0]
  exact byteOf_append w

/-- A byte outside the word written keeps what it held. -/
theorem State.readByte_setObufWord (s : State) (i : Nat) (w : Word) (a : Nat)
    (h : ¬ (obufOffset i ≤ a ∧ a < obufOffset i + 4)) : (s.setObufWord i w).readByte a = s.readByte a := by
  simp [State.readByte, State.setObufWord, cellAt_putWord, if_neg h]

/-- Read after write. -/
@[simp] theorem State.obufWord_setObufWord_self (s : State) (i : Nat) (w : Word) :
    (s.setObufWord i w).obufWord i = w := by
  apply State.readWord_of_cells
  intro k hk
  simp only [State.setObufWord, cellAt_putWord]
  rw [if_pos (by omega)]
  congr 2; omega

/-- A write of one word leaves the others alone. -/
theorem State.obufWord_setObufWord_of_ne (s : State) (i j : Nat) (w : Word) (h : j ≠ i) :
    (s.setObufWord i w).obufWord j = s.obufWord j := by
  unfold State.obufWord State.readWord
  have hd : 4 * j + 4 ≤ 4 * i ∨ 4 * i + 4 ≤ 4 * j := by omega
  rw [State.readByte_setObufWord _ _ _ _ (by unfold obufOffset; omega),
    State.readByte_setObufWord _ _ _ _ (by unfold obufOffset; omega),
    State.readByte_setObufWord _ _ _ _ (by unfold obufOffset; omega),
    State.readByte_setObufWord _ _ _ _ (by unfold obufOffset; omega)]

/-- The host's write keeps the buffer's form and range. -/
theorem State.bufferOk_setObufWord (s : State) (i : Nat) (w : Word) (h : s.BufferOk) (hi : i < s.params.lmax) :
    (s.setObufWord i w).BufferOk := by
  refine ⟨putWord_wf h.1 _ _, fun c hc => ?_⟩
  rcases mem_putWord hc with e | e
  · simp only [obufOffset] at e
    simp only [State.setObufWord_params]
    omega
  · exact h.2 c e

theorem State.length_stored (s : State) (x : BigInt) (h : x.len ≤ s.params.lmax) :
    (x.limbs ++ List.replicate (s.params.lmax - x.len) (0 : Word)).length = s.params.lmax := by
  simp only [List.length_append, List.length_replicate]
  unfold BigInt.len at *; omega

/-- ST's buffer: every limb of the value, and zero above (40 R121). -/
theorem State.obufWord_storeBuffer (s : State) (x : BigInt) (h : x.len ≤ s.params.lmax) (i : Nat)
    (hi : i < s.params.lmax) : (s.storeBuffer x).obufWord i = limbAt x.limbs i := by
  apply State.readWord_of_cells
  intro k hk
  have := cellAt_wordCells obufBase (x.limbs ++ List.replicate (s.params.lmax - x.len) 0) i k
    (by rw [s.length_stored x h]; exact hi) hk
  simp only [State.storeBuffer, obufOffset]
  rw [this]
  congr 2
  simp only [limbAt, List.getD_eq_getElem?_getD, List.getElem?_append, List.getElem?_replicate]
  split
  · rfl
  · rw [List.getElem?_eq_none (by omega)]
    split <;> rfl

/-- ST's buffer is in canonical form and range. -/
theorem State.bufferOk_storeBuffer (s : State) (x : BigInt) (h : x.len ≤ s.params.lmax) : (s.storeBuffer x).BufferOk := by
  refine ⟨wordCells_wf _ _, fun c hc => ?_⟩
  have := mem_wordCells hc
  rw [s.length_stored x h] at this
  exact this

/-- The magnitude of limbs given by index is the sum of R120. -/
theorem mag_map_range (f : Nat → Word) (n : Nat) :
    mag ((List.range n).map f) = ∑ i ∈ Finset.range n, (f i).toNat * 2 ^ (32 * i) := by
  induction n with
  | zero => rfl
  | succ n ih =>
    rw [List.range_succ, List.map_append, mag_append, ih, Finset.sum_range_succ, List.map_singleton, mag_singleton,
      List.length_map, List.length_range, radix_pow]
    ring

theorem State.mag_obufLimbs (s : State) (n : Nat) :
    mag (s.obufLimbs n) = ∑ i ∈ Finset.range n, (s.obufWord i).toNat * 2 ^ (32 * i) := mag_map_range _ n

/-- The magnitude that LD reads always fits (40 R120, Errors). -/
theorem State.mag_obufLimbs_lt (s : State) (n : Nat) : mag (s.obufLimbs n) < 2 ^ (32 * n) := by
  have := mag_lt (s.obufLimbs n)
  rwa [radix_pow, State.obufLimbs, List.length_map, List.length_range] at this

/-! ### Registers -/

theorem State.reg_setReg (s : State) (i j : BigReg) (v : Int) :
    (s.setReg i v).reg j = if j = i then big v else s.reg j := by
  unfold State.reg State.setReg
  by_cases h : j = i
  · subst h; simp
  · rw [if_neg h]
    simp only [Fin.getElem_fin]
    rw [Vector.getElem_set_ne]
    exact fun e => h (Fin.ext e.symm)

/-! ### How a command ends -/

/-- Every register of a state that keeps the invariant is a value within the capacity. -/
theorem State.Inv.capacity {s : State} (h : s.Inv) (i : BigReg) : s.Capacity (s.regVal i) := by
  have h1 := (h.2.1 i).1
  have h2 := (h.2.1 i).2
  rw [h1.len_eq, lenOf_le_iff _ _ (by have := h.1.1; omega)] at h2
  exact h2

/-- The capacity check in bits (60 R285). -/
theorem State.fits_iff (s : State) (hp : s.params.Ok) (v : Int) : s.fits v ↔ s.Capacity v :=
  lenOf_le_iff v s.params.lmax (by have := hp.1; omega)

/-- Taking an error is `afterError` of its code (60 R283). -/
theorem State.raise_eq (s : State) (e : ErrorKind) : s.raise e = s.afterError e.code := rfl

/-- The end of a command that writes one big register, when the value fits. -/
theorem State.finishBig_fits (s : State) (rd : BigReg) (v : Int) (h : s.fits v) : s.finishBig rd v = s.afterBig rd v := by
  simp only [State.finishBig, if_pos h]; rfl

/-- The same, when it does not (60 R285). -/
theorem State.finishBig_overflow (s : State) (rd : BigReg) (v : Int) (h : ¬ s.fits v) :
    s.finishBig rd v = s.afterError 4 := by
  simp only [State.finishBig, if_neg h]; rfl

/-- The end of BEZOUT, when both values fit (45 R244). -/
theorem State.finishBigPair_fits (s : State) (rd rc : BigReg) (v w : Int) (h : s.fits v ∧ s.fits w) :
    s.finishBigPair rd rc v w = s.afterPair rd rc v w := by
  simp only [State.finishBigPair, if_pos h]; rfl

/-- The same, when one does not: neither register is written. -/
theorem State.finishBigPair_overflow (s : State) (rd rc : BigReg) (v w : Int) (h : ¬ (s.fits v ∧ s.fits w)) :
    s.finishBigPair rd rc v w = s.afterError 4 := by
  simp only [State.finishBigPair, if_neg h]; rfl

/-- The end of a command that writes SRES. -/
theorem State.finishScalar_eq (s : State) (v : Nat) :
    s.finishScalar v = s.afterScalar (BitVec.ofNat 32 v) (decide (BitVec.ofNat 32 v = 0)) false := rfl

/-- The memory right after reset is in canonical form. -/
theorem State.resetOf_wf (p : Params) (e : Nat) (l : List Event) : Memory.wf (State.resetOf p e l).obuf :=
  List.Pairwise.nil

end Sys2Proof.Machine
end

