-- ==== Sys2Proof/Laws/Exec.lean ====
section
/-! SUPPORT. Inversion: everything that a command's meaning can end in, and everything that a host access can do. -/

namespace Sys2Proof.Machine

/-- The ways a completion step can end (20 R70): an error; one big register and its flags; BEZOUT's two registers; SRES
with flags; the limb buffer with flags. -/
def Ends (s t : State) : Prop :=
  (∃ e, t = s.raise e) ∨
  (∃ rd v, s.fits v ∧ t = ((s.setReg rd v).setZN v).complete) ∨
  (∃ rd rc v w, (s.fits v ∧ s.fits w) ∧ t = (((s.setReg rd v).setReg rc w).setZN v).complete) ∨
  (∃ w z n, t = ((s.setSres w).setFlags z n).complete) ∨
  (∃ ra, t = ((s.storeBuffer (s.reg ra)).setZN (s.regVal ra)).complete)

theorem ends_raise (s : State) (e : ErrorKind) : Ends s (s.raise e) := .inl ⟨e, rfl⟩

theorem ends_finishBig (s : State) (rd : BigReg) (v : Int) : Ends s (s.finishBig rd v) := by
  unfold State.finishBig
  split
  · rename_i h; exact .inr (.inl ⟨rd, v, h, rfl⟩)
  · exact ends_raise s _

theorem ends_finishBigPair (s : State) (rd rc : BigReg) (v w : Int) : Ends s (s.finishBigPair rd rc v w) := by
  unfold State.finishBigPair
  split
  · rename_i h; exact .inr (.inr (.inl ⟨rd, rc, v, w, h, rfl⟩))
  · exact ends_raise s _

theorem ends_scalar (s : State) (w : Word) (z n : Bool) : Ends s ((s.setSres w).setFlags z n).complete :=
  .inr (.inr (.inr (.inl ⟨w, z, n, rfl⟩)))

/-- Every meaning answers a next state, and it is one of these ends. -/
theorem exec_ends (i : Instr) (s : State) : ∃ t, exec i s = .next t ∧ Ends s t := by
  cases i with
  | ld rd => unfold exec execLd; simp only; split <;> exact ⟨_, rfl, by first | exact ends_raise _ _ | exact ends_finishBig _ _ _⟩
  | st ra => exact ⟨_, rfl, .inr (.inr (.inr (.inr ⟨ra, rfl⟩)))⟩
  | mov rd ra => exact ⟨_, rfl, ends_finishBig _ _ _⟩
  | ldi rd => exact ⟨_, rfl, ends_finishBig _ _ _⟩
  | add rd ra rb => exact ⟨_, rfl, ends_finishBig _ _ _⟩
  | sub rd ra rb => exact ⟨_, rfl, ends_finishBig _ _ _⟩
  | mul rd ra rb => exact ⟨_, rfl, ends_finishBig _ _ _⟩
  | muls rd ra => exact ⟨_, rfl, ends_finishBig _ _ _⟩
  | muladd rd ra => unfold exec execMuladd; simp only; split <;> exact ⟨_, rfl, by first | exact ends_raise _ _ | exact ends_finishBig _ _ _⟩
  | div rd ra rb => unfold exec execDiv; simp only; split <;> exact ⟨_, rfl, by first | exact ends_raise _ _ | exact ends_finishBig _ _ _⟩
  | mod rd ra rb => unfold exec execMod; simp only; split <;> exact ⟨_, rfl, by first | exact ends_raise _ _ | exact ends_finishBig _ _ _⟩
  | shl rd ra => unfold exec execShl; simp only; split <;> exact ⟨_, rfl, by first | exact ends_raise _ _ | exact ends_finishBig _ _ _⟩
  | shr rd ra => unfold exec execShr; simp only; split <;> exact ⟨_, rfl, by first | exact ends_raise _ _ | exact ends_finishBig _ _ _⟩
  | cmp ra rb => exact ⟨_, rfl, ends_scalar _ _ _ _⟩
  | size ra => exact ⟨_, rfl, ends_scalar _ _ _ _⟩
  | tz ra => unfold exec execTz; simp only; split <;> exact ⟨_, rfl, by first | exact ends_raise _ _ | exact ends_scalar _ _ _ _⟩
  | bit ra => exact ⟨_, rfl, ends_scalar _ _ _ _⟩
  | abs rd ra => exact ⟨_, rfl, ends_finishBig _ _ _⟩
  | ispow2 ra => exact ⟨_, rfl, ends_scalar _ _ _ _⟩
  | gcd rd ra rb => exact ⟨_, rfl, ends_finishBig _ _ _⟩
  | bezout rd rc ra rb =>
    unfold exec execBezout
    simp only
    split
    · exact ⟨_, rfl, ends_raise _ _⟩
    · split
      · exact ⟨_, rfl, ends_raise _ _⟩
      · exact ⟨_, rfl, ends_finishBigPair _ _ _ _ _⟩
  | modinv rd ra rb =>
    unfold exec execModinv
    simp only
    split
    · exact ⟨_, rfl, ends_raise _ _⟩
    · split
      · exact ⟨_, rfl, ends_raise _ _⟩
      · exact ⟨_, rfl, ends_finishBig _ _ _⟩
  | mulmod rd ra rb rc => unfold exec execMulmod; simp only; split <;> exact ⟨_, rfl, by first | exact ends_raise _ _ | exact ends_finishBig _ _ _⟩
  | modexp rd ra rb rc =>
    unfold exec execModexp
    simp only
    split
    · exact ⟨_, rfl, ends_raise _ _⟩
    · split
      · exact ⟨_, rfl, ends_raise _ _⟩
      · exact ⟨_, rfl, ends_finishBig _ _ _⟩

/-! ### Host accesses -/

/-- An OBUF location is one of the buffer's words (10 R36). -/
theorem locate_obuf {p : Params} {a i : Nat} (h : locate p a = .obuf i) : i < p.lmax ∧ a / 4 * 4 = obufOffset i := by
  unfold locate at h
  split at h <;> try (exact absurd h (by simp))
  rename_i x
  split at h
  · rename_i hr
    have hb : obufBase = 4096 := rfl
    simp only [Location.obuf.injEq] at h
    unfold obufOffset
    omega
  · exact absurd h (by simp)

/-- The location of OBUF[i] (10 R39). -/
theorem locate_obufOffset (p : Params) (i : Nat) (h : i < p.lmax) : locate p (obufOffset i) = .obuf i := by
  unfold locate obufOffset obufBase
  split <;> try omega
  rw [if_pos (by omega)]
  congr 1; omega

/-- What an access can do: pass the unit by, answer a read or BusError, or write a location. -/
theorem access_cases (a : Access) (s : State) :
    (windowSize s.params ≤ a.offset ∧ s.access a = .next s.stray) ∨
    (a.offset < windowSize s.params ∧ ∃ r, s.access a = .next (s.respond r)) ∨
    (a.offset < windowSize s.params ∧ ∃ v, a.width = .w32 ∧ a.offset % 4 = 0 ∧ a.kind = .write v ∧
      s.access a = .next ((s.writeLocation v (locate s.params a.offset)).respond .ok)) := by
  unfold State.access
  split
  · rename_i h; exact .inl ⟨h, rfl⟩
  · rename_i h
    have hin : a.offset < windowSize s.params := by omega
    split
    · exact .inr (.inl ⟨hin, _, rfl⟩)
    · rename_i hw
      simp only [ne_eq, not_or, not_not] at hw
      cases hk : a.kind with
      | read => exact .inr (.inl ⟨hin, _, rfl⟩)
      | write v => exact .inr (.inr ⟨hin, v, hw.1, hw.2, rfl, rfl⟩)

/-- Every access answers a next state. -/
theorem access_next (a : Access) (s : State) : ∃ t, s.access a = .next t := by
  obtain ⟨-, h⟩ | ⟨-, r, h⟩ | ⟨-, v, -, -, -, h⟩ := access_cases a s <;> exact ⟨_, h⟩

end Sys2Proof.Machine
end

