-- ==== Sys2Proof/Laws/Modular.lean ====
section
/-! SUPPORT. The Euclidean core, the modular inverse and the exponentiation loops (45_modular.md) as integers: one
specification lemma per function. -/

namespace Sys2Proof

open Machine

/-! ### Greatest common divisor -/

/-- The fuel of `gcdLoop` suffices (45 R240: `b mod a < a`). -/
theorem gcdLoop_eq (f a b : Nat) (h : a < f) : gcdLoop f a b = Nat.gcd a b := by
  induction f generalizing a b with
  | zero => omega
  | succ f ih =>
    unfold gcdLoop
    by_cases ha : a = 0
    · simp [ha]
    · have hlt := Nat.mod_lt b (Nat.pos_of_ne_zero ha)
      rw [if_neg ha, natMod_eq _ _ ha, ih _ _ (by omega), Nat.gcd_rec a b]

theorem gcdOf_eq (a b : Int) : gcdOf a b = Int.gcd a b := gcdLoop_eq _ _ _ (Nat.lt_succ_self _)

/-! ### Extended Euclid -/

/-- The fuel of `egcdLoop` suffices, and it is the recursion of R242. -/
theorem egcdLoop_spec (f a b : Nat) (h : a < f) :
    Egcd a b (egcdLoop f a b).1 (egcdLoop f a b).2.1 (egcdLoop f a b).2.2 := by
  induction f generalizing a b with
  | zero => omega
  | succ f ih =>
    unfold egcdLoop
    by_cases ha : a = 0
    · subst ha; simpa using Egcd.zero b
    · have hlt := Nat.mod_lt b (Nat.pos_of_ne_zero ha)
      rw [if_neg ha, natMod_eq _ _ ha, natDiv_eq _ _ ha]
      exact Egcd.step ha (ih _ _ (by omega))

theorem egcd_spec (a b : Nat) : Egcd a b (egcd a b).1 (egcd a b).2.1 (egcd a b).2.2 :=
  egcdLoop_spec _ _ _ (Nat.lt_succ_self _)

theorem Machine.Egcd.gcd_eq {a b g : Nat} {s t : Int} (h : Egcd a b g s t) : g = Nat.gcd a b := by
  induction h with
  | zero b => simp
  | @step a b g s1 t1 ha h ih => rw [ih, Nat.gcd_rec a b]

/-- The identity of R242. -/
theorem Machine.Egcd.identity {a b g : Nat} {s t : Int} (h : Egcd a b g s t) : s * a + t * b = g := by
  induction h with
  | zero b => simp
  | @step a b g s1 t1 ha h ih =>
    have hb : (b : Int) = ((b % a : Nat) : Int) + a * ((b / a : Nat) : Int) := by exact_mod_cast (Nat.mod_add_div b a).symm
    rw [← ih]
    conv_lhs => rw [hb]
    ring

/-- The bound of R242. -/
theorem Machine.Egcd.bound {a b g : Nat} {s t : Int} (h : Egcd a b g s t) (hab : a ≤ b) :
    s.natAbs ≤ max 1 b ∧ t.natAbs ≤ max 1 a := by
  induction h with
  | zero b => simp
  | @step a b g s1 t1 ha h ih =>
    have hlt := Nat.mod_lt b (Nat.pos_of_ne_zero ha)
    obtain ⟨h1, h2⟩ := ih hlt.le
    refine ⟨?_, by omega⟩
    by_cases hr : b % a = 0
    · rw [hr] at h
      cases h with
      | zero => simp
      | step h0 _ => exact absurd rfl h0
    · have h3 : (t1 - ((b / a : Nat) : Int) * s1).natAbs ≤ t1.natAbs + b / a * s1.natAbs := by
        refine le_trans (Int.natAbs_sub_le _ _) ?_
        rw [Int.natAbs_mul, Int.natAbs_natCast]
      have h4 : b / a * s1.natAbs ≤ b / a * a := Nat.mul_le_mul_left _ (by omega)
      have h5 := Nat.mod_add_div b a
      rw [mul_comm] at h5
      omega

/-- `bezout` is `egcd` of the smaller and the larger input (45 R243). -/
theorem bezout_spec (a b : Nat) : Egcd (min a b) (max a b) (bezout a b).1 (bezout a b).2.1 (bezout a b).2.2 := by
  unfold bezout
  split
  · rw [min_eq_right (by omega), max_eq_left (by omega)]; exact egcd_spec b a
  · rw [min_eq_left (by omega), max_eq_right (by omega)]; exact egcd_spec a b

/-! ### Modular inverse -/

/-- No inverse unless the operands are coprime (45 R245). -/
theorem modinv_none (n m : Int) (hm : 0 < m) (h : Int.gcd n m ≠ 1) : modinv n m = none := by
  have hs := bezout_spec (intMod n m).toNat m.toNat
  have hg := hs.gcd_eq
  have h0 := Int.emod_nonneg n hm.ne'
  have h1 := Int.emod_lt_of_pos n hm
  rw [intMod_eq n m hm] at *
  have hlt : (n % m).toNat ≤ m.toNat := by omega
  rw [min_eq_left hlt, max_eq_right hlt] at hg
  have hgm : Nat.gcd (n % m).toNat m.toNat = Int.gcd n m := by
    rw [← Int.gcd_emod n m, Int.gcd]
    congr 1 <;> omega
  simp only [modinv, intMod_eq n m hm]
  rw [if_pos (by rw [hg, hgm]; exact h)]

/-- The inverse, in `[0, m)` (45 R245). -/
theorem modinv_some (n m : Int) (hm : 0 < m) (h : Int.gcd n m = 1) :
    ∃ v, modinv n m = some v ∧ 0 ≤ v ∧ v < m ∧ n * v % m = 1 % m := by
  have hs := bezout_spec (intMod n m).toNat m.toNat
  have h0 := Int.emod_nonneg n hm.ne'
  have h1 := Int.emod_lt_of_pos n hm
  rw [intMod_eq n m hm] at hs
  have hlt : (n % m).toNat ≤ m.toNat := by omega
  rw [min_eq_left hlt, max_eq_right hlt] at hs
  have hg := hs.gcd_eq
  have hid := hs.identity
  have hgm : Nat.gcd (n % m).toNat m.toNat = Int.gcd n m := by
    rw [← Int.gcd_emod n m, Int.gcd]
    congr 1 <;> omega
  rw [hgm, h] at hg
  refine ⟨intMod (bezout (n % m).toNat m.toNat).2.1 m, ?_, ?_⟩
  · simp only [modinv, intMod_eq n m hm]
    rw [if_neg (by rw [hg]; simp)]
  · rw [intMod_eq _ _ hm]
    refine ⟨Int.emod_nonneg _ hm.ne', Int.emod_lt_of_pos _ hm, ?_⟩
    rw [hg] at hid
    have e1 : ((n % m).toNat : Int) = n % m := Int.toNat_of_nonneg h0
    have e2 : (m.toNat : Int) = m := Int.toNat_of_nonneg hm.le
    rw [e1, e2] at hid
    generalize (bezout (n % m).toNat m.toNat).2.1 = u at hid ⊢
    generalize (bezout (n % m).toNat m.toNat).2.2 = w at hid
    rw [Int.mul_emod, Int.emod_emod, ← Int.mul_emod, ← Nat.cast_one, ← hid, Int.add_mul_emod_self_right,
      Int.mul_emod, Int.mul_emod u (n % m), Int.emod_emod, mul_comm]

/-! ### Exponentiation -/

theorem two_pow_split_bit (E i : Nat) : E / 2 ^ i = 2 * (E / 2 ^ (i + 1)) + E / 2 ^ i % 2 := by
  rw [pow_succ, ← Nat.div_div_eq_div_mul]; omega

/-- A product of residues of powers is the residue of a power. -/
theorem pow_emod_mul (b m : Int) (x y : Nat) : (b ^ x % m) * (b ^ y % m) % m = b ^ (x + y) % m := by
  rw [← Int.mul_emod, pow_add]

/-- "After the iteration for bit i, acc = base^(e >> i) mod m" (45 R257). -/
theorem expLoop_eq (base e m : Int) (hm : 0 < m) (i : Nat) :
    expLoop base e m i (base ^ (e.natAbs / 2 ^ i) % m) = base ^ e.natAbs % m := by
  induction i with
  | zero => simp [expLoop]
  | succ i ih =>
    have hs := two_pow_split_bit e.natAbs i
    unfold expLoop
    simp only [expBit_eq, modmul_eq _ _ _ hm, pow_emod_mul]
    generalize e.natAbs / 2 ^ (i + 1) = x at hs
    rw [← ih]
    congr 1
    by_cases hb : e.natAbs / 2 ^ i % 2 = 1
    · rw [if_pos hb, hs, hb, pow_succ, Int.mul_emod, Int.emod_emod, ← Int.mul_emod, two_mul]
    · rw [if_neg hb]
      congr 2; omega

/-- The ladder computes the same power; `g` is one power of the base ahead of `acc` (45 R258). -/
theorem ladderLoop_eq (base e m : Int) (hm : 0 < m) (i : Nat) :
    ladderLoop e m i (base ^ (e.natAbs / 2 ^ i) % m) (base ^ (e.natAbs / 2 ^ i + 1) % m) = base ^ e.natAbs % m := by
  induction i with
  | zero => simp [ladderLoop]
  | succ i ih =>
    have hs := two_pow_split_bit e.natAbs i
    unfold ladderLoop
    simp only [expBit_eq, modmul_eq _ _ _ hm, pow_emod_mul]
    generalize e.natAbs / 2 ^ (i + 1) = x at hs
    rw [← ih]
    by_cases hb : e.natAbs / 2 ^ i % 2 = 1
    · rw [if_pos hb]
      congr 3 <;> omega
    · rw [if_neg hb]
      congr 3 <;> omega

/-- The value contract of MODEXP, of both variants (45 R261). -/
theorem modexp_eq (l : Bool) (base e m : Int) (hm : 0 < m) (he : 0 ≤ e) :
    modexp l base e m = if m ∣ base then 0 else base ^ e.toNat % m := by
  have hen : e.natAbs = e.toNat := by omega
  unfold modexp
  rw [intMod_eq _ _ hm]
  by_cases hb : m ∣ base
  · rw [if_pos (Int.emod_eq_zero_of_dvd hb), if_pos hb]
  · rw [if_neg (fun h => hb (Int.dvd_of_emod_eq_zero h)), if_neg hb]
    have hm1 : m ≠ 1 := fun h => hb (h ▸ one_dvd base)
    have hz : e.natAbs / 2 ^ magSize (natLimbs e.natAbs) = 0 := by
      rw [magSize_eq _ (limbsNormal_natLimbs _), mag_natLimbs]
      exact Nat.div_eq_of_lt (lt_two_pow_bitlength _)
    have h1 : (1 : Int) = base ^ (e.natAbs / 2 ^ magSize (natLimbs e.natAbs)) % m := by
      rw [hz, pow_zero, Int.emod_eq_of_lt (by norm_num) (by omega)]
    by_cases h2 : e = 2
    · subst h2
      rw [if_pos rfl, modmul_eq _ _ _ hm, ← sq]; rfl
    · rw [if_neg h2, ← hen]
      cases l
      · have := expLoop_eq base e m hm (magSize (natLimbs e.natAbs))
        rw [← h1] at this
        simpa using this
      · have := ladderLoop_eq base e m hm (magSize (natLimbs e.natAbs))
        rw [← h1, hz, zero_add, pow_one] at this
        simpa [intMod_eq _ _ hm] using this

end Sys2Proof
end

