-- ==== Sys2Proof/Laws/PerInstr.lean ====
section
/-! SUPPORT. A property of every command, one lemma per constructor (named in LAWS.json): its word keeps only its opcode
under its format's mask, which is what makes the word a row of the opcode map (30_encoding.md rules R92, R94). -/

namespace Sys2Proof.Laws

/-- The word of the command, masked by the format of its opcode's row, is the row's `match` value (30 R94). -/
def EncodeMatches.Statement (i : Instr) : Prop :=
  ∃ fmt build, opcodeRow (opcodeField (encode i)) = some (fmt, build) ∧
    encode i &&& fmt.mask = (opcodeField (encode i)).setWidth 32

/-- A word assembled for a row of the opcode map, its unused fields 0, matches the row. -/
theorem encodeMatches_of_row {i : Instr} {op : BitVec 8} {rd ra rb rc : BigReg} {f : Format}
    {b : BigReg → BigReg → BigReg → BigReg → Instr} (he : encode i = assemble op rd ra rb rc)
    (hr : opcodeRow op = some (f, b)) (hu : f.unusedZero rd ra rb rc) : EncodeMatches.Statement i := by
  refine ⟨f, b, ?_, ?_⟩
  · rw [he, opcodeField_assemble, hr]
  · rw [he, opcodeField_assemble, assemble_mask _ _ _ _ _ _ hu]

theorem EncodeMatches.ld (rd : BigReg) : EncodeMatches.Statement (.ld rd) :=
  encodeMatches_of_row rfl rfl ⟨rfl, rfl, rfl⟩
theorem EncodeMatches.st (ra : BigReg) : EncodeMatches.Statement (.st ra) :=
  encodeMatches_of_row rfl rfl ⟨rfl, rfl, rfl⟩
theorem EncodeMatches.mov (rd ra : BigReg) : EncodeMatches.Statement (.mov rd ra) :=
  encodeMatches_of_row rfl rfl ⟨rfl, rfl⟩
theorem EncodeMatches.ldi (rd : BigReg) : EncodeMatches.Statement (.ldi rd) :=
  encodeMatches_of_row rfl rfl ⟨rfl, rfl, rfl⟩
theorem EncodeMatches.add (rd ra rb : BigReg) : EncodeMatches.Statement (.add rd ra rb) :=
  encodeMatches_of_row rfl rfl rfl
theorem EncodeMatches.sub (rd ra rb : BigReg) : EncodeMatches.Statement (.sub rd ra rb) :=
  encodeMatches_of_row rfl rfl rfl
theorem EncodeMatches.mul (rd ra rb : BigReg) : EncodeMatches.Statement (.mul rd ra rb) :=
  encodeMatches_of_row rfl rfl rfl
theorem EncodeMatches.muls (rd ra : BigReg) : EncodeMatches.Statement (.muls rd ra) :=
  encodeMatches_of_row rfl rfl ⟨rfl, rfl⟩
theorem EncodeMatches.muladd (rd ra : BigReg) : EncodeMatches.Statement (.muladd rd ra) :=
  encodeMatches_of_row rfl rfl ⟨rfl, rfl⟩
theorem EncodeMatches.div (rd ra rb : BigReg) : EncodeMatches.Statement (.div rd ra rb) :=
  encodeMatches_of_row rfl rfl rfl
theorem EncodeMatches.mod (rd ra rb : BigReg) : EncodeMatches.Statement (.mod rd ra rb) :=
  encodeMatches_of_row rfl rfl rfl
theorem EncodeMatches.shl (rd ra : BigReg) : EncodeMatches.Statement (.shl rd ra) :=
  encodeMatches_of_row rfl rfl ⟨rfl, rfl⟩
theorem EncodeMatches.shr (rd ra : BigReg) : EncodeMatches.Statement (.shr rd ra) :=
  encodeMatches_of_row rfl rfl ⟨rfl, rfl⟩
theorem EncodeMatches.cmp (ra rb : BigReg) : EncodeMatches.Statement (.cmp ra rb) :=
  encodeMatches_of_row rfl rfl ⟨rfl, rfl⟩
theorem EncodeMatches.size (ra : BigReg) : EncodeMatches.Statement (.size ra) :=
  encodeMatches_of_row rfl rfl ⟨rfl, rfl, rfl⟩
theorem EncodeMatches.tz (ra : BigReg) : EncodeMatches.Statement (.tz ra) :=
  encodeMatches_of_row rfl rfl ⟨rfl, rfl, rfl⟩
theorem EncodeMatches.bit (ra : BigReg) : EncodeMatches.Statement (.bit ra) :=
  encodeMatches_of_row rfl rfl ⟨rfl, rfl, rfl⟩
theorem EncodeMatches.abs (rd ra : BigReg) : EncodeMatches.Statement (.abs rd ra) :=
  encodeMatches_of_row rfl rfl ⟨rfl, rfl⟩
theorem EncodeMatches.ispow2 (ra : BigReg) : EncodeMatches.Statement (.ispow2 ra) :=
  encodeMatches_of_row rfl rfl ⟨rfl, rfl, rfl⟩
theorem EncodeMatches.gcd (rd ra rb : BigReg) : EncodeMatches.Statement (.gcd rd ra rb) :=
  encodeMatches_of_row rfl rfl rfl
theorem EncodeMatches.bezout (rd rc ra rb : BigReg) : EncodeMatches.Statement (.bezout rd rc ra rb) :=
  encodeMatches_of_row rfl rfl trivial
theorem EncodeMatches.modinv (rd ra rb : BigReg) : EncodeMatches.Statement (.modinv rd ra rb) :=
  encodeMatches_of_row rfl rfl rfl
theorem EncodeMatches.mulmod (rd ra rb rc : BigReg) : EncodeMatches.Statement (.mulmod rd ra rb rc) :=
  encodeMatches_of_row rfl rfl trivial
theorem EncodeMatches.modexp (rd ra rb rc : BigReg) : EncodeMatches.Statement (.modexp rd ra rb rc) :=
  encodeMatches_of_row rfl rfl trivial

end Sys2Proof.Laws
end

