-- ==== Sys2Proof/Tests/Slice0.lean ====
section
/-! SUPPORT. Our own tests: WellFormed's smoke test, the decoding of words written out from the opcode map (30_encoding.md
rule R94) and from 95_test_vectors.md, one or two of that file's vectors per command, its bus vectors, and for every
statement with hypotheses a state that meets them, each clause at a boundary. Expected values are the spec's. -/

namespace Sys2Proof.Tests

-- One theorem after another: elaborated all at once, each kernel evaluation would hold a thread and its stack.
set_option Elab.async false

open Sys2Proof.Machine

/-! ### Small states and what is observed of one step -/

/-- The reset state of a build with some big registers and SA, SB set. -/
def unit (lmax : Nat) (regs : List (BigReg × Int)) (sa sb : Word) : State :=
  regs.foldl (fun s r => s.setReg r.1 r.2)
    { State.resetOf { lmax := lmax, ladder := false } 0 [] with sa := sa, sb := sb }

/-- The unit with a value staged in the limb buffer. -/
def staged (lmax : Nat) (sign : Bool) (len : BitVec 16) (limbs : Limbs) : State :=
  { unit lmax [] 0 0 with osign := sign, olen := len, obuf := wordCells obufBase limbs }

/-- The value of a big register and STATUS after the completion step of a command word. -/
def big? (s : State) (w : Nat) (r : BigReg) : Option (Int × Word) :=
  match step (s.withFetchWord 32 w) with
  | .next t => some (t.regVal r, t.statusWord)
  | _ => none

/-- SRES and STATUS after the completion step of a command word. -/
def scalar? (s : State) (w : Nat) : Option (Word × Word) :=
  match step (s.withFetchWord 32 w) with
  | .next t => some (t.sres, t.statusWord)
  | _ => none

/-- STATUS and ECMD after the completion step of a command word, and whether every big register kept its value. -/
def error? (s : State) (w : Nat) : Option (Word × Word × Bool) :=
  match step (s.withFetchWord 32 w) with
  | .next t => some (t.statusWord, t.ecmd, t.regs == s.regs)
  | _ => none

/-- The response to the last of some host accesses, the unit not taking a turn between them. -/
def respond? (s : State) (l : List Access) : Option Response :=
  match Sys2Proof.core.run l.length { s with inputs := l.map Event.access } with
  | .next t => some t.resp
  | _ => none

/-- A 32-bit read. -/
def rd (offset : Nat) : Access := ⟨.w32, offset, .read⟩
/-- A 32-bit write. -/
def wr (offset : Nat) (v : Word) : Access := ⟨.w32, offset, .write v⟩

/-! ### WellFormed -/

theorem test_wellFormed_bezout_distinct : (Instr.bezout 0 15 0 1).wellFormed = true := by decide
/-- The one ill-formed term: BEZOUT with one register for its two results (30 R95). -/
theorem test_illFormed_bezout_same : (Instr.bezout 1 1 0 0).wellFormed = false := by decide

/-! ### Decoding: one word per constructor, opcode, rd, ra, rb, rc written from 30 R91 and R94 -/

theorem test_decode_ld : decodeTableWord 32 0x00000401 = some (.ld 4) ∧ encode (.ld 4) = 0x00000401 := by decide
theorem test_decode_st : decodeTableWord 32 0x0000F002 = some (.st 15) ∧ encode (.st 15) = 0x0000F002 := by decide
theorem test_decode_mov : decodeTableWord 32 0x00001203 = some (.mov 2 1) ∧ encode (.mov 2 1) = 0x00001203 := by decide
theorem test_decode_ldi : decodeTableWord 32 0x00000204 = some (.ldi 2) ∧ encode (.ldi 2) = 0x00000204 := by decide
theorem test_decode_add : decodeTableWord 32 0x000FFF10 = some (.add 15 15 15) ∧ encode (.add 15 15 15) = 0x000FFF10 := by decide
theorem test_decode_sub : decodeTableWord 32 0x00055511 = some (.sub 5 5 5) ∧ encode (.sub 5 5 5) = 0x00055511 := by decide
theorem test_decode_mul : decodeTableWord 32 0x00010220 = some (.mul 2 0 1) ∧ encode (.mul 2 0 1) = 0x00010220 := by decide
theorem test_decode_muls : decodeTableWord 32 0x00000121 = some (.muls 1 0) ∧ encode (.muls 1 0) = 0x00000121 := by decide
theorem test_decode_muladd : decodeTableWord 32 0x00000122 = some (.muladd 1 0) ∧ encode (.muladd 1 0) = 0x00000122 := by decide
theorem test_decode_div : decodeTableWord 32 0x00033330 = some (.div 3 3 3) ∧ encode (.div 3 3 3) = 0x00033330 := by decide
theorem test_decode_mod : decodeTableWord 32 0x00010231 = some (.mod 2 0 1) ∧ encode (.mod 2 0 1) = 0x00010231 := by decide
theorem test_decode_shl : decodeTableWord 32 0x00000140 = some (.shl 1 0) ∧ encode (.shl 1 0) = 0x00000140 := by decide
theorem test_decode_shr : decodeTableWord 32 0x00000141 = some (.shr 1 0) ∧ encode (.shr 1 0) = 0x00000141 := by decide
theorem test_decode_cmp : decodeTableWord 32 0x00010050 = some (.cmp 0 1) ∧ encode (.cmp 0 1) = 0x00010050 := by decide
theorem test_decode_size : decodeTableWord 32 0x00007051 = some (.size 7) ∧ encode (.size 7) = 0x00007051 := by decide
theorem test_decode_tz : decodeTableWord 32 0x00009052 = some (.tz 9) ∧ encode (.tz 9) = 0x00009052 := by decide
theorem test_decode_bit : decodeTableWord 32 0x00001053 = some (.bit 1) ∧ encode (.bit 1) = 0x00001053 := by decide
theorem test_decode_abs : decodeTableWord 32 0x00000154 = some (.abs 1 0) ∧ encode (.abs 1 0) = 0x00000154 := by decide
theorem test_decode_ispow2 : decodeTableWord 32 0x0000A055 = some (.ispow2 10) ∧ encode (.ispow2 10) = 0x0000A055 := by decide
theorem test_decode_gcd : decodeTableWord 32 0x00010260 = some (.gcd 2 0 1) ∧ encode (.gcd 2 0 1) = 0x00010260 := by decide
theorem test_decode_bezout : decodeTableWord 32 0x00310261 = some (.bezout 2 3 0 1) ∧ encode (.bezout 2 3 0 1) = 0x00310261 := by decide
theorem test_decode_modinv : decodeTableWord 32 0x00010262 = some (.modinv 2 0 1) ∧ encode (.modinv 2 0 1) = 0x00010262 := by decide
theorem test_decode_mulmod : decodeTableWord 32 0x00210363 = some (.mulmod 3 0 1 2) ∧ encode (.mulmod 3 0 1 2) = 0x00210363 := by decide
theorem test_decode_modexp : decodeTableWord 32 0x00543364 = some (.modexp 3 3 4 5) ∧ encode (.modexp 3 3 4 5) = 0x00543364 := by decide

/-- V-DEC-2 to V-DEC-20: the illegal words, with the decoder's reason. -/
theorem test_decode_illegal :
    decode 0x00000000 = .error .unassignedOpcode ∧ decode 0xFFFFFFFF = .error .zeroFieldSet ∧
    decode 0x01000010 = .error .zeroFieldSet ∧ decode 0x00000005 = .error .unassignedOpcode ∧
    decode 0x00000012 = .error .unassignedOpcode ∧ decode 0x00000065 = .error .unassignedOpcode ∧
    decode 0x00100001 = .error .unusedFieldSet ∧ decode 0x00001001 = .error .unusedFieldSet ∧
    decode 0x00000F02 = .error .unusedFieldSet ∧ decode 0x00110210 = .error .unusedFieldSet ∧
    decode 0x00010150 = .error .unusedFieldSet ∧ decode 0x00100161 = .error .sameDestination ∧
    decode 0x00010122 = .error .unusedFieldSet := by decide

/-! ### Vectors of 95_test_vectors.md, through step -/

/-- V-LD-3. -/
theorem test_ld_strips_and_signs : big? (staged 64 true 2 [0x00000000, 0x00000001]) 0x00000401 4 = some (-4294967296, 0x00000202) := by decide +kernel
/-- V-LD-5. -/
theorem test_ld_length : error? (staged 4 false 5 [1, 2, 3, 4]) 0x00000101 = some (0x00000076, 0x00000101, true) := by decide +kernel
/-- V-ST-1: sign, length, zero fill. -/
theorem test_st_zero_fill :
    (match step ((unit 4 [(4, -4294967296)] 0 0).withFetchWord 32 0x00004002) with
      | .next t => some (t.ohdrWord, t.obufLimbs 4, t.statusWord)
      | _ => none) = some (0x80000002, [0, 1, 0, 0], 0x00000202) := by decide +kernel
/-- V-MOV-2. -/
theorem test_mov_same : big? (unit 64 [(3, -18446744073709551616)] 0 0) 0x00003303 3 = some (-18446744073709551616, 0x00000202) := by decide +kernel
/-- V-LDI-2. -/
theorem test_ldi_most_negative : big? (unit 64 [] 0x00000000 0x80000000) 0x00000204 2 = some (-9223372036854775808, 0x00000202) := by decide +kernel
/-- V-LDI-5. -/
theorem test_ldi_words : big? (unit 64 [] 0xC4653600 0xFFFFFFFF) 0x00000204 2 = some (-1000000000, 0x00000202) := by decide +kernel
/-- V-ADD-2. -/
theorem test_add_carry_ripples : big? (unit 64 [(0, 79228162514264337593543950335), (1, 1)] 0 0) 0x00010210 2 = some (79228162514264337593543950336, 0x00000002) := by decide +kernel
/-- V-ADD-8. -/
theorem test_add_overflow : error? (unit 4 [(0, 340282366920938463463374607431768211455), (1, 1)] 0 0) 0x00010210 = some (0x00000046, 0x00010210, true) := by decide +kernel
/-- V-SUB-1. -/
theorem test_sub_swaps : big? (unit 64 [(0, 5), (1, 7)] 0 0) 0x00010211 2 = some (-2, 0x00000202) := by decide +kernel
/-- V-SUB-2. -/
theorem test_sub_borrow_ripples : big? (unit 64 [(0, 18446744073709551616), (1, 1)] 0 0) 0x00010211 2 = some (18446744073709551615, 0x00000002) := by decide +kernel
/-- V-MUL-2. -/
theorem test_mul_every_carry : big? (unit 64 [(0, 18446744073709551615), (1, 18446744073709551615)] 0 0) 0x00010220 2 = some (340282366920938463426481119284349108225, 0x00000002) := by decide +kernel
/-- V-MUL-3. -/
theorem test_mul_sign : big? (unit 64 [(0, -3), (1, 4)] 0 0) 0x00010220 2 = some (-12, 0x00000202) := by decide +kernel
/-- V-MULS-1. -/
theorem test_muls_unsigned_scalar : big? (unit 64 [(0, -3)] 0x80000000 0) 0x00000121 1 = some (-6442450944, 0x00000202) := by decide +kernel
/-- V-MULADD-1. -/
theorem test_muladd_block : big? (unit 64 [(0, 123)] 0x3B9ACA00 0x1B69B4BA) 0x00000022 0 = some (123459912378, 0x00000002) := by decide +kernel
/-- V-MULADD-4. -/
theorem test_muladd_domain : error? (unit 64 [(0, -1)] 1 0) 0x00000122 = some (0x00000056, 0x00000122, true) := by decide +kernel
/-- V-DIV-7, the add-back path. -/
theorem test_div_add_back : big? (unit 64 [(0, 39614081257132168796771975171), (1, 9903520314283042199192993793)] 0 0) 0x00010230 2 = some (3, 0x00000002) := by decide +kernel
/-- V-DIV-2. -/
theorem test_div_truncates : big? (unit 64 [(0, -7), (1, 2)] 0 0) 0x00010230 2 = some (-3, 0x00000202) := by decide +kernel
/-- V-MOD-8. -/
theorem test_mod_corrected : big? (unit 64 [(0, -18446744073709551616), (1, 4294967297)] 0 0) 0x00010231 2 = some (4294967296, 0x00000002) := by decide +kernel
/-- V-MOD-5. -/
theorem test_mod_negative_modulus : error? (unit 64 [(0, 7), (1, -3)] 0 0) 0x00010231 = some (0x00000026, 0x00010231, true) := by decide +kernel
/-- V-SHL-3. -/
theorem test_shl_limb_and_bits : big? (unit 64 [(0, 3735928559)] 0x00000024 0) 0x00000140 1 = some (256731055697558503424, 0x00000002) := by decide +kernel
/-- V-SHL-10. -/
theorem test_shl_most_negative_count : big? (unit 64 [(0, 12345)] 0x80000000 0) 0x00000140 1 = some (0, 0x00000102) := by decide +kernel
/-- V-SHR-3. -/
theorem test_shr_rounds_toward_zero : big? (unit 64 [(0, -5)] 1 0) 0x00000141 1 = some (-2, 0x00000202) := by decide +kernel
/-- V-SHR-2. -/
theorem test_shr_higher_limb : big? (unit 64 [(0, 4294967298)] 1 0) 0x00000141 1 = some (2147483649, 0x00000002) := by decide +kernel
/-- V-CMP-1. -/
theorem test_cmp_both_negative : scalar? (unit 64 [(0, -3), (1, -2)] 0 0) 0x00010050 = some (0xFFFFFFFF, 0x00000202) := by decide +kernel
/-- V-CMP-6. -/
theorem test_cmp_lowest_limb : scalar? (unit 64 [(0, 21474836487), (1, 21474836489)] 0 0) 0x00010050 = some (0xFFFFFFFF, 0x00000202) := by decide +kernel
/-- V-SIZE-3. -/
theorem test_size_two_limbs : scalar? (unit 64 [(0, 4294967296)] 0 0) 0x00000051 = some (0x00000021, 0x00000002) := by decide +kernel
/-- V-TZ-2. -/
theorem test_tz_zero_limb : scalar? (unit 64 [(0, 4294967296)] 0 0) 0x00000052 = some (0x00000020, 0x00000002) := by decide +kernel
/-- V-TZ-5. -/
theorem test_tz_domain : error? (unit 64 [] 0 0) 0x00000052 = some (0x00000056, 0x00000052, true) := by decide +kernel
/-- V-BIT-4. -/
theorem test_bit_far : scalar? (unit 64 [(0, 4294967296)] 0xFFFFFFFF 0) 0x00000053 = some (0, 0x00000102) := by decide +kernel
/-- V-BIT-3. -/
theorem test_bit_second_limb : scalar? (unit 64 [(0, 4294967296)] 0x00000020 0) 0x00000053 = some (1, 0x00000002) := by decide +kernel
/-- V-ABS-1. -/
theorem test_abs_negative : big? (unit 64 [(0, -4294967296)] 0 0) 0x00000154 1 = some (4294967296, 0x00000002) := by decide +kernel
/-- V-POW-3. -/
theorem test_ispow2_negative : scalar? (unit 64 [(0, -4)] 0 0) 0x00000055 = some (0, 0x00000102) := by decide +kernel
/-- V-POW-4. -/
theorem test_ispow2_two_limbs : scalar? (unit 64 [(0, 4294967296)] 0 0) 0x00000055 = some (1, 0x00000002) := by decide +kernel
/-- V-GCD-5. -/
theorem test_gcd_signs : big? (unit 64 [(0, -12), (1, 18)] 0 0) 0x00010260 2 = some (6, 0x00000002) := by decide +kernel
/-- V-BEZ-2. -/
theorem test_bezout_swapped_t : big? (unit 64 [(0, 7), (1, 3)] 0 0) 0x00310261 3 = some (1, 0x00000202) := by decide +kernel
/-- V-BEZ-8. -/
theorem test_bezout_s : big? (unit 64 [(0, 46), (1, 240)] 0 0) 0x00310261 2 = some (47, 0x00000002) := by decide +kernel
/-- V-INV-2. -/
theorem test_modinv_reduces_first : big? (unit 64 [(0, -3), (1, 7)] 0 0) 0x00010262 2 = some (2, 0x00000002) := by decide +kernel
/-- V-INV-6. -/
theorem test_modinv_noInverse : error? (unit 64 [(0, 6), (1, 9)] 0 0) 0x00010262 = some (0x00000066, 0x00010262, true) := by decide +kernel
/-- V-MM-2. -/
theorem test_mulmod_negative_product : big? (unit 64 [(0, -2), (1, 3), (2, 5)] 0 0) 0x00210363 3 = some (4, 0x00000002) := by decide +kernel
/-- V-EXP-2. -/
theorem test_modexp_base_zero_first : big? (unit 64 [(0, 0), (1, 0), (2, 7)] 0 0) 0x00210364 3 = some (0, 0x00000102) := by decide +kernel
/-- V-EXP-19. -/
theorem test_modexp_source_is_destination : big? (unit 64 [(3, 3), (4, 5), (5, 7)] 0 0) 0x00543364 3 = some (5, 0x00000002) := by decide +kernel
/-- V-EXP-1 with the ladder built. -/
theorem test_modexp_ladder :
    big? { unit 64 [(0, 3), (1, 5), (2, 7)] 0 0 with params := { lmax := 64, ladder := true } } 0x00210364 3
      = some (5, 0x00000002) := by decide +kernel

/-! ### Bus vectors of 95_test_vectors.md section 2.10 -/

/-- V-BUS-1. -/
theorem test_id : idWord { lmax := 64, ladder := false } = 0x10100040 ∧ idWord { lmax := 64, ladder := true } = 0x11100040 ∧
    idWord { lmax := 4, ladder := false } = 0x10100004 := by decide
/-- V-BUS-3, at offset 0x1100. -/
theorem test_reserved_offset : respond? State.reset [wr 0x1100 0xFFFFFFFF] = some .ok ∧
    respond? State.reset [wr 0x1100 0xFFFFFFFF, rd 0x1100] = some (.word 0) := by decide +kernel
/-- V-BUS-4. -/
theorem test_writable_bits : respond? State.reset [wr 0x004 0xFFFFFFFF, rd 0x004] = some (.word 1) ∧
    respond? State.reset [wr 0x020 0xFFFFFFFF, rd 0x020] = some (.word 0x8000FFFF) ∧
    respond? State.reset [wr 0x018 0x12345678, rd 0x018] = some (.word 0x12345678) := by decide +kernel
/-- V-BUS-6. -/
theorem test_busError : respond? State.reset [⟨.w16, 0x014, .read⟩] = some .busError ∧
    respond? State.reset [rd 0x015] = some .busError ∧ respond? State.reset [wr 0x1002 1] = some .busError ∧
    respond? State.reset [⟨.w64, 0x1000, .read⟩] = some .busError := by decide +kernel
/-- V-BUS-7. -/
theorem test_obuf_words : respond? State.reset [wr 0x1000 0xAABBCCDD, wr 0x10FC 0x11223344, rd 0x1000]
      = some (.word 0xAABBCCDD) ∧
    respond? State.reset [wr 0x1000 0xAABBCCDD, wr 0x10FC 0x11223344, rd 0x10FC] = some (.word 0x11223344) := by
  decide +kernel
/-- V-BUS-8, up to the second dropped command. -/
theorem test_busy_drops : respond? State.reset [wr 0x1000 7, wr 0x00C 0x00010210, rd 0x008] = some (.word 0x00000001) ∧
    respond? State.reset [wr 0x1000 7, wr 0x00C 0x00010210, wr 0x014 5, wr 0x1000 5, wr 0x00C 0x00010211, rd 0x008]
      = some (.word 0x00000009) := by decide +kernel

/-- V-BUS-8, the completion step: the host's writes while busy are lost, the first command's result stands. -/
theorem test_completion_after_drops :
    (match Sys2Proof.core.run 6 { State.reset with
        inputs := [.access (wr 0x00C 0x00010210), .access (wr 0x014 5), .access (wr 0x00C 0x00010211),
          .access (wr 0x004 1), .unitTurn, .access (rd 0x008)] } with
      | .next t => some (t.resp, t.irq, t.sa)
      | _ => none) = some (.word 0x0000010A, true, 0) := by decide +kernel
/-- V-BUS-10: the illegal word's error, the dropped MOV, the acknowledge. -/
theorem test_illegal_then_acknowledge :
    (match Sys2Proof.core.run 4 { State.reset with
        inputs := [.access (wr 0x00C 0), .unitTurn, .access (wr 0x00C 3), .access (rd 0x008)] } with
      | .next t => some t.resp
      | _ => none) = some (.word 0x0000003E) ∧
    (match Sys2Proof.core.run 5 { State.reset with
        inputs := [.access (wr 0x00C 0), .unitTurn, .access (wr 0x00C 3), .access (wr 0x008 4), .access (rd 0x008)] } with
      | .next t => some t.resp
      | _ => none) = some (.word 0x0000000A) := by decide +kernel
/-- 93 U10: a write outside the window changes nothing, also while a command is in flight, and the unit goes on. -/
theorem test_access_outside_window :
    (match Sys2Proof.core.run 3 { (unit 2 [(1, 7)] 0 0).accept 0x00001203 with
        inputs := [.access (wr 0x2000 5), .unitTurn, .access (rd 0x008)] } with
      | .next t => some (t.regVal 2, t.resp, t.sa)
      | _ => none) = some (7, .word 0x00000002, 0) := by decide +kernel
/-- V-BUS-12: reset while a command is in flight. -/
theorem test_reset_abandons :
    (match Sys2Proof.core.run 4 { State.reset with
        inputs := [.access (wr 0x004 1), .access (wr 0x00C 0x00006002), .reset, .access (rd 0x008)] } with
      | .next t => some (t.resp, t.ctrlWord, t.irq, t.ohdrWord)
      | _ => none) = some (.word 0, 0, false, 0) := by decide +kernel

/-! ### Witnesses: states that meet the hypotheses of the statements

The largest magnitude of a unit with LMAX = 2 is 2^64 - 1 = 18446744073709551615. -/

/-- A unit with the command word `c` in flight. -/
def busyWith (c : Word) : State := (unit 2 [(0, 6)] 0 0).accept c
/-- A unit with an error standing. -/
def erred : State := ((unit 2 [] 0 0).accept 0).raise .illegalCommand

theorem witness_EncodedCommandDecodesToItself : (Instr.bezout 15 0 15 15).wellFormed = true := by decide +kernel
theorem witness_DecodedWordIsTheCommandsWord : decode 0x00FFFF64 = .ok (.modexp 15 15 15 15) := by decide +kernel
theorem witness_EveryOtherWordRaisesIllegalCommand :
    (busyWith 0xFFFFFFFF).busy = true ∧ (busyWith 0xFFFFFFFF).inputs = [] ∧
    ((busyWith 0xFFFFFFFF).setInputs [.unitTurn, .reset]).inputs = [.unitTurn, .reset] ∧
    (∀ r ∈ commandRows, (busyWith 0xFFFFFFFF).cur &&& r.2 ≠ r.1) ∧
    (∀ r ∈ commandRows, (busyWith 0x00000000).cur &&& r.2 ≠ r.1) ∧
    (busyWith 0x00100161).cur &&& 0xFF0000FF = 0x00000061 ∧
    registerField (busyWith 0x00100161).cur 8 = registerField (busyWith 0x00100161).cur 20 := by
  have ofAll (c : Word) (h : (commandRows.all fun r => decide (c &&& r.2 ≠ r.1)) = true) :
      ∀ r ∈ commandRows, c &&& r.2 ≠ r.1 := fun r hr => of_decide_eq_true (List.all_eq_true.mp h r hr)
  exact ⟨rfl, rfl, rfl, ofAll _ (by decide +kernel), ofAll _ (by decide +kernel), by decide +kernel, by decide +kernel⟩
theorem witness_StepRunsTheDecodedCommand :
    (busyWith 0x00001203).busy = true ∧ decode (busyWith 0x00001203).cur = .ok (.mov 2 1) ∧
    (busyWith 0x00001203).inputs = [] ∧ ((busyWith 0x00001203).setInputs [.unitTurn]).inputs = [.unitTurn] := by decide +kernel
theorem witness_StepTakesTheFirstEvent :
    (State.reset.setInputs [.access (rd 0)]).inputs = [.access (rd 0)] ∧ (State.reset.setInputs [.reset]).inputs = [.reset] ∧
    (State.reset.setInputs [.unitTurn]).inputs = [.unitTurn] ∧ State.reset.inputs = [] ∧ State.reset.busy = false := by
  decide +kernel
theorem witness_AcceptedCommandIsCompleted :
    (busyWith 0x00000000).busy = true ∧ (busyWith 0x00000000).inputs = [] ∧
    ((busyWith 0x00000000).setInputs [.unitTurn, .reset]).inputs = [.unitTurn, .reset] := by decide +kernel
theorem witness_EveryStepKeepsTheInvariant :
    (busyWith 0x00000203).Inv ∧ erred.Inv ∧ ∃ t, step (busyWith 0x00000203) = .next t := ⟨by and_intros <;> decide +kernel, by and_intros <;> decide +kernel, _, rfl⟩
theorem witness_InvariantHoldsAtReset : (⟨2, false⟩ : Params).Ok ∧ (⟨65535, true⟩ : Params).Ok := by decide +kernel
theorem witness_ResetEventPutsTheResetState : ((busyWith 0).setInputs [.reset]).inputs = [.reset] := rfl
theorem witness_ResetEventForgetsTheBuffer : (erred.setInputs [.reset, .unitTurn]).inputs = [.reset, .unitTurn] := rfl
theorem witness_LdLoadsTheBuffer :
    (staged 2 true 1 [0, 0]).Inv ∧ 1 ≤ (staged 2 true 1 [0, 0]).olen.toNat ∧ (staged 2 false 2 [5, 0]).Inv ∧
    (staged 2 false 2 [5, 0]).olen.toNat = (staged 2 false 2 [5, 0]).params.lmax ∧
    (staged 2 false 0 []).Inv ∧ (staged 2 false 0 []).olen.toNat = 0 ∧
    (staged 2 false 3 [1, 1]).Inv ∧ (staged 2 false 3 [1, 1]).params.lmax < (staged 2 false 3 [1, 1]).olen.toNat := by and_intros <;> decide +kernel
/-- The hypothesis `Inv` alone: ST, ST then LD, MOV, LDI, SIZE, ABS, GCD, and the independence of LADDER. -/
theorem witness_inv_with_the_largest_and_smallest_values :
    (unit 2 [(0, 18446744073709551615), (1, -18446744073709551615), (2, 0)] 0xFFFFFFFF 0x80000000).Inv := by and_intros <;> decide +kernel
theorem witness_AddIsTheExactSum :
    (let s := unit 2 [(0, 18446744073709551614), (1, 1)] 0 0; s.Inv ∧ s.Capacity (s.regVal 0 + s.regVal 1)) ∧
    (let s := unit 2 [(0, 18446744073709551615), (1, 1)] 0 0; s.Inv ∧ ¬ s.Capacity (s.regVal 0 + s.regVal 1)) := by dsimp only; and_intros <;> decide +kernel
theorem witness_SubIsTheExactDifference :
    (let s := unit 2 [(0, -18446744073709551614), (1, 1)] 0 0; s.Inv ∧ s.Capacity (s.regVal 0 - s.regVal 1)) ∧
    (let s := unit 2 [(0, -18446744073709551615), (1, 1)] 0 0; s.Inv ∧ ¬ s.Capacity (s.regVal 0 - s.regVal 1)) := by dsimp only; and_intros <;> decide +kernel
theorem witness_MulIsTheExactProduct :
    (let s := unit 2 [(0, 4294967295), (1, 4294967297)] 0 0; s.Inv ∧ s.Capacity (s.regVal 0 * s.regVal 1)) ∧
    (let s := unit 2 [(0, 9223372036854775808), (1, -2)] 0 0
     s.Inv ∧ 2 ^ (32 * s.params.lmax) ≤ (s.regVal 0).natAbs * (s.regVal 1).natAbs) := by dsimp only; and_intros <;> decide +kernel
theorem witness_MulsMultipliesByTheUnsignedScalar :
    (let s := unit 2 [(0, -4294967297)] 0xFFFFFFFF 0; s.Inv ∧ s.Capacity (s.regVal 0 * s.sa.toNat)) ∧
    (let s := unit 2 [(0, 9223372036854775808)] 2 0; s.Inv ∧ ¬ s.Capacity (s.regVal 0 * s.sa.toNat)) := by dsimp only; and_intros <;> decide +kernel
theorem witness_MuladdMultipliesAndAdds :
    (let s := unit 2 [(0, -1)] 0 0; s.Inv ∧ s.regVal 0 < 0) ∧
    (let s := unit 2 [(0, 18446744073709551614)] 1 1
     s.Inv ∧ 0 ≤ s.regVal 0 ∧ s.Capacity (s.regVal 0 * s.sa.toNat + s.sb.toNat)) ∧
    (let s := unit 2 [(0, 18446744073709551615)] 1 1
     s.Inv ∧ 0 ≤ s.regVal 0 ∧ ¬ s.Capacity (s.regVal 0 * s.sa.toNat + s.sb.toNat)) ∧
    (let s := unit 2 [(0, 0)] 0 0; s.Inv ∧ 0 ≤ s.regVal 0 ∧ s.Capacity (s.regVal 0 * s.sa.toNat + s.sb.toNat)) := by dsimp only; and_intros <;> decide +kernel
theorem witness_DivIsTheTruncatedQuotient :
    (let s := unit 2 [(0, -7), (1, 0)] 0 0; s.Inv ∧ s.regVal 1 = 0) ∧
    (let s := unit 2 [(0, -7), (1, -1)] 0 0; s.Inv ∧ s.regVal 1 ≠ 0) ∧
    (let s := unit 2 [(0, -7), (1, 1)] 0 0; s.Inv ∧ s.regVal 1 ≠ 0) := by dsimp only; and_intros <;> decide +kernel
/-- The three signs of a modulus, for MOD and MULMOD. -/
theorem witness_ModIsTheLeastResidue :
    (let s := unit 2 [(0, -7), (1, 0)] 0 0; s.Inv ∧ s.regVal 1 = 0) ∧
    (let s := unit 2 [(0, -7), (1, -1)] 0 0; s.Inv ∧ s.regVal 1 < 0) ∧
    (let s := unit 2 [(0, -7), (1, 1)] 0 0; s.Inv ∧ 0 < s.regVal 1) := by dsimp only; and_intros <;> decide +kernel
theorem witness_QuotientAndResidueBySign :
    (let s := unit 2 [(0, 0), (1, 1)] 0 0; s.Inv ∧ 0 < s.regVal 1 ∧ 0 ≤ s.regVal 0) ∧
    (let s := unit 2 [(0, -1), (1, 2)] 0 0; s.Inv ∧ 0 < s.regVal 1 ∧ s.regVal 0 < 0 ∧ ¬ s.regVal 1 ∣ s.regVal 0) ∧
    (let s := unit 2 [(0, -6), (1, 3)] 0 0; s.Inv ∧ 0 < s.regVal 1 ∧ s.regVal 0 < 0 ∧ s.regVal 1 ∣ s.regVal 0) := by dsimp only; and_intros <;> decide +kernel
theorem witness_ShlShiftsByTheSignedCount :
    (let s := unit 2 [(0, -1)] 0 0; s.Inv ∧ 0 ≤ s.sa.toInt ∧ s.Capacity (s.regVal 0 * 2 ^ s.sa.toInt.toNat)) ∧
    (let s := unit 2 [(0, 1)] 63 0; s.Inv ∧ 0 ≤ s.sa.toInt ∧ s.Capacity (s.regVal 0 * 2 ^ s.sa.toInt.toNat)) ∧
    (let s := unit 2 [(0, 1)] 64 0; s.Inv ∧ 0 ≤ s.sa.toInt ∧ ¬ s.Capacity (s.regVal 0 * 2 ^ s.sa.toInt.toNat)) ∧
    (let s := unit 2 [(0, 1)] 0xFFFFFFFF 0; s.Inv ∧ s.sa.toInt < 0) ∧
    (let s := unit 2 [(0, 1)] 0x80000000 0; s.Inv ∧ s.sa.toInt < 0) := by dsimp only; and_intros <;> decide +kernel
theorem witness_ShrShiftsByTheSignedCount :
    (let s := unit 2 [(0, -1)] 0 0; s.Inv ∧ 0 ≤ s.sa.toInt) ∧ (let s := unit 2 [(0, 1)] 0x7FFFFFFF 0; s.Inv ∧ 0 ≤ s.sa.toInt) ∧
    (let s := unit 2 [(0, 1)] 0xFFFFFFFF 0; s.Inv ∧ s.sa.toInt < 0 ∧ s.Capacity (s.regVal 0 * 2 ^ (-s.sa.toInt).toNat)) ∧
    (let s := unit 2 [(0, 1)] 0xFFFFFFC0 0; s.Inv ∧ s.sa.toInt < 0 ∧ ¬ s.Capacity (s.regVal 0 * 2 ^ (-s.sa.toInt).toNat)) := by dsimp only; and_intros <;> decide +kernel
theorem witness_CmpReportsTheOrder :
    (let s := unit 2 [(0, -1), (1, 0)] 0 0
     s.Inv ∧ s.regVal 0 < s.regVal 1 ∧ s.regVal 1 = s.regVal 2 ∧ s.regVal 0 < s.regVal 2) := by dsimp only; and_intros <;> decide +kernel
theorem witness_TzCountsTheLowZeroBits :
    (let s := unit 2 [(0, 0), (1, -9223372036854775808)] 0 0; s.Inv ∧ s.regVal 0 = 0 ∧ s.regVal 1 ≠ 0) := by dsimp only; and_intros <;> decide +kernel
theorem witness_Ispow2TestsForAPowerOfTwo :
    (∃ k : Nat, (unit 2 [(0, 1)] 0 0).regVal 0 = 2 ^ k) ∧ ¬ ∃ k : Nat, (unit 2 [(0, 0)] 0 0).regVal 0 = 2 ^ k :=
  ⟨⟨0, by decide⟩, fun ⟨k, hk⟩ => by
    rw [show (unit 2 [(0, 0)] 0 0).regVal 0 = 0 by decide] at hk
    exact absurd hk.symm (pow_ne_zero k (by norm_num))⟩
theorem witness_BezoutWritesTheCoefficients :
    (let s := unit 2 [(0, -1), (1, 0), (2, 18446744073709551615)] 0 0
     s.Inv ∧ (2 : BigReg) ≠ 3 ∧ s.regVal 0 < 0 ∧ 0 ≤ s.regVal 1 ∧ 0 ≤ s.regVal 2) ∧
    (busyWith 0x00100161).cur = commandWord 0x61 1 0 0 1 := by dsimp only; and_intros <;> decide +kernel
theorem witness_ModinvIsTheInverse :
    (let s := unit 2 [(0, 2), (1, 0), (2, -1), (3, 2), (4, 1)] 0 0
     s.Inv ∧ s.regVal 1 = 0 ∧ s.regVal 2 < 0 ∧
     (0 < s.regVal 3 ∧ Int.gcd (s.regVal 0 % s.regVal 3) (s.regVal 3) ≠ 1) ∧
     (0 < s.regVal 4 ∧ Int.gcd (s.regVal 0 % s.regVal 4) (s.regVal 4) = 1)) := by dsimp only; and_intros <;> decide +kernel
theorem witness_ModexpIsTheReducedPower :
    (let s := unit 2 [(0, 2), (1, 0), (2, -1), (3, 1), (4, 3)] 0 0
     s.Inv ∧ s.regVal 1 = 0 ∧ s.regVal 2 < 0 ∧ (0 < s.regVal 3 ∧ s.regVal 2 < 0) ∧
     (0 < s.regVal 3 ∧ 0 ≤ s.regVal 1 ∧ s.regVal 3 ∣ s.regVal 0) ∧
     (0 < s.regVal 4 ∧ 0 ≤ s.regVal 1 ∧ ¬ s.regVal 4 ∣ s.regVal 0)) := by dsimp only; and_intros <;> decide +kernel
theorem witness_OneRegisterCommandsFrame : ∃ t, exec (.mov 1 0) (unit 2 [(0, -1)] 0 0) = .next t := ⟨_, rfl⟩
theorem witness_BezoutFrame : (1 : BigReg) ≠ 2 ∧ ∃ t, exec (.bezout 1 2 0 0) (unit 2 [(0, 5)] 0 0) = .next t :=
  ⟨by decide, _, rfl⟩
theorem witness_ScalarCommandsFrame : ∃ t, exec (.cmp 0 1) (unit 2 [(0, -1)] 0 0) = .next t := ⟨_, rfl⟩
theorem witness_ErrorEntryChangesNothingElse :
    (unit 2 [] 0 0).err = false ∧ ∃ t, exec (.tz 0) (unit 2 [] 0 0) = .next t ∧ t.err = true := ⟨rfl, _, rfl, rfl⟩
theorem witness_CommandsRaiseOnlyTheirErrors :
    (unit 2 [] 0 0).Inv ∧ (Instr.ld 0).wellFormed = true ∧ (unit 2 [] 0 0).err = false ∧
    ∃ t, exec (.ld 0) (unit 2 [] 0 0) = .next t := ⟨by and_intros <;> decide +kernel, rfl, rfl, _, rfl⟩
theorem witness_ResultDependsOnTheOperandsAlone :
    (unit 2 [(0, 1)] 3 4).SameOperands { unit 2 [(0, 1)] 3 4 with z := true, drop := true, ie := true, sres := 9 } :=
  ⟨rfl, rfl, rfl, rfl, rfl, rfl, rfl, rfl, rfl⟩
theorem witness_ResultIsThatOfTheStateAtIssue :
    (busyWith 0x00000203).Inv ∧ (busyWith 0x00000203).busy = true ∧
    ∃ rest : List Event, [Event.unitTurn, .reset] = .unitTurn :: rest :=
  ⟨by and_intros <;> decide +kernel, rfl, _, rfl⟩
theorem witness_WindowIsTheLeastPowerOfTwo :
    (⟨2, false⟩ : Params).Ok ∧ windowSize (unit 2 [] 0 0).params ≤ (rd 0x2000).offset := by and_intros <;> decide +kernel
theorem witness_MalformedAccessGetsBusError :
    (⟨.w8, 0, .read⟩ : Access).offset < windowSize (unit 2 [] 0 0).params ∧ (⟨.w8, 0, .read⟩ : Access).width ≠ .w32 ∧
    (rd 0x1FFF).offset < windowSize (unit 2 [] 0 0).params ∧ (rd 0x1FFF).offset % 4 ≠ 0 := by and_intros <;> decide +kernel
/-- The first and the last offset of every row of the register map. -/
theorem witness_ReadsReturnTheRegisterMap :
    (unit 2 [] 0 0).params.Ok ∧ ∀ o ∈ [0x000, 0x004, 0x008, 0x00C, 0x010, 0x014, 0x018, 0x01C, 0x020, 0x024, 0xFFC,
      0x1000, 0x1004, 0x1008, 0x1FFC], o < windowSize (unit 2 [] 0 0).params ∧ o % 4 = 0 := by and_intros <;> decide +kernel
theorem witness_WritesAreDroppedWhileBusy :
    (busyWith 3).params.Ok ∧ (busyWith 3).busy = true ∧ 0 < (busyWith 3).params.lmax ∧ 1 < (busyWith 3).params.lmax := by and_intros <;> decide +kernel
theorem witness_WritesAreStoredWhenIdle :
    (unit 2 [] 0 0).params.Ok ∧ (unit 2 [] 0 0).busy = false ∧ 0 < (unit 2 [] 0 0).params.lmax ∧
    1 < (unit 2 [] 0 0).params.lmax := by and_intros <;> decide +kernel
theorem witness_ReadOnlyWritesDoNothing :
    (busyWith 3).params.Ok ∧ ∀ o ∈ [0x000, 0x010, 0x01C, 0x024, 0xFFC, 0x1008, 0x1FFC],
      o < windowSize (busyWith 3).params ∧ o % 4 = 0 ∧
      (o = 0x000 ∨ o = 0x010 ∨ o = 0x01C ∨ (0x024 ≤ o ∧ o < 0x1000) ∨ 0x1000 + 4 * (busyWith 3).params.lmax ≤ o) := by and_intros <;> decide +kernel
theorem witness_StatusWriteClearsAndAcknowledges :
    erred.params.Ok ∧ (0x00000004 : Word).getLsbD 2 = true ∧ erred.busy = false := by and_intros <;> decide +kernel
theorem witness_IssueAcceptsOrDrops :
    (busyWith 3).params.Ok ∧ (busyWith 3).busy = true ∧ erred.params.Ok ∧ erred.err = true ∧
    (unit 2 [] 0 0).busy = false ∧ (unit 2 [] 0 0).err = false := by and_intros <;> decide +kernel
theorem witness_IssuedCommandRunsToItsEnd :
    (unit 2 [] 0 0).params.Ok ∧ (Instr.mov 1 0).wellFormed = true ∧ (unit 2 [] 0 0).busy = false ∧
    (unit 2 [] 0 0).err = false := by and_intros <;> decide +kernel
theorem witness_IrqFollowsEnableAndDone :
    (unit 2 [] 0 0).params.Ok ∧ (unit 2 [] 0 0).busy = false ∧ (unit 2 [] 0 0).err = false ∧
    (0x00000002 : Word).getLsbD 1 = true ∧ ∃ t, exec (.mov 1 0) (unit 2 [] 0 0) = .next t :=
  ⟨by decide, rfl, rfl, by decide, _, rfl⟩

end Sys2Proof.Tests
end

