-- ==== Sys2Proof/Proofs/Ladder.lean ====
section
/-! SUPPORT. No result depends on LADDER (00_scope.md rule R6, 45_modular.md rule R259): the operations over the state
commute with setting LADDER, the operands and the checks do not read it, and MODEXP, the one command that does, computes
the same power by both of its loops. -/

namespace Sys2Proof.Machine

/-! ### Setting LADDER -/

/-- The same state of the unit built with the other value of LADDER, or with the same one (00 R5). -/
def State.withLadder (s : State) (l : Bool) : State := { s with params := { s.params with ladder := l } }

section
variable (s : State) (l : Bool)

@[simp] theorem State.withLadder_reg (i : BigReg) : (s.withLadder l).reg i = s.reg i := rfl
@[simp] theorem State.withLadder_regVal (i : BigReg) : (s.withLadder l).regVal i = s.regVal i := rfl

theorem State.raise_withLadder (e : ErrorKind) : (s.withLadder l).raise e = (s.raise e).withLadder l := rfl

theorem State.finishBig_withLadder (rd : BigReg) (v : Int) :
    (s.withLadder l).finishBig rd v = (s.finishBig rd v).withLadder l := by
  by_cases h : s.fits v
  · rw [s.finishBig_fits rd v h, (s.withLadder l).finishBig_fits rd v h]; rfl
  · rw [s.finishBig_overflow rd v h, (s.withLadder l).finishBig_overflow rd v h]; rfl

theorem State.finishBigPair_withLadder (rd rc : BigReg) (v w : Int) :
    (s.withLadder l).finishBigPair rd rc v w = (s.finishBigPair rd rc v w).withLadder l := by
  by_cases h : s.fits v ∧ s.fits w
  · rw [s.finishBigPair_fits rd rc v w h, (s.withLadder l).finishBigPair_fits rd rc v w h]; rfl
  · rw [s.finishBigPair_overflow rd rc v w h, (s.withLadder l).finishBigPair_overflow rd rc v w h]; rfl

theorem State.finishScalar_withLadder (v : Nat) :
    (s.withLadder l).finishScalar v = (s.finishScalar v).withLadder l := rfl

end

/-! ### Outcomes that agree but for LADDER -/

/-- Both outcomes are next states, and the second state is the first with LADDER set to `l`. -/
def SameButLadder (l : Bool) (o o' : Host.Outcome State Fault Refusal) : Prop :=
  ∃ t, o = .next t ∧ o' = .next (t.withLadder l)

namespace SameButLadder
variable (s : State) (l : Bool)

theorem raise (e : ErrorKind) : SameButLadder l (.next (s.raise e)) (.next ((s.withLadder l).raise e)) :=
  ⟨_, rfl, congrArg _ (s.raise_withLadder l e)⟩

theorem finishBig (rd : BigReg) (v : Int) :
    SameButLadder l (.next (s.finishBig rd v)) (.next ((s.withLadder l).finishBig rd v)) :=
  ⟨_, rfl, congrArg _ (s.finishBig_withLadder l rd v)⟩

theorem finishBigPair (rd rc : BigReg) (v w : Int) :
    SameButLadder l (.next (s.finishBigPair rd rc v w)) (.next ((s.withLadder l).finishBigPair rd rc v w)) :=
  ⟨_, rfl, congrArg _ (s.finishBigPair_withLadder l rd rc v w)⟩

theorem finishScalar (v : Nat) :
    SameButLadder l (.next (s.finishScalar v)) (.next ((s.withLadder l).finishScalar v)) :=
  ⟨_, rfl, congrArg _ (s.finishScalar_withLadder l v)⟩

/-- A check that both builds make alike keeps the agreement of the two branches. -/
theorem ite {l : Bool} {p : Prop} [Decidable p] {a a' b b' : Host.Outcome State Fault Refusal}
    (ha : p → SameButLadder l a a') (hb : ¬ p → SameButLadder l b b') :
    SameButLadder l (if p then a else b) (if p then a' else b') := by
  by_cases h : p
  · simpa only [if_pos h] using ha h
  · simpa only [if_neg h] using hb h

end SameButLadder

/-! ### The commands with a modulus -/

/-- A modulus that passes the checks is positive (43 R196). -/
theorem modulus_pos_of_modulusError_eq_none {m : BigInt} (h : modulusError m = none) : 0 < m.val := by
  unfold modulusError at h
  split_ifs at h
  omega

section
variable (rd ra rb rc : BigReg) (s : State) (l : Bool)

theorem execMod_sameButLadder : SameButLadder l (execMod rd ra rb s) (execMod rd ra rb (s.withLadder l)) := by
  simp only [execMod, State.withLadder_reg]
  cases modulusError (s.reg rb) with
  | some e => exact .raise s l e
  | none => exact .finishBig s l rd _

theorem execModinv_sameButLadder :
    SameButLadder l (execModinv rd ra rb s) (execModinv rd ra rb (s.withLadder l)) := by
  simp only [execModinv, State.withLadder_reg, State.withLadder_regVal]
  cases modulusError (s.reg rb) with
  | some e => exact .raise s l e
  | none =>
    cases modinv (s.regVal ra) (s.regVal rb) with
    | none => exact .raise s l .noInverse
    | some v => exact .finishBig s l rd v

theorem execMulmod_sameButLadder :
    SameButLadder l (execMulmod rd ra rb rc s) (execMulmod rd ra rb rc (s.withLadder l)) := by
  simp only [execMulmod, State.withLadder_reg, State.withLadder_regVal]
  cases modulusError (s.reg rc) with
  | some e => exact .raise s l e
  | none => exact .finishBig s l rd _

/-- Both loops of MODEXP compute the value of 45 R261, so they agree (45 R259). -/
theorem modexp_ladder_irrelevant (l l' : Bool) (base e m : Int) (hm : 0 < m) (he : 0 ≤ e) :
    modexp l base e m = modexp l' base e m := by
  rw [modexp_eq l base e m hm he, modexp_eq l' base e m hm he]

/-- MODEXP is the one command that reads LADDER; after its checks the modulus is positive and the exponent is not
negative, where the two loops agree (45 R259). -/
theorem execModexp_sameButLadder :
    SameButLadder l (execModexp rd ra rb rc s) (execModexp rd ra rb rc (s.withLadder l)) := by
  simp only [execModexp, State.withLadder_reg]
  cases hmod : modulusError (s.reg rc) with
  | some e => exact .raise s l e
  | none =>
    have hm : 0 < s.regVal rc := modulus_pos_of_modulusError_eq_none hmod
    refine .ite (fun _ => .raise s l .domain) fun he => ?_
    rw [modexp_ladder_irrelevant s.params.ladder l _ _ _ hm (not_lt.mp he)]
    exact .finishBig s l rd _

/-! ### Every command -/

/-- Every command takes a state and the same state of the other build to the same end. Only MODEXP reads LADDER; every
other operand and check is the same of both states by unfolding. -/
theorem exec_sameButLadder (i : Instr) : SameButLadder l (exec i s) (exec i (s.withLadder l)) := by
  cases i with
  | ld rd => exact .ite (fun _ => .raise s l .length) fun _ => .finishBig s l rd _
  | st ra => exact ⟨_, rfl, rfl⟩
  | mov rd ra => exact .finishBig s l rd _
  | ldi rd => exact .finishBig s l rd _
  | add rd ra rb => exact .finishBig s l rd _
  | sub rd ra rb => exact .finishBig s l rd _
  | mul rd ra rb => exact .finishBig s l rd _
  | muls rd ra => exact .finishBig s l rd _
  | muladd rd ra => exact .ite (fun _ => .raise s l .domain) fun _ => .finishBig s l rd _
  | div rd ra rb => exact .ite (fun _ => .raise s l .divisionByZero) fun _ => .finishBig s l rd _
  | mod rd ra rb => exact execMod_sameButLadder rd ra rb s l
  | shl rd ra => exact .ite (fun _ => .raise s l .overflow) fun _ => .finishBig s l rd _
  | shr rd ra => exact .ite (fun _ => .raise s l .overflow) fun _ => .finishBig s l rd _
  | cmp ra rb => exact ⟨_, rfl, rfl⟩
  | size ra => exact .finishScalar s l _
  | tz ra => exact .ite (fun _ => .raise s l .domain) fun _ => .finishScalar s l _
  | bit ra => exact .finishScalar s l _
  | abs rd ra => exact .finishBig s l rd _
  | ispow2 ra => exact .finishScalar s l _
  | gcd rd ra rb => exact .finishBig s l rd _
  | bezout rd rc ra rb =>
    exact .ite (fun _ => .raise s l .illegalCommand) fun _ =>
      .ite (fun _ => .raise s l .domain) fun _ => .finishBigPair s l rd rc _ _
  | modinv rd ra rb => exact execModinv_sameButLadder rd ra rb s l
  | mulmod rd ra rb rc => exact execMulmod_sameButLadder rd ra rb rc s l
  | modexp rd ra rb rc => exact execModexp_sameButLadder rd ra rb rc s l

end

/-- Settles O39: the case split over the commands, of which only MODEXP reads LADDER. -/
theorem noResultDependsOnLadder : Obligations.NoResultDependsOnLadder := by
  intro i s l _
  exact exec_sameButLadder s l i

end Sys2Proof.Machine
end

