-- ==== Sys2Proof/Proofs/Invariant.lean ====
section
/-! SUPPORT. The reset state and the invariant (10_state.md rules R22, R28, R32, R36, R40): one lemma per operation over
the state that says it keeps the invariant, so a step, which is one of these operations, keeps it. -/

namespace Sys2Proof.Machine

/-! ### The reset state -/

/-- Every big register holds 0 right after reset (10 R40). -/
@[simp] theorem State.resetOf_reg (p : Params) (e : Nat) (l : List Event) (i : BigReg) :
    (State.resetOf p e l).reg i = BigInt.zero := by
  simp [State.reg, State.resetOf]

/-- STATUS, CTRL and OHDR read 0 right after reset (10 R40). -/
theorem State.resetOf_words (p : Params) (e : Nat) (l : List Event) :
    (State.resetOf p e l).statusWord = 0 ∧ (State.resetOf p e l).ctrlWord = 0 ∧
      (State.resetOf p e l).ohdrWord = 0 := by
  simp only [State.statusWord, State.ctrlWord, State.ohdrWord, State.resetOf]
  decide

/-- The invariant holds right after reset, whatever the build. -/
theorem State.resetOf_inv {p : Params} (hp : p.Ok) (e : Nat) (l : List Event) : (State.resetOf p e l).Inv := by
  have hregs : (State.resetOf p e l).RegsOk := by
    intro i
    rw [State.resetOf_reg]
    exact ⟨zero_normal, le_trans one_le_two hp.1⟩
  have hstatus : (State.resetOf p e l).StatusOk := by simp [State.StatusOk, State.resetOf]
  exact ⟨hp, hregs, hstatus, State.resetOf_wf p e l, by simp [State.resetOf]⟩

/-- Settles O10: both are cases of `State.resetOf_inv`. -/
theorem invariantHoldsAtReset : Obligations.InvariantHoldsAtReset :=
  ⟨State.resetOf_inv (by decide) 0 [], fun _ e l hp => State.resetOf_inv hp e l⟩

/-! ### The step, one equation per first event -/

section
variable {s : State} {rest : List Event}

theorem step_access {a : Access} (h : s.inputs = .access a :: rest) : step s = (s.setInputs rest).access a := by
  simp only [step, h]

theorem step_unitTurn (h : s.inputs = .unitTurn :: rest) : step s = unitTurn (s.setInputs rest) := by
  simp only [step, h]

theorem step_reset (h : s.inputs = .reset :: rest) :
    step s = .next (State.resetOf s.params (s.epoch + 1) rest) := by
  simp only [step, h]; rfl

theorem step_nil (h : s.inputs = []) : step s = unitTurn s := by
  simp only [step, h]

end

/-- An idle unit's turn changes nothing (10 R20). -/
theorem unitTurn_idle {s : State} (h : s.busy = false) : unitTurn s = .next s := by
  simp [unitTurn, h]

/-- Settles O7: the step's equation for each first event, and that an idle unit's turn does nothing. -/
theorem stepTakesTheFirstEvent : Obligations.StepTakesTheFirstEvent := by
  intro s
  refine ⟨fun a rest h => step_access h, fun rest h => step_reset h, fun rest h hidle => ?_, fun h hidle => ?_⟩
  · rw [step_unitTurn h]; exact unitTurn_idle hidle
  · rw [step_nil h]; exact unitTurn_idle hidle

/-- Settles O11: the step answers the state of 10 R40, whose registers are read off. -/
theorem resetEventPutsTheResetState : Obligations.ResetEventPutsTheResetState := by
  intro s rest h
  obtain ⟨hstatus, hctrl, hohdr⟩ := State.resetOf_words s.params (s.epoch + 1) rest
  refine ⟨_, step_reset h, State.resetOf_reg _ _ _, rfl, rfl, hstatus, ?_⟩
  exact ⟨rfl, rfl, rfl, rfl, rfl, hctrl, rfl, rfl, rfl, rfl, rfl, rfl, hohdr, rfl, rfl, rfl⟩

/-- Settles O12: no cell of the buffer is known right after reset, so every byte is the free value (log entry 4). -/
theorem resetEventForgetsTheBuffer : Obligations.ResetEventForgetsTheBuffer := by
  intro s rest h
  exact ⟨_, step_reset h, fun _ => rfl, rfl, rfl, rfl, rfl⟩

/-! ### Operations that keep the invariant -/

/-- The error codes are 1 to 7 (60 R280). -/
theorem ErrorKind.code_range (e : ErrorKind) : e.code ≠ 0 ∧ e.code.toNat ≤ 7 := by
  cases e <;> decide

section
variable {s : State}

theorem State.StatusOk.raise (s : State) (e : ErrorKind) : (s.raise e).StatusOk := by
  obtain ⟨hne, hle⟩ := e.code_range
  exact ⟨fun _ => ⟨rfl, hne⟩, fun _ => rfl, fun h => absurd h Bool.false_ne_true, hle,
    fun h => absurd h.symm Bool.false_ne_true⟩

theorem State.StatusOk.complete (h : s.StatusOk) : s.complete.StatusOk := by
  obtain ⟨herr, hcode, -, hle, hcmd⟩ := h
  exact ⟨fun he => ⟨rfl, (herr he).2⟩, hcode, fun hb => absurd hb Bool.false_ne_true, hle, hcmd⟩

theorem State.StatusOk.accept (h : s.StatusOk) (herr : s.err = false) (c : Word) : (s.accept c).StatusOk := by
  obtain ⟨-, hcode, -, hle, hcmd⟩ := h
  exact ⟨fun he => absurd (herr.symm.trans he) Bool.false_ne_true, hcode, fun _ => rfl, hle, hcmd⟩

/-- A STATUS write clears the error record as a whole or leaves it, and lowers DONE or leaves it (10 R28, 60 R287). -/
theorem State.StatusOk.writeStatus (h : s.StatusOk) (v : Word) : (s.writeStatus v).StatusOk := by
  obtain ⟨herr, hcode, hdone, hle, hcmd⟩ := h
  unfold State.writeStatus
  split
  · exact ⟨fun he => absurd he Bool.false_ne_true, fun hc => absurd rfl hc, fun hb => by simp [hdone hb], Nat.zero_le _,
      fun _ => rfl⟩
  · exact ⟨herr, hcode, fun hb => by simp [hdone hb], hle, hcmd⟩

theorem State.RegsOk.setReg (h : s.RegsOk) (i : BigReg) {v : Int} (hv : s.fits v) : (s.setReg i v).RegsOk := by
  intro j
  rw [State.reg_setReg]
  split
  · exact ⟨big_normal v, (big_len v).le.trans hv⟩
  · exact h j

end

namespace State.Inv
variable {s : State} (h : s.Inv)
include h

theorem raise (e : ErrorKind) : (s.raise e).Inv := by
  obtain ⟨hparams, hregs, -, hbuf⟩ := h
  exact ⟨hparams, hregs, .raise s e, hbuf⟩

theorem complete : s.complete.Inv := by
  obtain ⟨hparams, hregs, hstatus, hbuf⟩ := h
  exact ⟨hparams, hregs, hstatus.complete, hbuf⟩

theorem setReg (i : BigReg) {v : Int} (hv : s.fits v) : (s.setReg i v).Inv := by
  obtain ⟨hparams, hregs, hstatus, hbuf⟩ := h
  exact ⟨hparams, hregs.setReg i hv, hstatus, hbuf⟩

theorem setFlags (z n : Bool) : (s.setFlags z n).Inv := h

theorem setZN (v : Int) : (s.setZN v).Inv := h

theorem setSres (w : Word) : (s.setSres w).Inv := h

theorem storeBuffer (ra : BigReg) : (s.storeBuffer (s.reg ra)).Inv := by
  obtain ⟨hparams, hregs, hstatus, -⟩ := h
  exact ⟨hparams, hregs, hstatus, s.bufferOk_storeBuffer (s.reg ra) (hregs ra).2⟩

theorem setInputs (l : List Event) : (s.setInputs l).Inv := h

theorem respond (r : Response) : (s.respond r).Inv := h

theorem stray : s.stray.Inv := h

theorem dropWrite : s.dropWrite.Inv := h

theorem resetEvent : s.resetEvent.Inv := State.resetOf_inv h.1 _ _

theorem setObufWord {i : Nat} (hi : i < s.params.lmax) (w : Word) : (s.setObufWord i w).Inv := by
  obtain ⟨hparams, hregs, hstatus, hbuf⟩ := h
  exact ⟨hparams, hregs, hstatus, s.bufferOk_setObufWord i w hbuf hi⟩

theorem writeStatus (v : Word) : (s.writeStatus v).Inv := by
  obtain ⟨hparams, hregs, hstatus, hbuf⟩ := h
  have hkeep : (s.writeStatus v).params = s.params ∧ (s.writeStatus v).regs = s.regs ∧
      (s.writeStatus v).obuf = s.obuf := by
    unfold State.writeStatus
    split <;> exact ⟨rfl, rfl, rfl⟩
  obtain ⟨hp, hr, hb⟩ := hkeep
  refine ⟨hp ▸ hparams, fun i => ?_, hstatus.writeStatus v, ?_⟩
  · simpa only [State.reg, hp, hr] using hregs i
  · simpa only [State.BufferOk, hp, hb] using hbuf

/-- A command is accepted by an idle unit without an error only (20 R66). -/
theorem issue (c : Word) : (s.issue c).Inv := by
  unfold State.issue
  split
  · exact h.dropWrite
  · rename_i hfree
    obtain ⟨hparams, hregs, hstatus, hbuf⟩ := h
    have herr : s.err = false := by
      simp only [Bool.or_eq_true, not_or, Bool.not_eq_true] at hfree
      exact hfree.2
    exact ⟨hparams, hregs, hstatus.accept herr c, hbuf⟩

theorem unlessBusy {t : State} (ht : t.Inv) : (s.unlessBusy t).Inv := by
  unfold State.unlessBusy
  split
  · exact h.dropWrite
  · exact ht

/-- A host's write keeps the invariant: only the CMD, STATUS and OBUF writes touch what it speaks of. -/
theorem writeLocation (v : Word) (l : Location) (hl : ∀ i, l = .obuf i → i < s.params.lmax) :
    (s.writeLocation v l).Inv := by
  cases l with
  | status => exact h.writeStatus v
  | cmd => exact h.issue v
  | obuf i => exact h.unlessBusy (h.setObufWord (hl i rfl) v)
  | sa => exact h.unlessBusy h
  | sb => exact h.unlessBusy h
  | ohdr => exact h.unlessBusy h
  | id => exact h
  | ctrl => exact h
  | ecmd => exact h
  | sres => exact h
  | reserved => exact h

theorem access {t : State} {a : Access} (ha : s.access a = .next t) : t.Inv := by
  obtain ⟨-, he⟩ | ⟨-, r, he⟩ | ⟨-, v, -, -, -, he⟩ := access_cases a s <;>
    cases he.symm.trans ha
  · exact h.stray
  · exact h.respond r
  · exact (h.writeLocation v _ fun i hi => (locate_obuf hi).1).respond .ok

/-- Every way a completion step can end keeps the invariant. -/
theorem ends {t : State} (ht : Ends s t) : t.Inv := by
  obtain ⟨e, rfl⟩ | ⟨rd, v, hv, rfl⟩ | ⟨rd, rc, v, w, ⟨hv, hw⟩, rfl⟩ | ⟨w, z, n, rfl⟩ | ⟨ra, rfl⟩ := ht
  · exact h.raise e
  · exact ((h.setReg rd hv).setZN v).complete
  · exact (((h.setReg rd hv).setReg rc hw).setZN v).complete
  · exact ((h.setSres w).setFlags z n).complete
  · exact ((h.storeBuffer ra).setZN _).complete

theorem unitStep {t : State} (ht : unitStep s = .next t) : t.Inv := by
  unfold Machine.unitStep at ht
  split at ht
  · rename_i i _
    obtain ⟨u, hu, hends⟩ := exec_ends i s
    cases hu.symm.trans ht
    exact h.ends hends
  · cases ht
    exact h.raise .illegalCommand

theorem unitTurn {t : State} (ht : unitTurn s = .next t) : t.Inv := by
  unfold Machine.unitTurn at ht
  split at ht
  · exact h.unitStep ht
  · cases ht
    exact h

end State.Inv

/-- Settles O9: by the first event presented, each of which is an operation that keeps the invariant. -/
theorem everyStepKeepsTheInvariant : Obligations.EveryStepKeepsTheInvariant := by
  intro s t h hstep
  match hin : s.inputs with
  | [] => exact h.unitTurn (step_nil hin ▸ hstep)
  | .access a :: rest => exact (h.setInputs rest).access (step_access hin ▸ hstep)
  | .unitTurn :: rest => exact (h.setInputs rest).unitTurn (step_unitTurn hin ▸ hstep)
  | .reset :: rest =>
    cases (step_reset hin).symm.trans hstep
    exact State.resetOf_inv h.1 _ rest

end Sys2Proof.Machine
end

