-- ==== Sys2Proof/Proofs/Frames.lean ====
section
/-! SUPPORT. How a command ends from two states with the same operands (20_memory.md rule R70): in the same error, or with
the same values in the same destination. The frames of the commands (60_exceptions.md rule R284) read off this what a
command changes; that a result depends on the operands alone is the same fact read across the two states. -/

namespace Sys2Proof.Machine

/-! ### What a command writes -/

/-- Where a command puts its result (30 R94, 10 R34): one big register, BEZOUT's two, SRES as CMP's signed answer or as an
unsigned count, or the limb buffer. -/
inductive Target where
  | one (rd : BigReg)
  | two (rd rc : BigReg)
  | scalar (signed : Bool)
  | buffer
  deriving DecidableEq

end Sys2Proof.Machine

/-- The target of every command (30 R94). -/
def Sys2Proof.Instr.target : Sys2Proof.Instr → Sys2Proof.Machine.Target
  | .ld rd => .one rd
  | .st _ => .buffer
  | .mov rd _ => .one rd
  | .ldi rd => .one rd
  | .add rd _ _ => .one rd
  | .sub rd _ _ => .one rd
  | .mul rd _ _ => .one rd
  | .muls rd _ => .one rd
  | .muladd rd _ => .one rd
  | .div rd _ _ => .one rd
  | .mod rd _ _ => .one rd
  | .shl rd _ => .one rd
  | .shr rd _ => .one rd
  | .cmp _ _ => .scalar true
  | .size _ => .scalar false
  | .tz _ => .scalar false
  | .bit _ => .scalar false
  | .abs rd _ => .one rd
  | .ispow2 _ => .scalar false
  | .gcd rd _ _ => .one rd
  | .bezout rd rc _ _ => .two rd rc
  | .modinv rd _ _ => .one rd
  | .mulmod rd _ _ _ => .one rd
  | .modexp rd _ _ _ => .one rd

namespace Sys2Proof.Machine

/-- The end that writes SRES: Z for a zero word, N for a word that is -1 when the word is CMP's (10 R27, 44 R216). -/
def State.afterWord (s : State) (signed : Bool) (w : Word) : State :=
  s.afterScalar w (decide (w = 0)) (signed && decide (w = 0xFFFFFFFF))

/-- The end that writes the limb buffer, its header and the flags (40 R121). -/
def State.afterStore (s : State) (x : BigInt) : State := ((s.storeBuffer x).setZN x.val).complete

/-- `s` ends in `t` and `s'` in `t'`: in the same error, or with the same values written to the target. -/
inductive EndAlike (s s' : State) : Target → State → State → Prop
  | error (k : Target) (e : BitVec 4) : EndAlike s s' k (s.afterError e) (s'.afterError e)
  | one (rd : BigReg) (v : Int) : EndAlike s s' (.one rd) (s.afterBig rd v) (s'.afterBig rd v)
  | two (rd rc : BigReg) (v w : Int) : EndAlike s s' (.two rd rc) (s.afterPair rd rc v w) (s'.afterPair rd rc v w)
  | scalar (signed : Bool) (w : Word) : EndAlike s s' (.scalar signed) (s.afterWord signed w) (s'.afterWord signed w)
  | buffer (x : BigInt) : EndAlike s s' .buffer (s.afterStore x) (s'.afterStore x)

/-- Two outcomes are next states that end alike. -/
def OutcomesAlike (s s' : State) (k : Target) (o o' : Host.Outcome State Fault Refusal) : Prop :=
  ∃ t t', o = .next t ∧ o' = .next t' ∧ EndAlike s s' k t t'

namespace OutcomesAlike

theorem raise (s s' : State) (k : Target) (e : ErrorKind) :
    OutcomesAlike s s' k (.next (s.raise e)) (.next (s'.raise e)) :=
  ⟨_, _, rfl, rfl, .error k e.code⟩

theorem afterWord (s s' : State) (signed : Bool) (w : Word) :
    OutcomesAlike s s' (.scalar signed) (.next (s.afterWord signed w)) (.next (s'.afterWord signed w)) :=
  ⟨_, _, rfl, rfl, .scalar signed w⟩

theorem finishScalar (s s' : State) (v : Nat) :
    OutcomesAlike s s' (.scalar false) (.next (s.finishScalar v)) (.next (s'.finishScalar v)) :=
  afterWord s s' false (BitVec.ofNat 32 v)

/-- The capacity check is the same of two states of one build. -/
theorem finishBig {s s' : State} (hp : s'.params = s.params) (rd : BigReg) (v : Int) :
    OutcomesAlike s s' (.one rd) (.next (s.finishBig rd v)) (.next (s'.finishBig rd v)) := by
  have hfits : s'.fits v ↔ s.fits v := by simp only [State.fits, hp]
  by_cases h : s.fits v
  · rw [s.finishBig_fits rd v h, s'.finishBig_fits rd v (hfits.2 h)]
    exact ⟨_, _, rfl, rfl, .one rd v⟩
  · rw [s.finishBig_overflow rd v h, s'.finishBig_overflow rd v (mt hfits.1 h)]
    exact ⟨_, _, rfl, rfl, .error _ 4⟩

theorem finishBigPair {s s' : State} (hp : s'.params = s.params) (rd rc : BigReg) (v w : Int) :
    OutcomesAlike s s' (.two rd rc) (.next (s.finishBigPair rd rc v w)) (.next (s'.finishBigPair rd rc v w)) := by
  have hfits : s'.fits v ∧ s'.fits w ↔ s.fits v ∧ s.fits w := by simp only [State.fits, hp]
  by_cases h : s.fits v ∧ s.fits w
  · rw [s.finishBigPair_fits rd rc v w h, s'.finishBigPair_fits rd rc v w (hfits.2 h)]
    exact ⟨_, _, rfl, rfl, .two rd rc v w⟩
  · rw [s.finishBigPair_overflow rd rc v w h, s'.finishBigPair_overflow rd rc v w (mt hfits.1 h)]
    exact ⟨_, _, rfl, rfl, .error _ 4⟩

/-- A check that both states answer alike keeps the agreement of the two branches. -/
theorem ite {s s' : State} {k : Target} {p : Prop} [Decidable p] {a a' b b' : Host.Outcome State Fault Refusal}
    (ha : OutcomesAlike s s' k a a') (hb : OutcomesAlike s s' k b b') :
    OutcomesAlike s s' k (if p then a else b) (if p then a' else b') := by
  by_cases h : p
  · simpa only [if_pos h] using ha
  · simpa only [if_neg h] using hb

end OutcomesAlike

/-! ### CMP's answer -/

/-- A comparison of magnitudes answers -1, 0 or 1, whether they are normalized or not (41 R141). -/
theorem cmpTop_range (ps : List (Word × Word)) : cmpTop ps = -1 ∨ cmpTop ps = 0 ∨ cmpTop ps = 1 := by
  induction ps with
  | nil => simp [cmpTop]
  | cons p ps ih =>
    unfold cmpTop
    split
    · exact .inl rfl
    · split
      · exact .inr (.inr rfl)
      · exact ih

theorem magCmp_range (x y : Limbs) : magCmp x y = -1 ∨ magCmp x y = 0 ∨ magCmp x y = 1 := by
  unfold magCmp
  split
  · exact .inl rfl
  · split
    · exact .inr (.inr rfl)
    · exact cmpTop_range _

/-- CMP answers -1, 0 or 1 (44 R215). -/
theorem cmp_range (a b : BigInt) : BigInt.cmp a b = -1 ∨ BigInt.cmp a b = 0 ∨ BigInt.cmp a b = 1 := by
  have h := magCmp_range a.limbs b.limbs
  unfold BigInt.cmp
  split_ifs <;> omega

/-- CMP ends with its answer's word, and the flags are those of the word (44 R216). -/
theorem execCmp_eq (ra rb : BigReg) (s : State) :
    execCmp ra rb s = .next (s.afterWord true (BitVec.ofInt 32 (BigInt.cmp (s.reg ra) (s.reg rb)))) := by
  unfold execCmp
  obtain h | h | h := cmp_range (s.reg ra) (s.reg rb) <;> rw [h] <;> rfl

/-! ### Every command from two states with the same operands -/

/-- `u` with the operands of `s`, everything that no command reads being `u`'s own. -/
def State.withOperands (u s : State) : State :=
  { u with
    params := s.params, regs := s.regs, sa := s.sa, sb := s.sb, olen := s.olen, osign := s.osign, obuf := s.obuf,
    epoch := s.epoch, cur := s.cur }

@[simp] theorem State.withOperands_reg (u s : State) (i : BigReg) : (u.withOperands s).reg i = s.reg i := rfl
@[simp] theorem State.withOperands_regVal (u s : State) (i : BigReg) : (u.withOperands s).regVal i = s.regVal i := rfl

theorem State.SameOperands.eq_withOperands {s s' : State} (h : s.SameOperands s') : s' = s'.withOperands s := by
  obtain ⟨hparams, hregs, hsa, hsb, holen, hosign, hobuf, hepoch, hcur⟩ := h
  rw [State.withOperands, ← hparams, ← hregs, ← hsa, ← hsb, ← holen, ← hosign, ← hobuf, ← hepoch, ← hcur]

/-- Every command ends alike from `s` and from a state with the operands of `s`: its checks and values read the operands
alone, so they are the same by unfolding. -/
theorem exec_withOperands (i : Instr) (s u : State) :
    OutcomesAlike s (u.withOperands s) i.target (exec i s) (exec i (u.withOperands s)) := by
  have hparams : (u.withOperands s).params = s.params := rfl
  have big (rd : BigReg) (v : Int) : OutcomesAlike s (u.withOperands s) (.one rd) (.next (s.finishBig rd v))
      (.next ((u.withOperands s).finishBig rd v)) := .finishBig hparams rd v
  have raise (k : Target) (e : ErrorKind) :
      OutcomesAlike s (u.withOperands s) k (.next (s.raise e)) (.next ((u.withOperands s).raise e)) := .raise _ _ k e
  cases i with
  | ld rd => exact .ite (raise _ .length) (big rd _)
  | st ra => exact ⟨_, _, rfl, rfl, .buffer (s.reg ra)⟩
  | mov rd ra => exact big rd _
  | ldi rd => exact big rd _
  | add rd ra rb => exact big rd _
  | sub rd ra rb => exact big rd _
  | mul rd ra rb => exact big rd _
  | muls rd ra => exact big rd _
  | muladd rd ra => exact .ite (raise _ .domain) (big rd _)
  | div rd ra rb => exact .ite (raise _ .divisionByZero) (big rd _)
  | mod rd ra rb =>
    simp only [exec, execMod, State.withOperands_reg]
    cases modulusError (s.reg rb) with
    | some e => exact raise _ e
    | none => exact big rd _
  | shl rd ra => exact .ite (raise _ .overflow) (big rd _)
  | shr rd ra => exact .ite (raise _ .overflow) (big rd _)
  | cmp ra rb =>
    simp only [exec, execCmp_eq]
    exact .afterWord _ _ true _
  | size ra => exact .finishScalar _ _ _
  | tz ra => exact .ite (raise _ .domain) (.finishScalar _ _ _)
  | bit ra => exact .finishScalar _ _ _
  | abs rd ra => exact big rd _
  | ispow2 ra => exact .finishScalar _ _ _
  | gcd rd ra rb => exact big rd _
  | bezout rd rc ra rb =>
    exact .ite (raise _ .illegalCommand) (.ite (raise _ .domain) (.finishBigPair hparams rd rc _ _))
  | modinv rd ra rb =>
    simp only [exec, execModinv, State.withOperands_reg, State.withOperands_regVal]
    cases modulusError (s.reg rb) with
    | some e => exact raise _ e
    | none =>
      cases modinv (s.regVal ra) (s.regVal rb) with
      | none => exact raise _ .noInverse
      | some v => exact big rd v
  | mulmod rd ra rb rc =>
    simp only [exec, execMulmod, State.withOperands_reg]
    cases modulusError (s.reg rc) with
    | some e => exact raise _ e
    | none => exact big rd _
  | modexp rd ra rb rc =>
    simp only [exec, execModexp, State.withOperands_reg]
    cases modulusError (s.reg rc) with
    | some e => exact raise _ e
    | none => exact .ite (raise _ .domain) (big rd _)

/-- The same of any two states with the same operands. -/
theorem exec_endAlike (i : Instr) {s s' : State} (h : s.SameOperands s') :
    OutcomesAlike s s' i.target (exec i s) (exec i s') := by
  rw [h.eq_withOperands]
  exact exec_withOperands i s s'

theorem State.SameOperands.refl (s : State) : s.SameOperands s := ⟨rfl, rfl, rfl, rfl, rfl, rfl, rfl, rfl, rfl⟩

/-- How a command ends, from one state. -/
theorem exec_end {i : Instr} {s t : State} (h : exec i s = .next t) : EndAlike s s i.target t t := by
  obtain ⟨u, u', hu, hu', he⟩ := exec_endAlike i (State.SameOperands.refl s)
  cases hu.symm.trans h
  cases hu'.symm.trans h
  exact he

/-! ### What each end leaves unchanged -/

section
variable (s : State)

theorem State.sameOutside_afterError (e : BitVec 4) : s.SameOutside (s.afterError e) :=
  ⟨rfl, rfl, rfl, rfl, rfl, rfl, rfl, rfl, rfl, rfl⟩

theorem State.sameOutside_afterBig (rd : BigReg) (v : Int) : s.SameOutside (s.afterBig rd v) :=
  ⟨rfl, rfl, rfl, rfl, rfl, rfl, rfl, rfl, rfl, rfl⟩

theorem State.sameOutside_afterPair (rd rc : BigReg) (v w : Int) : s.SameOutside (s.afterPair rd rc v w) :=
  ⟨rfl, rfl, rfl, rfl, rfl, rfl, rfl, rfl, rfl, rfl⟩

theorem State.sameOutside_afterWord (signed : Bool) (w : Word) : s.SameOutside (s.afterWord signed w) :=
  ⟨rfl, rfl, rfl, rfl, rfl, rfl, rfl, rfl, rfl, rfl⟩

/-- A state with the header, the cells and the reset count of `s` has the buffer of `s`. -/
theorem State.SameBuffer.of_eq {s t : State} (hlen : t.olen = s.olen) (hsign : t.osign = s.osign)
    (hcells : t.obuf = s.obuf) (hepoch : t.epoch = s.epoch) : s.SameBuffer t :=
  ⟨hlen, hsign, fun a => by simp only [State.readByte, hcells, hepoch]⟩

theorem State.reg_afterBig (rd r : BigReg) (v : Int) :
    (s.afterBig rd v).reg r = if r = rd then big v else s.reg r :=
  s.reg_setReg rd r v

theorem State.reg_afterPair (rd rc r : BigReg) (v w : Int) :
    (s.afterPair rd rc v w).reg r = if r = rc then big w else if r = rd then big v else s.reg r := by
  rw [← s.reg_setReg rd r v]
  exact (s.setReg rd v).reg_setReg rc r w

end

/-! ### The frames -/

/-- Settles O40: an end that writes one register, or an error. -/
theorem oneRegisterCommandsFrame : Obligations.OneRegisterCommandsFrame := by
  intro s t rd ra rb rc i hi h
  have htarget : i.target = .one rd := by
    simp only [List.mem_cons, List.not_mem_nil, or_false] at hi
    obtain rfl | rfl | rfl | rfl | rfl | rfl | rfl | rfl | rfl | rfl | rfl | rfl | rfl | rfl | rfl | rfl | rfl := hi <;>
      rfl
  have hend := exec_end h
  rw [htarget] at hend
  cases hend with
  | error _ e =>
    exact ⟨fun _ _ => rfl, rfl, s.sameOutside_afterError e, .of_eq rfl rfl rfl rfl, rfl, rfl,
      .inr ⟨rfl, rfl, rfl, rfl, rfl⟩⟩
  | one _ v =>
    have hval : (s.afterBig rd v).regVal rd = v := by simp [State.regVal, State.reg_afterBig]
    refine ⟨fun r hr => by rw [s.reg_afterBig, if_neg hr], rfl, s.sameOutside_afterBig rd v,
      .of_eq rfl rfl rfl rfl, rfl, rfl, .inl ⟨?_, ?_, rfl, rfl, rfl⟩⟩
    · rw [hval]; rfl
    · rw [hval]; rfl

/-- Settles O41: an end that writes two different registers, or an error. -/
theorem bezoutFrame : Obligations.BezoutFrame := by
  intro s t rd rc ra rb hne h
  have hend : EndAlike s s (.two rd rc) t t := exec_end h
  cases hend with
  | error _ e =>
    exact ⟨fun _ _ _ => rfl, rfl, s.sameOutside_afterError e, .of_eq rfl rfl rfl rfl, rfl, rfl,
      .inr ⟨rfl, rfl, rfl, rfl, rfl⟩⟩
  | two _ _ v w =>
    have hval : (s.afterPair rd rc v w).regVal rd = v := by simp [State.regVal, State.reg_afterPair, hne]
    refine ⟨fun r hrd hrc => by rw [s.reg_afterPair, if_neg hrc, if_neg hrd], rfl, s.sameOutside_afterPair rd rc v w,
      .of_eq rfl rfl rfl rfl, rfl, rfl, .inl ⟨?_, ?_, rfl, rfl, rfl⟩⟩
    · rw [hval]; rfl
    · rw [hval]; rfl

/-- Settles O42: an end that writes SRES, CMP's being the signed one, or an error. -/
theorem scalarCommandsFrame : Obligations.ScalarCommandsFrame := by
  intro s t ra rb i hi h
  have htarget : i.target = .scalar (decide (i = .cmp ra rb)) := by
    simp only [List.mem_cons, List.not_mem_nil, or_false] at hi
    obtain rfl | rfl | rfl | rfl | rfl := hi <;> simp [Instr.target]
  have hend := exec_end h
  rw [htarget] at hend
  cases hend with
  | error _ e =>
    exact ⟨rfl, s.sameOutside_afterError e, .of_eq rfl rfl rfl rfl, rfl, rfl,
      .inr ⟨rfl, rfl, rfl, rfl, rfl⟩⟩
  | scalar _ w =>
    refine ⟨rfl, s.sameOutside_afterWord _ w, .of_eq rfl rfl rfl rfl, rfl, rfl,
      .inl ⟨rfl, ?_, rfl, rfl, rfl⟩⟩
    exact (Bool.decide_and _ _).symm

/-- Settles O45: the two ends write the same values, and everything they leave is an operand or the error record. -/
theorem resultDependsOnTheOperandsAlone : Obligations.ResultDependsOnTheOperandsAlone := by
  intro i s s' hsame
  obtain ⟨t, t', ht, ht', hend⟩ := exec_endAlike i hsame
  refine ⟨t, t', ht, ht', ?_⟩
  obtain ⟨hparams, hregs, -, -, holen, hosign, hobuf, -, -⟩ := hsame
  generalize i.target = k at hend
  cases hend with
  | error _ e => exact ⟨hregs.symm, holen.symm, hosign.symm, hobuf.symm, .inl ⟨e, rfl, rfl⟩⟩
  | one rd v =>
    have hwritten : (s.afterBig rd v).regs = (s'.afterBig rd v).regs := by simp only [State.afterBig, hregs]
    exact ⟨hwritten, holen.symm, hosign.symm, hobuf.symm,
      .inr ⟨rfl, rfl, ⟨rfl, rfl, rfl⟩, ⟨rfl, rfl, rfl⟩, .inr ⟨rfl, rfl⟩⟩⟩
  | two rd rc v w =>
    have hwritten : (s.afterPair rd rc v w).regs = (s'.afterPair rd rc v w).regs := by
      simp only [State.afterPair, hregs]
    exact ⟨hwritten, holen.symm, hosign.symm, hobuf.symm,
      .inr ⟨rfl, rfl, ⟨rfl, rfl, rfl⟩, ⟨rfl, rfl, rfl⟩, .inr ⟨rfl, rfl⟩⟩⟩
  | scalar signed w =>
    exact ⟨hregs.symm, holen.symm, hosign.symm, hobuf.symm,
      .inr ⟨rfl, rfl, ⟨rfl, rfl, rfl⟩, ⟨rfl, rfl, rfl⟩, .inl rfl⟩⟩
  | buffer x =>
    have hwritten : (s.afterStore x).obuf = (s'.afterStore x).obuf := by
      simp only [State.afterStore, State.complete_obuf, State.setZN_obuf, State.storeBuffer_obuf, hparams]
    exact ⟨hregs.symm, rfl, rfl, hwritten,
      .inr ⟨rfl, rfl, ⟨rfl, rfl, rfl⟩, ⟨rfl, rfl, rfl⟩, .inr ⟨rfl, rfl⟩⟩⟩

end Sys2Proof.Machine
end

