-- ==== Sys2Proof/Proofs/Bus.lean ====
section
/-! SUPPORT. The host's reads and writes (10_state.md rules R28 to R36 and R39, 20_memory.md rules R60 to R64): which
offsets lie in the window, what stands at an offset, and the words that the registers read as, as numbers. -/

namespace Sys2Proof.Machine

/-! ### The window -/

/-- Everything up to the last byte of OBUF lies in the window (20 R60). -/
theorem lt_windowSize {p : Params} {a : Nat} (h : a < obufBase + 4 * p.lmax) : a < windowSize p :=
  lt_of_le_of_lt (Nat.le_sub_one_of_lt h) (lt_two_pow_bitlength _)

/-- A 32-bit read of an aligned offset in the window answers the word that stands there (20 R62). -/
theorem access_read (s : State) {a : Nat} (hin : a < windowSize s.params) (haligned : a % 4 = 0) :
    s.access ⟨.w32, a, .read⟩ = .next { s with resp := .word (s.readLocation (locate s.params a)) } := by
  simp [State.access, Nat.not_le.2 hin, haligned]; rfl

/-- A 32-bit write of an aligned offset in the window is performed and answers ok (20 R62). -/
theorem access_write (s : State) (v : Word) {a : Nat} (hin : a < windowSize s.params) (haligned : a % 4 = 0) :
    s.access ⟨.w32, a, .write v⟩ = .next ((s.writeLocation v (locate s.params a)).respond .ok) := by
  simp [State.access, Nat.not_le.2 hin, haligned]

/-- Between OHDR and OBUF, and above OBUF, offsets are reserved (10 R39). -/
theorem locate_reserved {p : Params} {a : Nat} (hlow : 0x024 ≤ a) (hout : a < obufBase ∨ obufBase + 4 * p.lmax ≤ a) :
    locate p a = .reserved := by
  unfold locate
  split <;> try omega
  rw [if_neg (by omega)]

/-! ### The words that registers read as -/

/-- Concatenation of bit vectors as arithmetic: the left one stands above the right one. -/
theorem toNat_append_eq_add {m n : Nat} (x : BitVec m) (y : BitVec n) :
    (x ++ y).toNat = 2 ^ n * x.toNat + y.toNat := by
  rw [BitVec.toNat_append, ← Nat.shiftLeft_add_eq_or_of_lt y.isLt, Nat.shiftLeft_eq, mul_comm]

/-- The fields of ID (10 R30); LMAX is below 2^16 in every build. -/
theorem toNat_idWord {p : Params} (hp : p.Ok) :
    (idWord p).toNat = p.lmax + 2 ^ 16 * 16 + 2 ^ 24 * p.ladder.toNat + 2 ^ 28 * 1 := by
  obtain ⟨-, hmax⟩ := hp
  simp only [idWord, toNat_append_eq_add, BitVec.toNat_ofBool, BitVec.toNat_ofNat, Config.version, Config.nreg]
  omega

/-- CTRL reads IE in bit 0 (10 R29). -/
theorem State.toNat_ctrlWord (s : State) : s.ctrlWord.toNat = s.ie.toNat := by
  rw [State.ctrlWord, toNat_append_eq_add, BitVec.toNat_ofBool, BitVec.toNat_zero, mul_zero, zero_add]

/-- The fields of STATUS (10 R28). -/
theorem State.toNat_statusWord (s : State) :
    s.statusWord.toNat = s.busy.toNat + 2 * s.done.toNat + 4 * s.err.toNat + 8 * s.drop.toNat +
      16 * s.ecode.toNat + 256 * s.z.toNat + 512 * s.n.toNat := by
  simp only [State.statusWord, toNat_append_eq_add, BitVec.toNat_ofBool, BitVec.toNat_ofNat]
  omega

/-- OHDR reads OLEN in bits 15:0 and OSIGN in bit 31 (10 R35). -/
theorem State.toNat_ohdrWord (s : State) : s.ohdrWord.toNat = s.olen.toNat + 2 ^ 31 * s.osign.toNat := by
  simp only [State.ohdrWord, toNat_append_eq_add, BitVec.toNat_ofBool, BitVec.toNat_ofNat]
  omega

/-- Settles O49: the word that stands at the offset, row by row of 10 R39. -/
theorem readsReturnTheRegisterMap : Obligations.ReadsReturnTheRegisterMap := by
  intro s offset hp hin haligned
  refine ⟨_, access_read s hin haligned, ?id, ?ctrl, ?status, ?cmd, ?ecmd, ?sa, ?sb, ?sres, ?ohdr, ?below, ?obuf,
    ?above⟩
  case id => rintro rfl; exact toNat_idWord hp
  case ctrl => rintro rfl; exact s.toNat_ctrlWord
  case status => rintro rfl; exact s.toNat_statusWord
  case cmd => rintro rfl; rfl
  case ecmd => rintro rfl; rfl
  case sa => rintro rfl; rfl
  case sb => rintro rfl; rfl
  case sres => rintro rfl; rfl
  case ohdr => rintro rfl; exact s.toNat_ohdrWord
  case below =>
    intro hlow hhigh
    rw [locate_reserved hlow (.inl hhigh)]
    rfl
  case obuf =>
    rintro i hi rfl
    exact congrArg s.readLocation (locate_obufOffset s.params i hi)
  case above =>
    intro habove
    rw [locate_reserved (by omega) (.inr habove)]
    rfl

/-! ### Writes to an idle unit -/

/-- With BUSY = 0 a write that a command in flight would drop is performed (20 R63, R65). -/
theorem access_write_idle {s t : State} {v : Word} {a : Nat} (hidle : s.busy = false)
    (ha : a < obufBase + 4 * s.params.lmax) (haligned : a % 4 = 0)
    (hwrite : s.writeLocation v (locate s.params a) = s.unlessBusy t) :
    s.access ⟨.w32, a, .write v⟩ = .next (t.respond .ok) := by
  rw [access_write s v (lt_windowSize ha) haligned, hwrite, State.unlessBusy, if_neg (by simp [hidle])]

/-- Settles O51: none of the four writes is dropped, and each stores what its location's equation says. -/
theorem writesAreStoredWhenIdle : Obligations.WritesAreStoredWhenIdle := by
  intro s v _ hidle
  have hregister (a : Nat) (h : a < obufBase) : a < obufBase + 4 * s.params.lmax := Nat.lt_add_right _ h
  refine ⟨access_write_idle hidle (hregister 0x014 (by decide)) rfl rfl,
    access_write_idle hidle (hregister 0x018 (by decide)) rfl rfl,
    access_write_idle hidle (hregister 0x020 (by decide)) rfl rfl, fun i hi => ?_⟩
  have hwrite : s.writeLocation v (locate s.params (obufOffset i)) = s.unlessBusy (s.setObufWord i v) := by
    rw [locate_obufOffset s.params i hi]; rfl
  have hin : obufOffset i < obufBase + 4 * s.params.lmax := by unfold obufOffset; omega
  have haligned : obufOffset i % 4 = 0 := by unfold obufOffset obufBase; omega
  exact ⟨_, access_write_idle hidle hin haligned hwrite, s.obufWord_setObufWord_self i v,
    fun j hj => s.obufWord_setObufWord_of_ne i j v hj, fun a ha => s.readByte_setObufWord i v a ha, rfl⟩

end Sys2Proof.Machine
end

section
/-! SUPPORT. The completion step (20_memory.md rules R70, R73, 30_encoding.md rules R94 to R96): what the unit's turn
does with the word in flight, which words decode, and how every word in flight ends. -/

namespace Sys2Proof

/-! ### Which words decode -/

/-- The decoder's answer for a word of a row of the opcode map (30 R95). -/
theorem decode_of_row {c : Word} {f : Format} {b : BigReg → BigReg → BigReg → BigReg → Instr} (hzero : zeroField c = 0)
    (hrow : opcodeRow (opcodeField c) = some (f, b)) (hmask : c &&& f.mask = (opcodeField c).setWidth 32) :
    decode c = if (b (rdField c) (raField c) (rbField c) (rcField c)).wellFormed
      then .ok (b (rdField c) (raField c) (rbField c) (rcField c)) else .error .sameDestination := by
  simp [decode, hzero, hrow, hmask]

/-- A word that decodes is of a row of the opcode map, and the command its fields name there is well-formed (30 R95). -/
theorem row_of_decode {c : Word} {i : Instr} (h : decode c = .ok i) :
    ∃ f b, opcodeRow (opcodeField c) = some (f, b) ∧ c &&& f.mask = (opcodeField c).setWidth 32 ∧
      (b (rdField c) (raField c) (rbField c) (rcField c)).wellFormed = true := by
  unfold decode at h
  split at h
  · cases h
  · split at h
    · cases h
    · rename_i f b hrow
      split at h
      · cases h
      · rename_i hmask
        dsimp only at h
        split at h
        · rename_i hwf
          exact ⟨f, b, hrow, not_not.1 hmask, hwf⟩
        · cases h

/-- A word assembled for a row of the opcode map, its unused fields 0, decodes to the command its fields name in that
row if this command is well-formed (30 R94, R95). -/
theorem decode_encode_of_row {i : Instr} {op : BitVec 8} {rd ra rb rc : BigReg} {f : Format}
    {b : BigReg → BigReg → BigReg → BigReg → Instr} (hwf : i.wellFormed = true)
    (hencode : encode i = assemble op rd ra rb rc) (hrow : opcodeRow op = some (f, b))
    (hunused : f.unusedZero rd ra rb rc) (hbuild : b rd ra rb rc = i) : decode (encode i) = .ok i := by
  rw [hencode, decode_of_row (zeroField_assemble op rd ra rb rc) (by rwa [opcodeField_assemble])
    (by rw [opcodeField_assemble, assemble_mask op rd ra rb rc f hunused])]
  simp only [rdField_assemble, raField_assemble, rbField_assemble, rcField_assemble, hbuild, if_pos hwf]

/-- The word of a well-formed command decodes to it (30 R94, R95). -/
theorem decode_encode {i : Instr} (h : i.wellFormed = true) : decode (encode i) = .ok i := by
  cases i with
  | ld rd => exact decode_encode_of_row h rfl rfl ⟨rfl, rfl, rfl⟩ rfl
  | st ra => exact decode_encode_of_row h rfl rfl ⟨rfl, rfl, rfl⟩ rfl
  | mov rd ra => exact decode_encode_of_row h rfl rfl ⟨rfl, rfl⟩ rfl
  | ldi rd => exact decode_encode_of_row h rfl rfl ⟨rfl, rfl, rfl⟩ rfl
  | add rd ra rb => exact decode_encode_of_row h rfl rfl rfl rfl
  | sub rd ra rb => exact decode_encode_of_row h rfl rfl rfl rfl
  | mul rd ra rb => exact decode_encode_of_row h rfl rfl rfl rfl
  | muls rd ra => exact decode_encode_of_row h rfl rfl ⟨rfl, rfl⟩ rfl
  | muladd rd ra => exact decode_encode_of_row h rfl rfl ⟨rfl, rfl⟩ rfl
  | div rd ra rb => exact decode_encode_of_row h rfl rfl rfl rfl
  | mod rd ra rb => exact decode_encode_of_row h rfl rfl rfl rfl
  | shl rd ra => exact decode_encode_of_row h rfl rfl ⟨rfl, rfl⟩ rfl
  | shr rd ra => exact decode_encode_of_row h rfl rfl ⟨rfl, rfl⟩ rfl
  | cmp ra rb => exact decode_encode_of_row h rfl rfl ⟨rfl, rfl⟩ rfl
  | size ra => exact decode_encode_of_row h rfl rfl ⟨rfl, rfl, rfl⟩ rfl
  | tz ra => exact decode_encode_of_row h rfl rfl ⟨rfl, rfl, rfl⟩ rfl
  | bit ra => exact decode_encode_of_row h rfl rfl ⟨rfl, rfl, rfl⟩ rfl
  | abs rd ra => exact decode_encode_of_row h rfl rfl ⟨rfl, rfl⟩ rfl
  | ispow2 ra => exact decode_encode_of_row h rfl rfl ⟨rfl, rfl, rfl⟩ rfl
  | gcd rd ra rb => exact decode_encode_of_row h rfl rfl rfl rfl
  | bezout rd rc ra rb => exact decode_encode_of_row h rfl rfl trivial rfl
  | modinv rd ra rb => exact decode_encode_of_row h rfl rfl rfl rfl
  | mulmod rd ra rb rc => exact decode_encode_of_row h rfl rfl trivial rfl
  | modexp rd ra rb rc => exact decode_encode_of_row h rfl rfl trivial rfl

end Sys2Proof

namespace Sys2Proof.Machine

/-- Every row of the decoder stands in the list of rows of 30 R94, with its `match` and its `mask`. -/
theorem opcodeRow_mem_commandRows {op : BitVec 8} {f : Format} {b : BigReg → BigReg → BigReg → BigReg → Instr}
    (h : opcodeRow op = some (f, b)) : (op.setWidth 32, f.mask) ∈ commandRows := by
  have hall : ∀ o : BitVec 8, ∀ row ∈ opcodeRow o, (o.setWidth 32, row.1.mask) ∈ commandRows := by decide
  exact hall op (f, b) h

/-- A word of no row of the opcode map does not decode (30 R94). -/
theorem decode_ne_ok_of_no_row {c : Word} (h : ∀ r ∈ commandRows, c &&& r.2 ≠ r.1) (i : Instr) : decode c ≠ .ok i := by
  intro hok
  obtain ⟨f, b, hrow, hmask, -⟩ := row_of_decode hok
  exact h _ (opcodeRow_mem_commandRows hrow) hmask

/-- BEZOUT's word has BEZOUT's opcode, whatever its register fields. -/
theorem opcodeField_of_bezout {c : Word} (h : c &&& 0xFF0000FF = 0x00000061) : opcodeField c = 0x61 := by
  have hlow : opcodeField (c &&& 0xFF0000FF) = opcodeField c := by
    rw [opcodeField, BitVec.extractLsb'_and]
    exact BitVec.and_allOnes
  rw [← hlow, h]
  rfl

/-- BEZOUT's word with one register for its two results does not decode (30 R95). -/
theorem decode_ne_ok_of_sameDestination {c : Word} (h : c &&& 0xFF0000FF = 0x00000061)
    (hsame : registerField c 8 = registerField c 20) (i : Instr) : decode c ≠ .ok i := by
  intro hok
  obtain ⟨f, b, hrow, -, hwf⟩ := row_of_decode hok
  have hfields : rdField c = rcField c := by
    apply Fin.ext
    change (c.extractLsb' 8 4).toNat = (c.extractLsb' 20 4).toNat
    rw [toNat_extractLsb', toNat_extractLsb']
    exact hsame
  rw [opcodeField_of_bezout h] at hrow
  cases hrow
  simp [Instr.wellFormed, hfields] at hwf

/-! ### The unit's turn -/

section
variable {s : State}

/-- A busy unit's turn is its completion step (20 R70). -/
theorem unitTurn_busy (h : s.busy = true) : unitTurn s = unitStep s := by
  simp only [unitTurn, if_pos h]

/-- The unit's turn with a command in flight, presented or not, is the completion step with the turn used up (20 R70;
log entry 1). -/
theorem step_turn (hbusy : s.busy = true) (hturn : s.inputs = [] ∨ ∃ rest, s.inputs = .unitTurn :: rest) :
    step s = unitStep (s.setInputs s.inputs.tail) := by
  obtain hnil | ⟨rest, hrest⟩ := hturn
  · have hsame : s.setInputs s.inputs.tail = s := by rw [hnil, List.tail_nil, ← hnil]; rfl
    rw [step_nil hnil, hsame, unitTurn_busy hbusy]
  · rw [step_unitTurn hrest, hrest, List.tail_cons]
    exact unitTurn_busy hbusy

theorem unitStep_of_decode_ok {i : Instr} (h : decode s.cur = .ok i) : unitStep s = exec i s := by
  simp only [unitStep, State.fetchWord, h]

theorem unitStep_of_decode_ne_ok (h : ∀ i, decode s.cur ≠ .ok i) : unitStep s = .next (s.afterError 3) := by
  unfold unitStep
  split
  · rename_i i hok
    exact absurd hok (h i)
  · rfl

end

/-- Settles O6: the turn is the completion step, which runs the command that CUR decodes to. -/
theorem stepRunsTheDecodedCommand : Obligations.StepRunsTheDecodedCommand := by
  intro s i hbusy hdecode
  refine ⟨fun hnil => ?_, fun rest hrest => ?_⟩
  · rw [step_nil hnil, unitTurn_busy hbusy, unitStep_of_decode_ok hdecode]
  · rw [step_turn hbusy (.inr ⟨rest, hrest⟩), hrest]
    exact unitStep_of_decode_ok hdecode

/-- Settles O4: neither word decodes, and the completion step of a word that does not decode is the error of code 3. -/
theorem everyOtherWordRaisesIllegalCommand : Obligations.EveryOtherWordRaisesIllegalCommand := by
  intro s hbusy hword
  have hdecode : ∀ i, decode s.cur ≠ .ok i := by
    obtain hnone | ⟨hbezout, hsame⟩ := hword
    · exact decode_ne_ok_of_no_row hnone
    · exact decode_ne_ok_of_sameDestination hbezout hsame
  refine ⟨fun hnil => ?_, fun rest hrest => ?_⟩
  · rw [step_nil hnil, unitTurn_busy hbusy, unitStep_of_decode_ne_ok hdecode]
  · rw [step_turn hbusy (.inr ⟨rest, hrest⟩), hrest]
    exact unitStep_of_decode_ne_ok hdecode

/-! ### How a completion step ends -/

/-- The completion steps of two states with the same operands end alike: both run the same command, or both end in
IllegalCommand. -/
theorem unitStep_endAlike {s s' : State} (h : s.SameOperands s') :
    ∃ k, OutcomesAlike s s' k (unitStep s) (unitStep s') := by
  have hcur : s'.cur = s.cur := by
    obtain ⟨-, -, -, -, -, -, -, -, hcur⟩ := h
    exact hcur
  by_cases hok : ∃ i, decode s.cur = .ok i
  · obtain ⟨i, hi⟩ := hok
    rw [unitStep_of_decode_ok hi, unitStep_of_decode_ok (hcur ▸ hi)]
    exact ⟨i.target, exec_endAlike i h⟩
  · have hne : ∀ i, decode s.cur ≠ .ok i := not_exists.1 hok
    rw [unitStep_of_decode_ne_ok hne, unitStep_of_decode_ne_ok (hcur ▸ hne)]
    exact ⟨.buffer, _, _, rfl, rfl, .error _ 3⟩

/-- Every end lowers BUSY, raises DONE and leaves what no completion step touches (20 R70). -/
theorem EndAlike.completes {s s' t t' : State} {k : Target} (h : EndAlike s s' k t t') :
    t.busy = false ∧ t.done = true ∧ s.SameOutside t := by
  cases h with
  | error _ e => exact ⟨rfl, rfl, s.sameOutside_afterError e⟩
  | one rd v => exact ⟨rfl, rfl, s.sameOutside_afterBig rd v⟩
  | two rd rc v w => exact ⟨rfl, rfl, s.sameOutside_afterPair rd rc v w⟩
  | scalar signed w => exact ⟨rfl, rfl, s.sameOutside_afterWord signed w⟩
  | buffer x => exact ⟨rfl, rfl, rfl, rfl, rfl, rfl, rfl, rfl, rfl, rfl, rfl, rfl⟩

/-- The completion step answers a next state, with BUSY = 0 and DONE = 1, whatever the word in flight. -/
theorem unitStep_completes (s : State) :
    ∃ t, unitStep s = .next t ∧ t.busy = false ∧ t.done = true ∧ s.SameOutside t := by
  obtain ⟨k, t, t', ht, -, hend⟩ := unitStep_endAlike (State.SameOperands.refl s)
  exact ⟨t, ht, hend.completes⟩

/-- Settles O8: the turn is the completion step, and that completes. -/
theorem acceptedCommandIsCompleted : Obligations.AcceptedCommandIsCompleted := by
  intro s hbusy hturn
  obtain ⟨t, ht, hidle, hdone, hparams, -, -, -, -, hcur, hinputs, -⟩ := unitStep_completes (s.setInputs s.inputs.tail)
  exact ⟨t, (step_turn hbusy hturn).trans ht, hidle, hdone, hcur, hparams, hinputs⟩

/-- The unit's turn answers a next state, busy or idle. -/
theorem unitTurn_next (s : State) : ∃ t, unitTurn s = .next t := by
  unfold unitTurn
  split
  · obtain ⟨t, ht, -⟩ := unitStep_completes s
    exact ⟨t, ht⟩
  · exact ⟨s, rfl⟩

/-- Settles O57: an access, a turn of the unit and a reset each answer a next state. -/
theorem everyStepAnswersANextState : Obligations.EveryStepAnswersANextState := by
  intro s
  match hin : s.inputs with
  | [] => rw [step_nil hin]; exact unitTurn_next s
  | .access a :: rest => rw [step_access hin]; exact access_next a _
  | .unitTurn :: rest => rw [step_unitTurn hin]; exact unitTurn_next _
  | .reset :: rest => exact ⟨_, step_reset hin⟩

end Sys2Proof.Machine
end

section
/-! SUPPORT. The window and the host's writes (20_memory.md rules R60 to R66): accesses outside the window or malformed,
what a write does at each row of the register map, and the issue of a command. -/

namespace Sys2Proof.Machine

/-! ### The window -/

/-- The exponent of the window's size is the least one with room for OBUF (20 R60). -/
theorem Params.addressBits_le_iff (p : Params) (j : Nat) :
    Params.addressBits p ≤ j ↔ obufBase + 4 * p.lmax ≤ 2 ^ j := by
  rw [Params.addressBits, bitlength_le_iff]
  unfold obufBase
  omega

/-- Settles O47: the exponent is the least by its defining inequality, and an access outside is `State.stray`. -/
theorem windowIsTheLeastPowerOfTwo : Obligations.WindowIsTheLeastPowerOfTwo := by
  refine ⟨fun p _ => ⟨Params.addressBits p, rfl, ?_, fun j hj => ?_⟩, fun s a hout => ?_⟩
  · exact (Params.addressBits_le_iff p _).1 le_rfl
  · exact (Params.addressBits_le_iff p j).2 hj
  · exact ⟨Config.platformResponse s.epoch s.strays, if_pos hout⟩

/-- Settles O48: the second test of an access. -/
theorem malformedAccessGetsBusError : Obligations.MalformedAccessGetsBusError := by
  intro s a hin hbad
  exact (if_neg (Nat.not_le.2 hin)).trans (if_pos hbad)

/-! ### Writes -/

section
variable {s : State} {v : Word} {a : Nat}

/-- A write at the offset of a register is performed and answers ok: these offsets lie in every window. -/
theorem access_write_register (s : State) (v : Word) (ha : a < obufBase) (haligned : a % 4 = 0) :
    s.access ⟨.w32, a, .write v⟩ = .next ((s.writeLocation v (locate s.params a)).respond .ok) :=
  access_write s v (lt_windowSize (Nat.lt_add_right _ ha)) haligned

/-- A write of a location that stores nothing changes the response only (20 R63, R64). -/
theorem access_write_ignored (hin : a < windowSize s.params) (haligned : a % 4 = 0)
    (hloc : locate s.params a = .id ∨ locate s.params a = .ecmd ∨ locate s.params a = .sres ∨
      locate s.params a = .reserved) :
    s.access ⟨.w32, a, .write v⟩ = .next { s with resp := .ok } := by
  rw [access_write s v hin haligned]
  obtain h | h | h | h := hloc <;> rw [h] <;> rfl

/-- With BUSY = 1 a write to a location that a command reads is dropped (20 R65). -/
theorem access_write_busy {t : State} (hbusy : s.busy = true) (ha : a < obufBase + 4 * s.params.lmax)
    (haligned : a % 4 = 0) (hwrite : s.writeLocation v (locate s.params a) = s.unlessBusy t) :
    s.access ⟨.w32, a, .write v⟩ = .next { s with drop := true, resp := .ok } := by
  rw [access_write s v (lt_windowSize ha) haligned, hwrite, State.unlessBusy, if_pos hbusy]
  rfl

/-- The W1C bits of a STATUS write (10 R28). -/
theorem State.writeStatus_bits (s : State) (v : Word) :
    (s.writeStatus v).done = (s.done && !v.getLsbD 1) ∧ (s.writeStatus v).err = (s.err && !v.getLsbD 2) ∧
      (s.writeStatus v).drop = (s.drop && !v.getLsbD 3) := by
  refine ⟨rfl, ?_, rfl⟩
  unfold State.writeStatus
  cases v.getLsbD 2 <;> simp

/-- A write of CMD is dropped while a command is in flight or an error stands (20 R66). -/
theorem State.issue_dropped (c : Word) (h : s.busy = true ∨ s.err = true) : s.issue c = s.dropWrite :=
  if_pos (by simpa using h)

/-- A write of CMD is accepted by an idle unit without an error (20 R66). -/
theorem State.issue_accepted (c : Word) (hidle : s.busy = false) (herr : s.err = false) : s.issue c = s.accept c :=
  if_neg (by simp [hidle, herr])

end

/-- Settles O52: each of the offsets is a location whose write stores nothing. -/
theorem readOnlyWritesDoNothing : Obligations.ReadOnlyWritesDoNothing := by
  intro s offset v _ hin haligned hoffset
  refine access_write_ignored hin haligned ?_
  obtain rfl | rfl | rfl | ⟨hlow, hhigh⟩ | habove := hoffset
  · exact .inl rfl
  · exact .inr (.inl rfl)
  · exact .inr (.inr (.inl rfl))
  · exact .inr (.inr (.inr (locate_reserved hlow (.inl hhigh))))
  · exact .inr (.inr (.inr (locate_reserved (by omega) (.inr habove))))

/-- Settles O50: the four kinds of location that a command reads are guarded by BUSY; CTRL and STATUS are not. -/
theorem writesAreDroppedWhileBusy : Obligations.WritesAreDroppedWhileBusy := by
  intro s offset v _ hbusy
  have hregister (a : Nat) (h : a < obufBase) : a < obufBase + 4 * s.params.lmax := Nat.lt_add_right _ h
  refine ⟨?guarded, ?ctrl, ?status⟩
  case guarded =>
    rintro (rfl | rfl | rfl | ⟨i, hi, rfl⟩)
    · exact access_write_busy hbusy (hregister 0x014 (by decide)) rfl rfl
    · exact access_write_busy hbusy (hregister 0x018 (by decide)) rfl rfl
    · exact access_write_busy hbusy (hregister 0x020 (by decide)) rfl rfl
    · have hwrite : s.writeLocation v (locate s.params (obufOffset i)) = s.unlessBusy (s.setObufWord i v) := by
        rw [locate_obufOffset s.params i hi]; rfl
      exact access_write_busy hbusy (by unfold obufBase; omega) (by omega) hwrite
  case ctrl =>
    rintro rfl
    exact access_write_register s v (by decide) rfl
  case status =>
    rintro rfl
    exact ⟨_, access_write_register s v (by decide) rfl, s.writeStatus_bits v⟩

/-- A write at the offset of CMD is the issue of a command (20 R66). -/
theorem access_write_cmd (s : State) (c : Word) :
    s.access ⟨.w32, 0x00C, .write c⟩ = .next ((s.issue c).respond .ok) :=
  access_write_register s c (by decide) rfl

/-- Settles O54: the two branches of the issue. -/
theorem issueAcceptsOrDrops : Obligations.IssueAcceptsOrDrops := by
  intro s c _
  refine ⟨fun h => ?_, fun hidle herr => ?_⟩
  · rw [access_write_cmd, State.issue_dropped c h]; rfl
  · rw [access_write_cmd, State.issue_accepted c hidle herr]; rfl

end Sys2Proof.Machine
end

section
/-! SUPPORT. Runs of the machine from the issue of a command to its end (20_memory.md rules R65 to R70): the host's
accesses in between leave what the command reads and what its completion leaves, so it ends as if it had completed at
once. -/

namespace Sys2Proof.Machine

/-! ### Runs -/

/-- A step that answers a next state, then the rest of the run. -/
theorem run_succ_of_step {s t : State} (k : Nat) (h : step s = .next t) :
    Sys2Proof.core.run (k + 1) s = Sys2Proof.core.run k t := by
  have hcore : Sys2Proof.core.step s = .next t := h
  simp only [Host.Core.run, hcore]

theorem run_one (s : State) : Sys2Proof.core.run 1 s = step s := by
  obtain ⟨t, ht⟩ := everyStepAnswersANextState s
  rw [ht]
  exact run_succ_of_step 0 ht

/-- Settles O55: the first step accepts the word, the second is the completion step, which decodes it. -/
theorem issuedCommandRunsToItsEnd : Obligations.IssuedCommandRunsToItsEnd := by
  intro s i rest hp hwf hidle herr
  obtain ⟨-, haccept⟩ := issueAcceptsOrDrops (s.setInputs (.unitTurn :: rest)) (encode i) hp
  have hstep := step_access (s := s.setInputs (.access ⟨.w32, 0x00C, .write (encode i)⟩ :: .unitTurn :: rest)) rfl
  have hissue := hstep.trans (haccept hidle herr)
  have hcomplete := step_turn (s := { s with
    cur := encode i, busy := true, done := false, resp := .ok, inputs := .unitTurn :: rest }) rfl (.inr ⟨rest, rfl⟩)
  have hrun := (run_succ_of_step 1 hissue).trans ((run_one _).trans hcomplete)
  exact hrun.trans (unitStep_of_decode_ok (decode_encode hwf))

/-! ### Accesses while a command is in flight -/

/-- `s` with what the host's accesses may change while a command is in flight taken from `w`: DONE, DROP, CTRL, the bus
response and the count of stray accesses (20 R65, R67). `u = s.withHost u` says that `u` is `s` everywhere else. -/
def State.withHost (s w : State) : State :=
  { s with done := w.done, drop := w.drop, ie := w.ie, resp := w.resp, strays := w.strays }

/-- A busy unit has no error standing, and its error record is clear (10 R28, R32). -/
theorem State.StatusOk.clear_of_busy {s : State} (h : s.StatusOk) (hbusy : s.busy = true) :
    s.err = false ∧ s.ecode = 0 ∧ s.ecmd = 0 := by
  obtain ⟨hidle_of_err, herr_of_code, -, -, hecmd⟩ := h
  have herr : s.err = false := by
    by_contra he
    simp [(hidle_of_err (Bool.eq_true_of_not_eq_false he)).1] at hbusy
  have hecode : s.ecode = 0 := by
    by_contra hc
    simp [herr_of_code hc] at herr
  exact ⟨herr, hecode, hecmd herr⟩

section
variable {s t : State} (hinv : s.Inv) (hbusy : s.busy = true)
include hinv hbusy

/-- While a command is in flight there is no error to acknowledge. -/
theorem State.acknowledge_of_busy : s.acknowledge = s := by
  obtain ⟨-, -, hstatus, -⟩ := hinv
  obtain ⟨herr, hecode, hecmd⟩ := hstatus.clear_of_busy hbusy
  rw [State.acknowledge, ← herr, ← hecode, ← hecmd]

theorem State.writeStatus_of_busy (v : Word) : s.writeStatus v = s.withHost (s.writeStatus v) := by
  unfold State.writeStatus
  rw [State.acknowledge_of_busy hinv hbusy, ite_self]
  rfl

/-- A write of any location while a command is in flight: CTRL and STATUS are performed, everything a command reads is
guarded (20 R65, R66). -/
theorem State.writeLocation_of_busy (v : Word) (l : Location) :
    s.writeLocation v l = s.withHost (s.writeLocation v l) := by
  have hguarded (u : State) : s.unlessBusy u = s.withHost (s.unlessBusy u) := by
    rw [State.unlessBusy, if_pos hbusy]; rfl
  cases l with
  | status => exact State.writeStatus_of_busy hinv hbusy v
  | cmd =>
    change s.issue v = s.withHost (s.issue v)
    rw [State.issue_dropped v (.inl hbusy)]; rfl
  | sa => exact hguarded _
  | sb => exact hguarded _
  | ohdr => exact hguarded _
  | obuf i => exact hguarded _
  | ctrl => rfl
  | id => rfl
  | ecmd => rfl
  | sres => rfl
  | reserved => rfl

/-- An access while a command is in flight, inside the window or outside (20 R65, 93 U10). -/
theorem access_of_busy {a : Access} (h : s.access a = .next t) : t = s.withHost t := by
  obtain ⟨-, he⟩ | ⟨-, r, he⟩ | ⟨-, v, -, -, -, he⟩ := access_cases a s <;> cases he.symm.trans h
  · rfl
  · rfl
  · rw [State.writeLocation_of_busy hinv hbusy v]; rfl

end

/-- A run over accesses while a command is in flight: what follows them starts from the state at the issue, but for what
the host's accesses may change. -/
theorem run_accesses_of_busy (accesses : List Access) (later : List Event) {s : State} (hinv : s.Inv)
    (hbusy : s.busy = true) (hin : s.inputs = accesses.map Event.access ++ later) :
    ∃ u, Sys2Proof.core.run (accesses.length + 1) s = step ((s.setInputs later).withHost u) := by
  induction accesses generalizing s with
  | nil =>
    refine ⟨s, ?_⟩
    have hsame : (s.setInputs later).withHost s = s := by rw [← show s.inputs = later from hin]; rfl
    rw [hsame]
    exact run_one s
  | cons a accesses ih =>
    obtain ⟨t, ht⟩ := access_next a (s.setInputs (accesses.map Event.access ++ later))
    have hstep : step s = .next t := (step_access hin).trans ht
    have hhost : t = (s.setInputs (accesses.map Event.access ++ later)).withHost t :=
      access_of_busy (hinv.setInputs _) hbusy ht
    obtain ⟨u, hu⟩ := ih ((hinv.setInputs _).access ht) (by rw [hhost]; exact hbusy) (by rw [hhost]; rfl)
    refine ⟨u, ?_⟩
    rw [List.length_cons, run_succ_of_step _ hstep, hu, hhost]
    rfl

/-- Ends alike of a state and of the same state after host accesses, with other events to come: again the same state
but for those. -/
theorem EndAlike.withHost {s w t u : State} {l : List Event} {k : Target}
    (h : EndAlike s ((s.setInputs l).withHost w) k t u) :
    u = (t.setInputs l).withHost u ∧ u.busy = false ∧ u.done = true := by
  cases h with
  | error _ e => exact ⟨rfl, rfl, rfl⟩
  | one rd v => exact ⟨rfl, rfl, rfl⟩
  | two rd rc v x => exact ⟨rfl, rfl, rfl⟩
  | scalar signed x => exact ⟨rfl, rfl, rfl⟩
  | buffer x => exact ⟨rfl, rfl, rfl⟩

/-- The completion step does not see the host's accesses nor the events to come (20 R70). -/
theorem unitStep_withHost (s w : State) (l : List Event) :
    ∃ t u, unitStep s = .next t ∧ unitStep ((s.setInputs l).withHost w) = .next u ∧
      u = (t.setInputs l).withHost u ∧ u.busy = false ∧ u.done = true := by
  have hsame : s.SameOperands ((s.setInputs l).withHost w) := ⟨rfl, rfl, rfl, rfl, rfl, rfl, rfl, rfl, rfl⟩
  obtain ⟨k, t, u, ht, hu, hend⟩ := unitStep_endAlike hsame
  exact ⟨t, u, ht, hu, hend.withHost⟩

/-- Settles O46: the accesses leave the state at the issue but for what the host may change, and the completion step
does not see that. -/
theorem resultIsThatOfTheStateAtIssue : Obligations.ResultIsThatOfTheStateAtIssue := by
  intro s accesses later hinv hbusy hlater
  obtain ⟨w, hrun⟩ := run_accesses_of_busy accesses later (s := s.setInputs (accesses.map Event.access ++ later))
    hinv hbusy rfl
  obtain ⟨t, u, ht, hu, hhost, hidle, hdone⟩ := unitStep_withHost (s.setInputs []) w later.tail
  have hturn : step ((s.setInputs later).withHost w) = .next u :=
    (step_turn (s := (s.setInputs later).withHost w) hbusy hlater).trans hu
  refine ⟨t, u, (step_turn (s := s.setInputs []) hbusy (.inl rfl)).trans ht, hrun.trans hturn, ?_⟩
  have same {α : Type} (field : State → α) : field u = field ((t.setInputs later.tail).withHost u) :=
    congrArg field hhost
  exact ⟨same State.regs, same State.z, same State.n, same State.err, same State.ecode, same State.ecmd,
    same State.sres, same State.sa, same State.sb, same State.olen, same State.osign, same State.obuf, hidle,
    hdone, same State.inputs⟩

end Sys2Proof.Machine
end

section
/-! SUPPORT. The decoder and the encoder are inverse to each other (30_encoding.md rules R91, R92, R94, R95): a word
decodes to a command exactly when it is the command's word, that is, when it has the row's `match` under the row's mask
and the operands in the register fields that the row uses. -/

namespace Sys2Proof

open Sys2Proof.Machine (registerField)

section
variable {c : Word} {f : Format} {op : BitVec 8} {rd ra rb rc : BigReg}

/-! ### Words of a row -/

/-- Every mask keeps the whole opcode (30 R92). -/
theorem opcodeField_of_mask (h : c &&& f.mask = op.setWidth 32) : opcodeField c = op := by
  have hlow : opcodeField (c &&& f.mask) = opcodeField c := by
    rw [opcodeField, BitVec.extractLsb'_and]
    cases f <;> exact BitVec.and_allOnes
  rw [← hlow, h, opcodeField, BitVec.extractLsb'_setWidth_of_le (by decide), BitVec.extractLsb'_eq_self]

/-- Every mask keeps bits 31:24, and no opcode reaches them (30 R92). -/
theorem zeroField_of_mask (h : c &&& f.mask = op.setWidth 32) : zeroField c = 0 :=
  extract_eq_zero_of_mask c f.mask 24 8 (by rw [h, opcodeField_of_mask h]) (by cases f <;> decide) (by decide)

/-- The command that a row builds is encoded by the row's opcode over the row's fields (30 R94). -/
theorem encode_of_row {b : BigReg → BigReg → BigReg → BigReg → Instr} (hrow : opcodeRow op = some (f, b))
    (hunused : f.unusedZero rd ra rb rc) : encode (b rd ra rb rc) = assemble op rd ra rb rc := by
  unfold opcodeRow at hrow
  have hnumber : op = BitVec.ofNat 8 op.toNat := by simp
  split at hrow <;> cases hrow
  all_goals
    next hop =>
    rw [hop] at hnumber
    simp_all only [Format.unusedZero, encode, BitVec.ofNat_eq_ofNat]

/-! ### Decoding answers exactly the encoded commands -/

/-- A word that decodes is its own fields assembled, which its row's command encodes to (30 R94, R95). -/
theorem encode_of_decode {i : Instr} (h : decode c = .ok i) : encode i = c ∧ i.wellFormed = true := by
  obtain ⟨f, b, hrow, hmask, hwf⟩ := row_of_decode h
  have hzero : zeroField c = 0 := zeroField_of_mask hmask
  have hbuild : b (rdField c) (raField c) (rbField c) (rcField c) = i := by
    rw [decode_of_row hzero hrow hmask, if_pos hwf] at h
    exact Except.ok.inj h
  refine ⟨?_, hbuild ▸ hwf⟩
  rw [← hbuild, encode_of_row hrow ((mask_eq_iff c f hzero).1 hmask), assemble_fields c hzero]

/-- The decoder inverts the encoder on well-formed commands and accepts nothing else (30 R95). -/
theorem decode_eq_ok_iff {i : Instr} : decode c = .ok i ↔ encode i = c ∧ i.wellFormed = true :=
  ⟨encode_of_decode, fun ⟨hword, hwf⟩ => hword ▸ decode_encode hwf⟩

/-! ### The fields that a row uses -/

/-- The fields that a format uses hold the given operands (30 R91, R92). -/
def Format.operandsIn (c : Word) (rd ra rb rc : BigReg) : Format → Prop
  | .fmtD => rd.val = registerField c 8
  | .fmtA => ra.val = registerField c 12
  | .fmtDA => rd.val = registerField c 8 ∧ ra.val = registerField c 12
  | .fmtAB => ra.val = registerField c 12 ∧ rb.val = registerField c 16
  | .fmtDAB => rd.val = registerField c 8 ∧ ra.val = registerField c 12 ∧ rb.val = registerField c 16
  | .fmtDABC => rd.val = registerField c 8 ∧ ra.val = registerField c 12 ∧ rb.val = registerField c 16 ∧
      rc.val = registerField c 20

/-- A register field is the number that its four bits spell (30 R91). -/
theorem toFin_extract_eq_iff (c : Word) (lo : Nat) (r : BigReg) :
    (c.extractLsb' lo 4).toFin = r ↔ r.val = registerField c lo := by
  have hnumber : (c.extractLsb' lo 4).toFin.val = registerField c lo := toNat_extractLsb' c lo 4
  rw [Fin.ext_iff, hnumber, eq_comm]

theorem rdField_eq_iff : rdField c = rd ↔ rd.val = registerField c 8 := toFin_extract_eq_iff c 8 rd
theorem raField_eq_iff : raField c = ra ↔ ra.val = registerField c 12 := toFin_extract_eq_iff c 12 ra
theorem rbField_eq_iff : rbField c = rb ↔ rb.val = registerField c 16 := toFin_extract_eq_iff c 16 rb
theorem rcField_eq_iff : rcField c = rc ↔ rc.val = registerField c 20 := toFin_extract_eq_iff c 20 rc

/-- Operands that are 0 where the format uses no field stand in the fields of a word of that format exactly when they
stand in the fields the format uses (30 R92). -/
theorem Format.operandsIn_iff (hunused : f.unusedZero rd ra rb rc)
    (hfields : f.unusedZero (rdField c) (raField c) (rbField c) (rcField c)) :
    f.operandsIn c rd ra rb rc ↔ rdField c = rd ∧ raField c = ra ∧ rbField c = rb ∧ rcField c = rc := by
  cases f <;> simp_all [Format.unusedZero, Format.operandsIn, ← rdField_eq_iff, ← raField_eq_iff, ← rbField_eq_iff,
    ← rcField_eq_iff]

/-- A word is assembled for a row exactly when its masked bits are the row's `match` and its used fields are the operands
(30 R94). -/
theorem assemble_eq_iff (hunused : f.unusedZero rd ra rb rc) :
    assemble op rd ra rb rc = c ↔ c &&& f.mask = op.setWidth 32 ∧ f.operandsIn c rd ra rb rc := by
  constructor
  · rintro rfl
    refine ⟨assemble_mask op rd ra rb rc f hunused, (Format.operandsIn_iff hunused ?_).2 ?_⟩ <;> simp [hunused]
  · rintro ⟨hmask, hoperands⟩
    have hop : opcodeField c = op := opcodeField_of_mask hmask
    have hzero : zeroField c = 0 := zeroField_of_mask hmask
    have hfields := (mask_eq_iff c f hzero).1 (hop ▸ hmask)
    obtain ⟨hrd, hra, hrb, hrc⟩ := (Format.operandsIn_iff hunused hfields).1 hoperands
    rw [← assemble_fields c hzero, hop, hrd, hra, hrb, hrc]

end

/-- A word decodes to a well-formed command exactly when it has the `match` of the command's row and the command's
operands in the fields the row uses (30 R94). -/
theorem decode_eq_ok_iff_fields {c : Word} {i : Instr} {rd ra rb rc : BigReg} (op : BitVec 8) (f : Format)
    (hencode : encode i = assemble op rd ra rb rc) (hunused : f.unusedZero rd ra rb rc) (hwf : i.wellFormed = true) :
    decode c = .ok i ↔ c &&& f.mask = op.setWidth 32 ∧ f.operandsIn c rd ra rb rc := by
  rw [decode_eq_ok_iff, hencode, assemble_eq_iff hunused, and_iff_left hwf]

/-- A word decodes to BEZOUT exactly when it has BEZOUT's `match`, the operands in its fields and two destinations
(30 R94, R95). -/
theorem decode_eq_ok_bezout_iff {c : Word} {rd rc ra rb : BigReg} :
    decode c = .ok (.bezout rd rc ra rb) ↔
      c &&& Format.fmtDABC.mask = (0x61 : BitVec 8).setWidth 32 ∧ rd ≠ rc ∧ Format.fmtDABC.operandsIn c rd ra rb rc := by
  rw [decode_eq_ok_iff, encode, assemble_eq_iff (f := .fmtDABC) trivial, and_assoc, and_comm (a := _ ≠ _)]
  simp only [Instr.wellFormed, bne_iff_ne]

/-! ### The obligations -/

/-- Settles O1: the word of a command is assembled for the command's row. -/
theorem encodedCommandDecodesToItself : Obligations.EncodedCommandDecodesToItself :=
  fun _ hwf => decode_encode hwf

/-- Settles O2: a word that decodes is its own fields assembled for its row. -/
theorem decodedWordIsTheCommandsWord : Obligations.DecodedWordIsTheCommandsWord :=
  fun _ _ h => encode_of_decode h

/-- Settles O3: row by row, with the row's opcode and format. -/
theorem decodeFollowsTheOpcodeMap : Obligations.DecodeFollowsTheOpcodeMap := by
  intro c rd ra rb rc
  exact ⟨decode_eq_ok_iff_fields 0x01 .fmtD rfl ⟨rfl, rfl, rfl⟩ rfl,
    decode_eq_ok_iff_fields 0x02 .fmtA rfl ⟨rfl, rfl, rfl⟩ rfl,
    decode_eq_ok_iff_fields 0x03 .fmtDA rfl ⟨rfl, rfl⟩ rfl,
    decode_eq_ok_iff_fields 0x04 .fmtD rfl ⟨rfl, rfl, rfl⟩ rfl,
    decode_eq_ok_iff_fields 0x10 .fmtDAB rfl rfl rfl,
    decode_eq_ok_iff_fields 0x11 .fmtDAB rfl rfl rfl,
    decode_eq_ok_iff_fields 0x20 .fmtDAB rfl rfl rfl,
    decode_eq_ok_iff_fields 0x21 .fmtDA rfl ⟨rfl, rfl⟩ rfl,
    decode_eq_ok_iff_fields 0x22 .fmtDA rfl ⟨rfl, rfl⟩ rfl,
    decode_eq_ok_iff_fields 0x30 .fmtDAB rfl rfl rfl,
    decode_eq_ok_iff_fields 0x31 .fmtDAB rfl rfl rfl,
    decode_eq_ok_iff_fields 0x40 .fmtDA rfl ⟨rfl, rfl⟩ rfl,
    decode_eq_ok_iff_fields 0x41 .fmtDA rfl ⟨rfl, rfl⟩ rfl,
    decode_eq_ok_iff_fields 0x50 .fmtAB rfl ⟨rfl, rfl⟩ rfl,
    decode_eq_ok_iff_fields 0x51 .fmtA rfl ⟨rfl, rfl, rfl⟩ rfl,
    decode_eq_ok_iff_fields 0x52 .fmtA rfl ⟨rfl, rfl, rfl⟩ rfl,
    decode_eq_ok_iff_fields 0x53 .fmtA rfl ⟨rfl, rfl, rfl⟩ rfl,
    decode_eq_ok_iff_fields 0x54 .fmtDA rfl ⟨rfl, rfl⟩ rfl,
    decode_eq_ok_iff_fields 0x55 .fmtA rfl ⟨rfl, rfl, rfl⟩ rfl,
    decode_eq_ok_iff_fields 0x60 .fmtDAB rfl rfl rfl,
    decode_eq_ok_bezout_iff,
    decode_eq_ok_iff_fields 0x62 .fmtDAB rfl rfl rfl,
    decode_eq_ok_iff_fields 0x63 .fmtDABC rfl trivial rfl,
    decode_eq_ok_iff_fields 0x64 .fmtDABC rfl trivial rfl⟩

/-- Settles O5: each word is the word of its command. -/
theorem sampleWordsDecode : Obligations.SampleWordsDecode :=
  ⟨decode_eq_ok_iff.2 ⟨rfl, rfl⟩, decode_eq_ok_iff.2 ⟨rfl, rfl⟩, decode_eq_ok_iff.2 ⟨rfl, rfl⟩,
    decode_eq_ok_iff.2 ⟨rfl, rfl⟩, decode_eq_ok_iff.2 ⟨rfl, rfl⟩, decode_eq_ok_iff.2 ⟨rfl, rfl⟩,
    decode_eq_ok_iff.2 ⟨rfl, rfl⟩⟩

end Sys2Proof
end

section
/-! SUPPORT. Data movement: LD, ST, MOV, LDI (40_data_movement.md rules R120 to R123). Each command writes a value that
fits a register, and the buffer that ST writes spells, to LD, the register it was stored from. -/

namespace Sys2Proof.Machine

/-! ### The word of a command -/

/-- A command word written as a number is the word assembled from the same fields (30 R91, R94). -/
theorem commandWord_eq_assemble (op : BitVec 8) (rd ra rb rc : BigReg) :
    commandWord op.toNat rd ra rb rc = assemble op rd ra rb rc := by
  rw [commandWord, ← assemble_toNat, BitVec.ofNat_toNat, BitVec.setWidth_eq]

/-- The number built from a command's opcode and registers decodes to the command (30 R94, R95). -/
theorem decode_commandWord {i : Instr} (op : BitVec 8) {rd ra rb rc : BigReg}
    (hencode : encode i = assemble op rd ra rb rc) (hwf : i.wellFormed = true) :
    decode (commandWord op.toNat rd ra rb rc) = .ok i :=
  decode_eq_ok_iff.2 ⟨hencode.trans (commandWord_eq_assemble op rd ra rb rc).symm, hwf⟩

/-! ### Values that fit -/

/-- A value of at most LMAX limbs fits a register (60 R285). -/
theorem State.capacity_of_limbs {s : State} {v : Int} {n : Nat} (hv : v.natAbs < 2 ^ (32 * n))
    (hn : n ≤ s.params.lmax) : s.Capacity v :=
  hv.trans_le (Nat.pow_le_pow_right two_pos (Nat.mul_le_mul_left 32 hn))

/-- The end of a command whose value fits, with the capacity in bits (60 R285). -/
theorem State.finishBig_of_capacity {s : State} (hp : s.params.Ok) (rd : BigReg) {v : Int} (hv : s.Capacity v) :
    s.finishBig rd v = s.afterBig rd v :=
  s.finishBig_fits rd v ((s.fits_iff hp v).2 hv)

/-! ### The value in the limb buffer -/

section
variable {s : State}

/-- The value that LD reads, as the signed sum of R120. -/
theorem State.bufferVal_eq_sum (s : State) : s.bufferVal = (if s.osign then -1 else 1) *
    ((∑ i ∈ Finset.range s.olen.toNat, (s.obufWord i).toNat * 2 ^ (32 * i) : Nat) : Int) := by
  rw [← s.mag_obufLimbs, State.bufferVal]
  cases s.osign <;> simp

/-- "Never Overflow: `n <= LMAX` limbs always fit" (40 R120). -/
theorem State.capacity_bufferVal (h : s.olen.toNat ≤ s.params.lmax) : s.Capacity s.bufferVal := by
  have habs : s.bufferVal.natAbs = mag (s.obufLimbs s.olen.toNat) := by
    rw [State.bufferVal]
    cases s.osign <;> simp
  exact State.capacity_of_limbs (habs ▸ s.mag_obufLimbs_lt s.olen.toNat) h

/-- LD with a legal OLEN (40 R120). -/
theorem exec_ld_of_olen_legal (hp : s.params.Ok) (rd : BigReg) (hlow : 1 ≤ s.olen.toNat)
    (hhigh : s.olen.toNat ≤ s.params.lmax) : exec (.ld rd) s = .next (s.afterBig rd s.bufferVal) := by
  have hlegal : ¬ (s.olen.toNat = 0 ∨ s.params.lmax < s.olen.toNat) := by omega
  rw [← State.finishBig_of_capacity hp rd (State.capacity_bufferVal hhigh)]
  exact if_neg hlegal

/-- LD with OLEN 0 or above LMAX (40 R120). -/
theorem exec_ld_of_olen_illegal (rd : BigReg) (h : s.olen.toNat = 0 ∨ s.params.lmax < s.olen.toNat) :
    exec (.ld rd) s = .next (s.afterError 7) :=
  if_pos h

/-! ### Bytes outside the limb buffer -/

/-- An offset that no cell of a list has holds no byte. -/
theorem cellAt_eq_none {m : List Host.Cell} {a : Nat} (h : ∀ c ∈ m, c.1 ≠ a) : cellAt m a = none := by
  induction m with
  | nil => rfl
  | cons c m ih =>
    obtain ⟨hc, hm⟩ := List.forall_mem_cons.1 h
    exact (if_neg hc).trans (ih hm)

/-- A byte outside OBUF[0 .. LMAX-1] has never been written (log entry 4). -/
theorem State.BufferOk.readByte_outside (h : s.BufferOk) {a : Nat}
    (ha : ¬ (obufBase ≤ a ∧ a < obufBase + 4 * s.params.lmax)) : s.readByte a = Config.obufAfterReset s.epoch a := by
  have hnone : cellAt s.obuf a = none := cellAt_eq_none fun c hc hca => ha (hca ▸ h.2 c hc)
  simp only [State.readByte, hnone]

/-- An offset in no word of OBUF[0 .. n-1] is outside the buffer (10 R36). -/
theorem outside_of_no_word {n a : Nat} (h : ∀ i, i < n → ¬ (obufOffset i ≤ a ∧ a < obufOffset i + 4)) :
    ¬ (obufBase ≤ a ∧ a < obufBase + 4 * n) := by
  intro ⟨hlow, hhigh⟩
  exact h ((a - obufBase) / 4) (by omega) (by unfold obufOffset; omega)

/-! ### The buffer that ST writes -/

variable {x : BigInt}

/-- OLEN can hold every limb count (10 R35, 00 R5). -/
theorem State.toNat_olen_storeBuffer (hp : s.params.Ok) (hx : x.len ≤ s.params.lmax) :
    (s.storeBuffer x).olen.toNat = x.len := by
  obtain ⟨-, hmax⟩ := hp
  rw [State.storeBuffer_olen, BitVec.toNat_ofNat, Nat.mod_eq_of_lt (by omega)]

/-- ST's buffer agrees with the buffer before on every byte outside OBUF[0 .. LMAX-1] (40 R121). -/
theorem State.readByte_storeBuffer_outside (hs : s.BufferOk) (hx : x.len ≤ s.params.lmax) {a : Nat}
    (ha : ¬ (obufBase ≤ a ∧ a < obufBase + 4 * s.params.lmax)) : (s.storeBuffer x).readByte a = s.readByte a :=
  ((s.bufferOk_storeBuffer x hx).readByte_outside ha).trans (hs.readByte_outside ha).symm

theorem State.getElem_obufLimbs (s : State) (n i : Nat) (hi : i < (s.obufLimbs n).length) :
    (s.obufLimbs n)[i] = s.obufWord i := by
  simp [State.obufLimbs]

/-- The limbs that LD reads from ST's buffer are the value's (40 R121). -/
theorem State.obufLimbs_storeBuffer (hx : x.len ≤ s.params.lmax) : (s.storeBuffer x).obufLimbs x.len = x.limbs := by
  refine List.ext_getElem (by simp [State.obufLimbs, BigInt.len]) fun i hi hi' => ?_
  rw [State.getElem_obufLimbs, s.obufWord_storeBuffer x hx i (Nat.lt_of_lt_of_le hi' hx), limbAt,
    List.getD_eq_getElem _ _ hi']

/-- The value that LD reads from ST's buffer is the value stored (40 R121, Corner cases). -/
theorem State.bufferVal_storeBuffer (hp : s.params.Ok) (hx : x.len ≤ s.params.lmax) :
    (s.storeBuffer x).bufferVal = x.val := by
  rw [State.bufferVal, State.toNat_olen_storeBuffer hp hx, State.obufLimbs_storeBuffer hx]
  rfl

/-- ST completes in every state (40 R121). -/
theorem exec_st (ra : BigReg) : exec (.st ra) s = .next (s.afterStore (s.reg ra)) := rfl

theorem State.sameOutside_afterStore : s.SameOutside (s.afterStore x) :=
  ⟨rfl, rfl, rfl, rfl, rfl, rfl, rfl, rfl, rfl, rfl⟩

end

/-! ### The wide scalar -/

/-- A 64-bit signed number has at most two limbs (40 R123). -/
theorem natAbs_toInt_lt (w : BitVec 64) : w.toInt.natAbs < 2 ^ (32 * 2) := by
  have hhigh := w.toInt_lt
  have hlow := w.le_toInt
  omega

/-! ### The obligations -/

/-- Settles O13: OLEN limbs fit when OLEN is legal, and OLEN is tested before anything else. -/
theorem ldLoadsTheBuffer : Obligations.LdLoadsTheBuffer := by
  refine ⟨fun rd => decode_commandWord 0x01 rfl rfl,
    fun s rd ⟨hp, _⟩ => ⟨fun hlow hhigh => ?_, exec_ld_of_olen_illegal rd⟩⟩
  rw [← s.bufferVal_eq_sum]
  exact exec_ld_of_olen_legal hp rd hlow hhigh

/-- Settles O14: the words and bytes of the buffer that ST writes; the rest stands in the end it takes. -/
theorem stStoresTheRegister : Obligations.StStoresTheRegister := by
  refine ⟨fun ra => decode_commandWord 0x02 rfl rfl, fun s ra ⟨hp, hregs, _, hbuffer⟩ => ?_⟩
  have hlen : (s.reg ra).len ≤ s.params.lmax := (hregs ra).2
  have hword : ∀ i, i < s.params.lmax → (s.afterStore (s.reg ra)).obufWord i = limbAt (s.reg ra).limbs i :=
    s.obufWord_storeBuffer (s.reg ra) hlen
  refine ⟨_, exec_st ra, State.toNat_olen_storeBuffer hp hlen, rfl, fun i hi => ?_, fun i hi hmax => ?_,
    fun a ha => State.readByte_storeBuffer_outside hbuffer hlen (outside_of_no_word ha), rfl, rfl, rfl, rfl, rfl, rfl,
    ⟨rfl, rfl, rfl⟩, State.sameOutside_afterStore⟩
  · rw [hword i (hi.trans_le hlen), limbAt, List.getD_eq_getElem _ _ hi, List.getElem?_eq_getElem hi]
  · rw [hword i hmax, limbAt, List.getD_eq_default _ _ hi]

/-- Settles O15: ST's header is legal for LD, and `big` of the value in ST's buffer is the register itself, which is
normalized. -/
theorem stThenLdReproducesTheValue : Obligations.StThenLdReproducesTheValue := by
  intro s ra rd ⟨hp, hregs, _, _⟩
  obtain ⟨hnormal, hlen⟩ := hregs ra
  have holen : (s.afterStore (s.reg ra)).olen.toNat = (s.reg ra).len := State.toNat_olen_storeBuffer hp hlen
  have hval : (s.afterStore (s.reg ra)).bufferVal = (s.reg ra).val := State.bufferVal_storeBuffer hp hlen
  have hload := exec_ld_of_olen_legal (s := s.afterStore (s.reg ra)) hp rd (holen ▸ hnormal.1.length_pos) (holen ▸ hlen)
  refine ⟨_, _, exec_st ra, hload, ?_, fun r hr => ?_, .of_eq rfl rfl rfl rfl⟩
  · rw [State.reg_afterBig, if_pos rfl, hval, hnormal.big_val]
  · rw [State.reg_afterBig, if_neg hr]
    rfl

/-- Settles O17: two limbs always fit. -/
theorem ldiLoadsTheWideScalar : Obligations.LdiLoadsTheWideScalar := by
  refine ⟨fun rd => decode_commandWord 0x04 rfl rfl, fun s rd ⟨hp, _⟩ => ?_⟩
  have hfits : s.Capacity s.wideScalar := State.capacity_of_limbs (natAbs_toInt_lt (s.sb ++ s.sa)) hp.1
  exact congrArg Host.Outcome.next (State.finishBig_of_capacity hp rd hfits)

/-- Settles O16: what a register holds fits a register. -/
theorem movCopiesTheRegister : Obligations.MovCopiesTheRegister := by
  refine ⟨fun rd ra => decode_commandWord 0x03 rfl rfl, fun s rd ra h => ?_⟩
  exact congrArg Host.Outcome.next (State.finishBig_of_capacity h.1 rd (h.capacity ra))

end Sys2Proof.Machine
end

section
/-! SUPPORT. Adder: ADD and SUB (41_addsub.md rules R144, R145). Both write an exact value, or end in
Overflow where it leaves the capacity: a sum of like signs and a difference of opposite signs add the magnitudes, and
every other result is no larger than the larger operand. -/

namespace Sys2Proof

/-! ### Signs and magnitudes -/

section
variable {a b : BigInt}

/-- A value without the sign is not negative (00 R8). -/
theorem BigInt.val_nonneg (h : a.sign = false) : 0 ≤ a.val := by
  simp [BigInt.val_eq, h]

/-- A value with the sign is not positive (00 R8). -/
theorem BigInt.val_nonpos (h : a.sign = true) : a.val ≤ 0 := by
  simp [BigInt.val_eq, h]

/-- Values of like signs are on one side of 0. -/
theorem BigInt.same_side_of_sign_eq (h : a.sign = b.sign) : 0 ≤ a.val ∧ 0 ≤ b.val ∨ a.val ≤ 0 ∧ b.val ≤ 0 := by
  cases ha : a.sign with
  | false => exact .inl ⟨val_nonneg ha, val_nonneg (h ▸ ha)⟩
  | true => exact .inr ⟨val_nonpos ha, val_nonpos (h ▸ ha)⟩

/-- Values of opposite signs are on the two sides of 0. -/
theorem BigInt.opposite_sides_of_sign_ne (h : a.sign ≠ b.sign) : 0 ≤ a.val ∧ b.val ≤ 0 ∨ a.val ≤ 0 ∧ 0 ≤ b.val := by
  cases ha : a.sign with
  | false => exact .inl ⟨val_nonneg ha, val_nonpos (Bool.eq_true_of_not_eq_false fun hb => h (ha.trans hb.symm))⟩
  | true => exact .inr ⟨val_nonpos ha, val_nonneg (Bool.eq_false_of_not_eq_true fun hb => h (ha.trans hb.symm))⟩

/-- Under like signs the magnitudes of a sum add (41 R144). -/
theorem BigInt.natAbs_add_of_sign_eq (h : a.sign = b.sign) :
    (a.val + b.val).natAbs = a.val.natAbs + b.val.natAbs := by
  have hside := same_side_of_sign_eq h
  omega

/-- Under opposite signs a sum is no larger than the larger operand (41 R144). -/
theorem BigInt.natAbs_add_le_of_sign_ne (h : a.sign ≠ b.sign) :
    (a.val + b.val).natAbs ≤ max a.val.natAbs b.val.natAbs := by
  have hside := opposite_sides_of_sign_ne h
  omega

/-- Under like signs a difference is no larger than the larger operand (41 R145). -/
theorem BigInt.natAbs_sub_le_of_sign_eq (h : a.sign = b.sign) :
    (a.val - b.val).natAbs ≤ max a.val.natAbs b.val.natAbs := by
  have hside := same_side_of_sign_eq h
  omega

end

namespace Machine

/-! ### The capacity -/

/-- The end of a command whose value does not fit, with the capacity in bits (60 R285). -/
theorem State.finishBig_of_not_capacity {s : State} (hp : s.params.Ok) (rd : BigReg) {v : Int} (hv : ¬ s.Capacity v) :
    s.finishBig rd v = s.afterError 4 :=
  s.finishBig_overflow rd v (mt (s.fits_iff hp v).1 hv)

section
variable {s : State} (h : s.Inv) (rd ra rb : BigReg)
include h

/-- Every register holds a normalized value (10 R22). -/
theorem State.Inv.normal (i : BigReg) : (s.reg i).Normal := (h.2.1 i).1

/-- A value no larger than the larger of two registers fits a register (10 R22). -/
theorem State.Inv.capacity_of_le_max {v : Int} (hv : v.natAbs ≤ max (s.regVal ra).natAbs (s.regVal rb).natAbs) :
    s.Capacity v :=
  hv.trans_lt (max_lt (h.capacity ra) (h.capacity rb))

/-- A sum leaves the capacity exactly when the signs agree and the magnitudes together reach it (41 R144). -/
theorem State.Inv.not_capacity_add_iff : ¬ s.Capacity (s.regVal ra + s.regVal rb) ↔
    (s.reg ra).sign = (s.reg rb).sign ∧
      2 ^ (32 * s.params.lmax) ≤ (s.regVal ra).natAbs + (s.regVal rb).natAbs := by
  by_cases hsign : (s.reg ra).sign = (s.reg rb).sign
  · have habs : (s.regVal ra + s.regVal rb).natAbs = (s.regVal ra).natAbs + (s.regVal rb).natAbs :=
      BigInt.natAbs_add_of_sign_eq hsign
    rw [State.Capacity, habs, not_lt, and_iff_right hsign]
  · have hfits : s.Capacity (s.regVal ra + s.regVal rb) :=
      h.capacity_of_le_max ra rb (BigInt.natAbs_add_le_of_sign_ne hsign)
    exact iff_of_false (not_not_intro hfits) fun hreach => hsign hreach.1

/-- A difference leaves the capacity under opposite signs only (41 R145). -/
theorem State.Inv.sign_ne_of_not_capacity_sub (hv : ¬ s.Capacity (s.regVal ra - s.regVal rb)) :
    (s.reg ra).sign ≠ (s.reg rb).sign :=
  fun hsign => hv (h.capacity_of_le_max ra rb (BigInt.natAbs_sub_le_of_sign_eq hsign))

/-! ### The commands -/

/-- ADD's algorithm on limbs writes the sum of the integers (41 R143, R144). -/
theorem exec_add : exec (.add rd ra rb) s = .next (s.finishBig rd (s.regVal ra + s.regVal rb)) :=
  congrArg (fun v => Host.Outcome.next (s.finishBig rd v)) (add_val _ _ (h.normal ra) (h.normal rb))

/-- SUB's algorithm on limbs writes the difference of the integers (41 R143, R145). -/
theorem exec_sub : exec (.sub rd ra rb) s = .next (s.finishBig rd (s.regVal ra - s.regVal rb)) :=
  congrArg (fun v => Host.Outcome.next (s.finishBig rd v)) (sub_val _ _ (h.normal ra) (h.normal rb))

end

/-! ### The obligations -/

/-- Settles O18: the sum is exact, and it leaves the capacity only where like signs add the magnitudes. -/
theorem addIsTheExactSum : Obligations.AddIsTheExactSum := by
  refine ⟨fun rd ra rb => decode_commandWord 0x10 rfl rfl, fun s rd ra rb h => ?_⟩
  rw [exec_add h]
  exact ⟨fun hv => congrArg _ (State.finishBig_of_capacity h.1 rd hv),
    fun hv => congrArg _ (State.finishBig_of_not_capacity h.1 rd hv), h.not_capacity_add_iff ra rb⟩

/-- Settles O19: the difference is exact, and like signs keep it within the larger operand. -/
theorem subIsTheExactDifference : Obligations.SubIsTheExactDifference := by
  refine ⟨fun rd ra rb => decode_commandWord 0x11 rfl rfl, fun s rd ra rb h => ?_⟩
  rw [exec_sub h]
  exact ⟨fun hv => congrArg _ (State.finishBig_of_capacity h.1 rd hv),
    fun hv => congrArg _ (State.finishBig_of_not_capacity h.1 rd hv), h.sign_ne_of_not_capacity_sub ra rb⟩

end Machine
end Sys2Proof
end

section
/-! SUPPORT. Multiplier: MUL, MULS and MULADD (42_multiply.md rules R163, R165, R168). Each writes an exact value, or ends
in Overflow where it leaves the capacity; MULADD refuses a negative source before it. -/

namespace Sys2Proof

/-! ### The one-pass multiplier on values -/

/-- MULS's algorithm on limbs multiplies by the scalar as an unsigned number and keeps the sign (42 R165). -/
theorem norm_magMuladd_val (a : BigInt) (m : Word) :
    (norm a.sign (magMuladd a.limbs m 0)).val = a.val * m.toNat := by
  cases hsign : a.sign with
  | false => simp [BigInt.val_eq a, hsign]
  | true => simp [BigInt.val_eq a, hsign]

/-- The magnitude of a value that is not negative is the value (00 R8). -/
theorem BigInt.mag_of_val_nonneg {a : BigInt} (h : 0 ≤ a.val) : (Sys2Proof.mag a.limbs : Int) = a.val :=
  (congrArg Nat.cast a.mag_eq_natAbs).trans (Int.natAbs_of_nonneg h)

namespace Machine

section
variable {s : State} (rd ra rb : BigReg)

/-! ### The commands -/

/-- MUL's schoolbook algorithm writes the product of the integers (42 R160, R162, R163). -/
theorem exec_mul : exec (.mul rd ra rb) s = .next (s.finishBig rd (s.regVal ra * s.regVal rb)) :=
  congrArg (fun v => Host.Outcome.next (s.finishBig rd v)) (mul_val (s.reg ra) (s.reg rb))

/-- MULS's one pass writes the product with the unsigned scalar (42 R164, R165). -/
theorem exec_muls : exec (.muls rd ra) s = .next (s.finishBig rd (s.regVal ra * s.sa.toNat)) :=
  congrArg (fun v => Host.Outcome.next (s.finishBig rd v)) (norm_magMuladd_val (s.reg ra) s.sa)

/-- MULADD tests the sign of its source before anything else (42 R168, 60 R286). -/
theorem exec_muladd_of_neg (hneg : s.regVal ra < 0) : exec (.muladd rd ra) s = .next (s.afterError 5) :=
  if_pos hneg

/-- MULADD's one pass writes the product with the first scalar plus the second, both unsigned (42 R164, R168). -/
theorem exec_muladd_of_nonneg (h : 0 ≤ s.regVal ra) :
    exec (.muladd rd ra) s = .next (s.finishBig rd (s.regVal ra * s.sa.toNat + s.sb.toNat)) := by
  have hvalue : (mag (magMuladd (s.reg ra).limbs s.sa s.sb) : Int) = s.regVal ra * s.sa.toNat + s.sb.toNat := by
    rw [magMuladd_mag, Nat.cast_add, Nat.cast_mul, BigInt.mag_of_val_nonneg h, State.regVal]
  rw [← hvalue]
  exact if_neg h.not_gt

/-! ### The end of a command -/

/-- A product leaves the capacity exactly when the product of the magnitudes reaches it (42 R163). -/
theorem State.not_capacity_mul_iff (v w : Int) :
    ¬ s.Capacity (v * w) ↔ 2 ^ (32 * s.params.lmax) ≤ v.natAbs * w.natAbs := by
  rw [State.Capacity, Int.natAbs_mul, not_lt]

/-- The meaning of a command that writes one big register: the value where it fits, Overflow where it does not (60 R285). -/
theorem State.Inv.exec_of_finishBig (h : s.Inv) {i : Instr} {v : Int}
    (hi : exec i s = .next (s.finishBig rd v)) :
    (s.Capacity v → exec i s = .next (s.afterBig rd v)) ∧
    (¬ s.Capacity v → exec i s = .next (s.afterError 4)) :=
  ⟨fun hv => hi.trans (congrArg _ (State.finishBig_of_capacity h.1 rd hv)),
    fun hv => hi.trans (congrArg _ (State.finishBig_of_not_capacity h.1 rd hv))⟩

end

/-! ### The obligations -/

/-- Settles O20: the product is exact, and its magnitude is the product of the magnitudes. -/
theorem mulIsTheExactProduct : Obligations.MulIsTheExactProduct := by
  refine ⟨fun rd ra rb => decode_commandWord 0x20 rfl rfl, fun s rd ra rb h => ?_⟩
  rw [← State.not_capacity_mul_iff]
  exact h.exec_of_finishBig rd (exec_mul rd ra rb)

/-- Settles O21: the product with the unsigned scalar is exact. -/
theorem mulsMultipliesByTheUnsignedScalar : Obligations.MulsMultipliesByTheUnsignedScalar :=
  ⟨fun _ _ => decode_commandWord 0x21 rfl rfl, fun _ rd ra h => h.exec_of_finishBig rd (exec_muls rd ra)⟩

/-- Settles O22: a negative source ends in Domain before the sum is formed; for any other the sum is exact. -/
theorem muladdMultipliesAndAdds : Obligations.MuladdMultipliesAndAdds :=
  ⟨fun _ _ => decode_commandWord 0x22 rfl rfl, fun _ rd ra h =>
    ⟨exec_muladd_of_neg rd ra,
      fun hnonneg => (h.exec_of_finishBig rd (exec_muladd_of_nonneg rd ra hnonneg)).1,
      fun hnonneg => (h.exec_of_finishBig rd (exec_muladd_of_nonneg rd ra hnonneg)).2⟩⟩

end Machine
end Sys2Proof
end

section
/-! SUPPORT. Divider: DIV and MOD (43_divide.md rules R194, R197, R198). DIV's quotient is truncated and no larger than the
dividend, MOD's residue is below the modulus, so neither overflows; on a positive divisor they disagree by one divisor
exactly where the division of a negative dividend is not exact. -/

namespace Sys2Proof

/-! ### Truncated quotient and least residue, by the sign of the dividend -/

section
variable {a b : Int}

/-- On values that are not negative the truncated quotient is the quotient of the magnitudes (43 R198). -/
theorem tdiv_eq_natAbs_div_of_nonneg (ha : 0 ≤ a) (hb : 0 ≤ b) : a.tdiv b = (a.natAbs / b.natAbs : Nat) := by
  rw [Int.ofNat_tdiv, Int.natAbs_of_nonneg ha, Int.natAbs_of_nonneg hb]

/-- Truncation gives a negative dividend the negated quotient of the magnitudes (43 R198). -/
theorem tdiv_eq_neg_natAbs_div_of_nonpos (ha : a ≤ 0) (hb : 0 ≤ b) : a.tdiv b = -(a.natAbs / b.natAbs : Nat) := by
  rw [Int.ofNat_tdiv, Int.ofNat_natAbs_of_nonpos ha, Int.natAbs_of_nonneg hb, Int.neg_tdiv, neg_neg]

/-- On values that are not negative the residue is the remainder of the magnitudes (43 R198). -/
theorem emod_eq_natAbs_mod_of_nonneg (ha : 0 ≤ a) (hb : 0 ≤ b) : a % b = (a.natAbs % b.natAbs : Nat) := by
  rw [Int.natCast_emod, Int.natAbs_of_nonneg ha, Int.natAbs_of_nonneg hb]

/-- An inexact division of a negative dividend leaves the divisor less the remainder of the magnitudes (43 R198). -/
theorem emod_eq_sub_natAbs_mod_of_neg (ha : a < 0) (hb : 0 < b) (hdvd : ¬ b ∣ a) :
    a % b = b - (a.natAbs % b.natAbs : Nat) := by
  have habs : (a % b).natAbs = b.natAbs - a.natAbs % b.natAbs := by
    rw [Int.natAbs_emod a hb.ne', if_neg (not_or.2 ⟨ha.not_ge, hdvd⟩)]
  have hlt : a.natAbs % b.natAbs < b.natAbs := Nat.mod_lt _ (Int.natAbs_pos.2 hb.ne')
  have hnonneg := Int.emod_nonneg a hb.ne'
  omega

/-- The truncated quotient goes with the remainder of the dividend's sign, which is one divisor below the residue exactly
where an inexact division has a negative dividend (43 R198). -/
theorem tdiv_mul_add_emod (a : Int) (hb : 0 ≤ b) :
    a.tdiv b * b + a % b = a + if 0 ≤ a ∨ b ∣ a then 0 else b := by
  have htrunc : a.tdiv b * b + a.tmod b = a := Int.tdiv_mul_add_tmod a b
  rw [Int.tmod_eq_emod] at htrunc
  split_ifs at htrunc ⊢ <;> omega

/-- The division identity holds exactly where no correction of the remainder is needed (43 R198). -/
theorem tdiv_mul_add_emod_eq_iff (hb : 0 < b) : a.tdiv b * b + a % b = a ↔ 0 ≤ a ∨ b ∣ a := by
  rw [tdiv_mul_add_emod a hb.le, add_eq_left, ite_eq_left_iff]
  exact ⟨fun h => by_contra fun hne => hb.ne' (h hne), fun h hne => absurd h hne⟩

end

namespace Machine

/-! ### The checks of the modulus -/

section
variable {m : BigInt}

theorem modulusError_of_val_eq_zero (h : m.val = 0) : modulusError m = some .divisionByZero :=
  if_pos h

theorem modulusError_of_val_neg (h : m.val < 0) : modulusError m = some .negativeModulus := by
  rw [modulusError, if_neg h.ne, if_pos h]

theorem modulusError_of_val_pos (h : 0 < m.val) : modulusError m = none := by
  rw [modulusError, if_neg h.ne', if_neg h.not_gt]

end

/-! ### The commands -/

section
variable {s : State} (rd ra rb : BigReg)

/-- DIV tests its divisor before it divides (43 R194). -/
theorem exec_div_of_zero (hzero : s.regVal rb = 0) : exec (.div rd ra rb) s = .next (s.afterError 1) :=
  if_pos hzero

/-- MOD refuses a zero modulus (43 R196, R197). -/
theorem exec_mod_of_zero (hzero : s.regVal rb = 0) : exec (.mod rd ra rb) s = .next (s.afterError 1) := by
  rw [exec, execMod, modulusError_of_val_eq_zero hzero]
  rfl

/-- MOD refuses a negative modulus (43 R196, R197). -/
theorem exec_mod_of_neg (hneg : s.regVal rb < 0) : exec (.mod rd ra rb) s = .next (s.afterError 2) := by
  rw [exec, execMod, modulusError_of_val_neg hneg]
  rfl

variable (h : s.Inv)
include h

/-- A truncated quotient is no larger than the dividend, so it fits a register (43 R194). -/
theorem State.Inv.capacity_tdiv : s.Capacity ((s.regVal ra).tdiv (s.regVal rb)) :=
  (Int.natAbs_tdiv_le_natAbs _ _).trans_lt (h.capacity ra)

/-- A residue is below the modulus, so it fits a register (43 R197). -/
theorem State.Inv.capacity_emod (hpos : 0 < s.regVal rb) : s.Capacity (s.regVal ra % s.regVal rb) := by
  have hnonneg := Int.emod_nonneg (s.regVal ra) hpos.ne'
  have hlt := Int.emod_lt_of_pos (s.regVal ra) hpos
  exact lt_of_le_of_lt (by omega) (h.capacity rb)

/-- The divider's quotient is the truncated quotient of the integers, and it is never too large (43 R193, R194). -/
theorem exec_div_of_ne_zero (hne : s.regVal rb ≠ 0) :
    exec (.div rd ra rb) s = .next (s.afterBig rd ((s.regVal ra).tdiv (s.regVal rb))) := by
  have hquot : (BigInt.quot (s.reg ra) (s.reg rb)).val = (s.regVal ra).tdiv (s.regVal rb) :=
    quot_val _ _ (h.normal rb) hne
  rw [exec, execDiv, if_neg hne, hquot, State.finishBig_of_capacity h.1 rd (h.capacity_tdiv ra rb)]

/-- The modulus function's residue is the least one, and it is never too large (43 R196, R197). -/
theorem exec_mod_of_pos (hpos : 0 < s.regVal rb) :
    exec (.mod rd ra rb) s = .next (s.afterBig rd (s.regVal ra % s.regVal rb)) := by
  have hmod : BigInt.modVal (s.reg ra) (s.reg rb) = s.regVal ra % s.regVal rb := modVal_eq _ _ (h.normal rb) hpos
  rw [exec, execMod, modulusError_of_val_pos hpos]
  simp only [hmod, State.finishBig_of_capacity h.1 rd (h.capacity_emod ra rb hpos)]

end

/-! ### The obligations -/

/-- Settles O23: the quotient is the truncated one, and no larger than the dividend. -/
theorem divIsTheTruncatedQuotient : Obligations.DivIsTheTruncatedQuotient :=
  ⟨fun _ _ _ => decode_commandWord 0x30 rfl rfl,
    fun _ rd ra rb h => ⟨exec_div_of_zero rd ra rb, exec_div_of_ne_zero rd ra rb h⟩⟩

/-- Settles O24: the residue of a positive modulus is the dividend less the modulus times the floor quotient. -/
theorem modIsTheLeastResidue : Obligations.ModIsTheLeastResidue := by
  refine ⟨fun rd ra rb => decode_commandWord 0x31 rfl rfl,
    fun s rd ra rb h => ⟨exec_mod_of_zero rd ra rb, exec_mod_of_neg rd ra rb, fun hpos => ?_⟩⟩
  rw [Int.fdiv_eq_ediv_of_nonneg _ hpos.le, ← Int.emod_def]
  exact exec_mod_of_pos rd ra rb h hpos

/-- Settles O25: DIV writes the truncated quotient and MOD the least residue, whose relation is an identity of integers. -/
theorem quotientAndResidueBySign : Obligations.QuotientAndResidueBySign := by
  intro s rd rm ra rb h hpos
  refine ⟨_, _, exec_div_of_ne_zero rd ra rb h hpos.ne', exec_mod_of_pos rm ra rb h hpos, Int.emod_nonneg _ hpos.ne',
    Int.emod_lt_of_pos _ hpos, fun ha => ⟨tdiv_eq_natAbs_div_of_nonneg ha hpos.le, emod_eq_natAbs_mod_of_nonneg ha hpos.le⟩,
    fun ha => tdiv_eq_neg_natAbs_div_of_nonpos ha.le hpos.le, fun ha => emod_eq_sub_natAbs_mod_of_neg ha hpos,
    tdiv_mul_add_emod_eq_iff hpos, fun ha hdvd => ?_⟩
  rw [tdiv_mul_add_emod _ hpos.le, if_neg (not_or.2 ⟨ha.not_ge, hdvd⟩)]

end Machine
end Sys2Proof
end

section
/-! SUPPORT. Shifter, comparator, helpers: SHL, SHR, CMP, SIZE, TZ, BIT, ABS, ISPOW2 (44_shift_compare.md rules R213 to
R221). A shift ends as the write of the shifted value does, since the early Overflow test finds just what that write would
refuse; the counts, bits and tests go to SRES as numbers that fit a word. -/

namespace Sys2Proof.Machine

/-! ### Shifts -/

section
variable {s : State} (rd ra : BigReg)

/-- A left shift adds its count to the bit length, so it leaves the capacity exactly where that sum does (44 R213). -/
theorem State.not_capacity_mul_two_pow_iff (v : Int) (k : Nat) :
    ¬ s.Capacity (v * 2 ^ k) ↔ v ≠ 0 ∧ 32 * s.params.lmax < bitlength v.natAbs + k := by
  have habs : (v * 2 ^ k).natAbs = v.natAbs * 2 ^ k := by rw [Int.natAbs_mul, Int.natAbs_pow]; rfl
  rw [State.Capacity, habs, ← bitlength_le_iff, not_le]
  by_cases hv : v = 0
  · simp [hv, bitlength]
  · rw [bitlength_mul_two_pow _ k (Int.natAbs_ne_zero.2 hv), and_iff_right hv]

/-- What the test before the shift refuses does not fit a register (44 R213, log entry 11). -/
theorem State.not_capacity_of_shiftOverflows {x : BigInt} {k : Int} (hover : s.shiftOverflows x k) :
    ¬ s.Capacity (x.val * 2 ^ k.toNat) := by
  obtain ⟨hne, hpos, hlong⟩ := hover
  rw [BigInt.mag_eq_natAbs] at hne hlong
  exact (State.not_capacity_mul_two_pow_iff x.val k.toNat).2 ⟨Int.natAbs_ne_zero.1 hne, by omega⟩

variable (h : s.Inv)
include h

/-- The test before the shift changes no outcome: the write of the shifted value refuses it too (log entry 11). -/
theorem State.Inv.shiftOverflows_redundant {x : BigInt} {k v : Int} (hv : 0 < k → v = x.val * 2 ^ k.toNat) :
    (if s.shiftOverflows x k then .next (s.raise .overflow) else .next (s.finishBig rd v) :
      Host.Outcome State Fault Refusal) = .next (s.finishBig rd v) := by
  split
  next hover =>
    have hlarge : ¬ s.Capacity v := hv hover.2.1 ▸ State.not_capacity_of_shiftOverflows hover
    exact congrArg _ (State.finishBig_of_not_capacity h.1 rd hlarge).symm
  next => rfl

/-- SHL's algorithm on limbs writes the shifted integer (44 R212, R213). -/
theorem exec_shl : exec (.shl rd ra) s = .next (s.finishBig rd (if 0 ≤ s.sa.toInt
    then s.regVal ra * 2 ^ s.sa.toInt.toNat else (s.regVal ra).tdiv (2 ^ (-s.sa.toInt).toNat))) := by
  have hvalue := shl_val (s.reg ra) s.sa.toInt (h.normal ra)
  rw [exec, execShl, State.shiftCount, h.shiftOverflows_redundant rd fun hpos => by rw [hvalue, if_pos hpos.le], hvalue,
    State.regVal]

/-- SHR's algorithm on limbs writes the shifted integer (44 R212, R214). -/
theorem exec_shr : exec (.shr rd ra) s = .next (s.finishBig rd (if 0 ≤ s.sa.toInt
    then (s.regVal ra).tdiv (2 ^ s.sa.toInt.toNat) else s.regVal ra * 2 ^ (-s.sa.toInt).toNat)) := by
  have hvalue := shr_val (s.reg ra) s.sa.toInt (h.normal ra)
  rw [exec, execShr, State.shiftCount,
    h.shiftOverflows_redundant rd fun hpos => by rw [hvalue, if_neg (by omega)], hvalue, State.regVal]

/-- A right shift is no larger than its operand, so it fits a register (44 R213, R214). -/
theorem State.Inv.finishBig_tdiv (m : Int) :
    s.finishBig rd ((s.regVal ra).tdiv m) = s.afterBig rd ((s.regVal ra).tdiv m) :=
  State.finishBig_of_capacity h.1 rd ((Int.natAbs_tdiv_le_natAbs _ m).trans_lt (h.capacity ra))

/-! ### Bit lengths of registers -/

/-- The bit length of a register is at most 32 LMAX (10 R22). -/
theorem State.Inv.bitlength_le : bitlength (s.regVal ra).natAbs ≤ 2097120 := by
  have hlength : bitlength (s.regVal ra).natAbs ≤ 32 * s.params.lmax := (bitlength_le_iff _ _).2 (h.capacity ra)
  have hlmax := h.1.2
  omega

/-- A power of two that divides a non-zero register has an exponent below the register's bit length (44 R218). -/
theorem State.Inv.exponent_lt_of_dvd {k : Nat} (hne : s.regVal ra ≠ 0) (hdvd : 2 ^ k ∣ (s.regVal ra).natAbs) :
    k < 2097120 :=
  ((lt_bitlength_iff _ _).2 (Nat.le_of_dvd (Int.natAbs_pos.2 hne) hdvd)).trans_le (h.bitlength_le ra)

end

/-! ### Results in SRES -/

section
variable {s : State} {ra rb : BigReg}

/-- A number that fits a word is zero exactly where the word is, so Z is the number's own (10 R27). -/
theorem State.finishScalar_of_lt {v : Nat} (hv : v < 2 ^ 32) :
    s.finishScalar v = s.afterScalar (BitVec.ofNat 32 v) (decide (v = 0)) false := by
  have hzero : BitVec.ofNat 32 v = 0 ↔ v = 0 := by
    rw [← BitVec.toNat_inj, BitVec.toNat_ofNat, Nat.mod_eq_of_lt hv]; rfl
  rw [State.finishScalar_eq, decide_eq_decide.2 hzero]

/-- CMP writes the sign of the comparison and its flags (44 R215, R216). -/
theorem exec_cmp_of_cmp_eq {c : Int} (hc : BigInt.cmp (s.reg ra) (s.reg rb) = c) :
    exec (.cmp ra rb) s = .next (s.afterScalar (BitVec.ofInt 32 c) (decide (c = 0)) (decide (c < 0))) := by
  rw [← hc]; rfl

/-- SIZE's formula on the top limb gives the bit length (44 R217). -/
theorem exec_size (h : s.Inv) : exec (.size ra) s = .next (s.finishScalar (bitlength (s.regVal ra).natAbs)) := by
  rw [exec, execSize, magSize_eq _ (h.normal ra).1, State.regVal, ← BigInt.mag_eq_natAbs]; rfl

/-- TZ has no count to give for zero (44 R218). -/
theorem exec_tz_of_zero (hzero : s.regVal ra = 0) : exec (.tz ra) s = .next (s.afterError 5) :=
  if_pos ((s.reg ra).mag_eq_natAbs.trans (Int.natAbs_eq_zero.2 hzero))

/-- TZ's limb count and bit count give the largest exponent of two that divides (44 R218). -/
theorem exec_tz_of_ne_zero (hne : s.regVal ra ≠ 0) : ∃ k, 2 ^ k ∣ (s.regVal ra).natAbs ∧
    ¬ 2 ^ (k + 1) ∣ (s.regVal ra).natAbs ∧ exec (.tz ra) s = .next (s.finishScalar k) := by
  have hmag : mag (s.reg ra).limbs = (s.regVal ra).natAbs := (s.reg ra).mag_eq_natAbs
  have hmag0 : mag (s.reg ra).limbs ≠ 0 := hmag ▸ Int.natAbs_ne_zero.2 hne
  obtain ⟨hdvd, hlargest⟩ := magTrailingZeros_spec _ hmag0
  exact ⟨_, hmag ▸ hdvd, hmag ▸ hlargest, if_neg hmag0⟩

/-- BIT's limb and bit index read the bit of the magnitude, stored or not (44 R219). -/
theorem exec_bit : exec (.bit ra) s = .next (s.finishScalar ((s.regVal ra).natAbs / 2 ^ s.sa.toNat % 2)) := by
  rw [exec, execBit, magBit_eq, State.regVal, ← BigInt.mag_eq_natAbs]; rfl

end

/-! ### The obligations -/

/-- Settles O26: the shifted integer is exact; to the left its bit length grows by the count, to the right it shrinks. -/
theorem shlShiftsByTheSignedCount : Obligations.ShlShiftsByTheSignedCount := by
  refine ⟨fun rd ra => decode_commandWord 0x40 rfl rfl, fun s rd ra h => ?_⟩
  have hleft (hcount : 0 ≤ s.sa.toInt) :
      exec (.shl rd ra) s = .next (s.finishBig rd (s.regVal ra * 2 ^ s.sa.toInt.toNat)) := by
    rw [exec_shl rd ra h, if_pos hcount]
  refine ⟨fun hcount => (h.exec_of_finishBig rd (hleft hcount)).1,
    fun hcount => (h.exec_of_finishBig rd (hleft hcount)).2, fun _ => State.not_capacity_mul_two_pow_iff _ _, fun hcount => ?_⟩
  rw [exec_shl rd ra h, if_neg hcount.not_ge, h.finishBig_tdiv]

/-- Settles O27: SHR is the same shift with the directions exchanged. -/
theorem shrShiftsByTheSignedCount : Obligations.ShrShiftsByTheSignedCount := by
  refine ⟨fun rd ra => decode_commandWord 0x41 rfl rfl, fun s rd ra h => ?_⟩
  have hleft (hcount : s.sa.toInt < 0) :
      exec (.shr rd ra) s = .next (s.finishBig rd (s.regVal ra * 2 ^ (-s.sa.toInt).toNat)) := by
    rw [exec_shr rd ra h, if_neg hcount.not_ge]
  refine ⟨fun hcount => ?_, fun hcount => (h.exec_of_finishBig rd (hleft hcount)).1,
    fun hcount => (h.exec_of_finishBig rd (hleft hcount)).2⟩
  rw [exec_shr rd ra h, if_pos hcount, h.finishBig_tdiv]

/-- Settles O28: the comparison of normalized values is the order of the integers. -/
theorem cmpReportsTheOrder : Obligations.CmpReportsTheOrder := by
  refine ⟨fun ra rb => decode_commandWord 0x50 rfl rfl, fun s ra rb h => ?_⟩
  have hcmp : BigInt.cmp (s.reg ra) (s.reg rb) =
      if s.regVal ra < s.regVal rb then -1 else if s.regVal ra = s.regVal rb then 0 else 1 :=
    cmp_eq _ _ (h.normal ra) (h.normal rb)
  refine ⟨fun hlt => ?_, fun heq => ?_, fun hgt => ?_⟩
  · exact exec_cmp_of_cmp_eq (hcmp.trans (if_pos hlt))
  · exact exec_cmp_of_cmp_eq (hcmp.trans (by rw [if_neg heq.not_lt, if_pos heq]))
  · exact exec_cmp_of_cmp_eq (hcmp.trans (by rw [if_neg hgt.not_gt, if_neg hgt.ne']))

/-- Settles O29: the bit length is the least exponent, and the capacity keeps it within a word. -/
theorem sizeIsTheBitLength : Obligations.SizeIsTheBitLength := by
  refine ⟨fun ra => decode_commandWord 0x51 rfl rfl, fun s ra h => ?_⟩
  have hle := h.bitlength_le ra
  refine ⟨bitlength (s.regVal ra).natAbs, fun j => (bitlength_le_iff _ j).symm, hle, ?_⟩
  rw [exec_size h, State.finishScalar_of_lt (by omega)]

/-- Settles O30: the count of a non-zero value is below its bit length, so it fits a word. -/
theorem tzCountsTheLowZeroBits : Obligations.TzCountsTheLowZeroBits := by
  refine ⟨fun ra => decode_commandWord 0x52 rfl rfl, fun s ra h => ⟨exec_tz_of_zero, fun hne => ?_⟩⟩
  obtain ⟨k, hdvd, hlargest, hexec⟩ := exec_tz_of_ne_zero hne
  have hlt := h.exponent_lt_of_dvd ra hne hdvd
  exact ⟨k, hdvd, hlargest, hlt, by rw [hexec, State.finishScalar_of_lt (by omega)]⟩

/-- Settles O31: a bit of the limbs is the bit of the magnitude, 0 or 1. -/
theorem bitReadsOneBitOfTheMagnitude : Obligations.BitReadsOneBitOfTheMagnitude := by
  refine ⟨fun ra => decode_commandWord 0x53 rfl rfl, fun s ra => ?_⟩
  rw [exec_bit, State.finishScalar_of_lt ((Nat.mod_lt _ two_pos).trans (by decide))]

/-- Settles O32: a magnitude is its own magnitude, so it fits where the value did. -/
theorem absWritesTheMagnitude : Obligations.AbsWritesTheMagnitude := by
  refine ⟨fun rd ra => decode_commandWord 0x54 rfl rfl, fun s rd ra h => ?_⟩
  have hfits : s.Capacity ((s.regVal ra).natAbs : Int) := h.capacity ra
  rw [exec, execAbs, BigInt.mag_eq_natAbs]
  exact congrArg _ (State.finishBig_of_capacity h.1 rd hfits)

/-- Settles O33: the test holds of the powers of two alone. -/
theorem ispow2TestsForAPowerOfTwo : Obligations.Ispow2TestsForAPowerOfTwo := by
  refine ⟨fun ra => decode_commandWord 0x55 rfl rfl, fun s ra => ⟨fun hpow => ?_, fun hnot => ?_⟩⟩
  · rw [exec, execIspow2, if_pos ((isPow2_iff _).2 hpow)]; rfl
  · rw [exec, execIspow2, if_neg (mt (isPow2_iff _).1 hnot)]; rfl

end Sys2Proof.Machine
end

section
/-! SUPPORT. Modular block: GCD, BEZOUT, MODINV, MULMOD and MODEXP (45_modular.md rules R241, R244, R246, R251, R260,
R261). Each writes a value that fits a register: a divisor of an operand, coefficients bounded by the operands, or a
residue below the modulus. The three commands with a modulus share one check of it. -/

namespace Sys2Proof.Machine

/-! ### The word of BEZOUT with one destination -/

/-- The word that names one register for both results of BEZOUT does not decode (30 R95). -/
theorem decode_commandWord_bezout_sameDestination (rd ra rb : BigReg) (i : Instr) :
    decode (commandWord 0x61 rd ra rb rd) ≠ .ok i := by
  have hword : commandWord 0x61 rd ra rb rd = assemble 0x61 rd ra rb rd := commandWord_eq_assemble 0x61 rd ra rb rd
  have hrd : rd.val = registerField (assemble 0x61 rd ra rb rd) 8 := rdField_eq_iff.1 (rdField_assemble ..)
  have hrc : rd.val = registerField (assemble 0x61 rd ra rb rd) 20 := rcField_eq_iff.1 (rcField_assemble ..)
  rw [hword]
  exact decode_ne_ok_of_sameDestination (assemble_mask 0x61 rd ra rb rd .fmtDABC trivial) (hrd.symm.trans hrc) i

/-! ### Values that fit -/

section
variable {s : State} (h : s.Inv) (ra rb : BigReg)
include h

/-- A greatest common divisor is no larger than the larger operand, so it fits a register (45 R241). -/
theorem State.Inv.capacity_gcd : s.Capacity (Int.gcd (s.regVal ra) (s.regVal rb) : Int) := by
  refine h.capacity_of_le_max ra rb ?_
  rw [Int.natAbs_natCast, Int.gcd]
  by_cases hzero : (s.regVal ra).natAbs = 0
  · rw [hzero, Nat.gcd_zero_left]
    exact le_max_right _ _
  · exact le_max_of_le_left (Nat.gcd_le_left _ (Nat.pos_of_ne_zero hzero))

/-- A coefficient of at most 1 or at most a register's value fits a register (45 R242, R244). -/
theorem State.Inv.capacity_of_le_max_one {v : Int} (hv : v.natAbs ≤ max 1 (max (s.regVal ra).natAbs (s.regVal rb).natAbs)) :
    s.Capacity v := by
  have hone : 1 < 2 ^ (32 * s.params.lmax) := Nat.one_lt_two_pow (by have := h.1.1; omega)
  exact hv.trans_lt (max_lt hone (max_lt (h.capacity ra) (h.capacity rb)))

/-- A value in `[0, m)` fits a register, since the modulus does (45 R246, R251, R260). -/
theorem State.Inv.finishBig_of_residue (rd : BigReg) {v : Int} (hnonneg : 0 ≤ v) (hlt : v < s.regVal rb) :
    s.finishBig rd v = s.afterBig rd v :=
  State.finishBig_of_capacity h.1 rd (lt_of_le_of_lt (by omega) (h.capacity rb))

end

/-! ### Greatest common divisor and Bezout coefficients -/

section
variable {s : State} (rd rc ra rb : BigReg)

/-- GCD's Euclidean loop writes the greatest common divisor of the integers (45 R240, R241). -/
theorem exec_gcd : exec (.gcd rd ra rb) s = .next (s.finishBig rd (Int.gcd (s.regVal ra) (s.regVal rb) : Int)) := by
  rw [exec, execGcd, gcdOf_eq]

/-- The gcd of the smaller and the larger input is that of the two as they come (45 R243). -/
theorem bezout_gcd (a b : Nat) : (bezout a b).1 = Int.gcd a b := by
  rw [(bezout_spec a b).gcd_eq, Int.gcd_natCast_natCast]
  obtain hab | hba := le_total a b
  · rw [min_eq_left hab, max_eq_right hab]
  · rw [min_eq_right hba, max_eq_left hba, Nat.gcd_comm]

/-- BEZOUT refuses a negative source (45 R244). -/
theorem exec_bezout_of_neg (hne : rd ≠ rc) (hneg : s.regVal ra < 0 ∨ s.regVal rb < 0) :
    exec (.bezout rd rc ra rb) s = .next (s.afterError 5) := by
  rw [exec, execBezout, if_neg hne, if_pos hneg]
  rfl

/-- BEZOUT's pair is that of `bezout`; R242's bound keeps both values within the capacity (45 R243, R244). -/
theorem exec_bezout_of_natCast (h : s.Inv) (hne : rd ≠ rc) {a b : Nat} (ha : s.regVal ra = a) (hb : s.regVal rb = b) :
    exec (.bezout rd rc ra rb) s = .next (s.afterPair rd rc (bezout a b).2.1 (bezout a b).2.2) := by
  obtain ⟨hu, hw⟩ := (bezout_spec a b).bound min_le_max
  have hfitsU : s.Capacity (bezout a b).2.1 := h.capacity_of_le_max_one ra rb (by omega)
  have hfitsW : s.Capacity (bezout a b).2.2 := h.capacity_of_le_max_one ra rb (by omega)
  rw [exec, execBezout, if_neg hne, if_neg (by omega), ha, hb]
  exact congrArg _ (s.finishBigPair_fits rd rc _ _ ⟨(s.fits_iff h.1 _).2 hfitsU, (s.fits_iff h.1 _).2 hfitsW⟩)

end

/-! ### The commands with a modulus -/

section
variable {s : State} (rd ra rb rc : BigReg)

/-- A command that checks the modulus in `rm` first ends in error 1 where it is zero, in error 2 where it is negative,
and goes on to `o` where it is positive (43 R196). -/
theorem exec_of_modulusCheck {i : Instr} {o : Host.Outcome State Fault Refusal} (rm : BigReg)
    (hi : exec i s = (modulusError (s.reg rm)).elim o fun e => .next (s.raise e)) :
    (s.regVal rm = 0 → exec i s = .next (s.afterError 1)) ∧
    (s.regVal rm < 0 → exec i s = .next (s.afterError 2)) ∧
    (0 < s.regVal rm → exec i s = o) := by
  refine ⟨fun hzero => ?_, fun hneg => ?_, fun hpos => ?_⟩
  · rw [hi, modulusError_of_val_eq_zero hzero]
    rfl
  · rw [hi, modulusError_of_val_neg hneg]
    rfl
  · rw [hi, modulusError_of_val_pos hpos]
    rfl

/-- MODINV checks its modulus, then whether the inverse exists (45 R246). -/
theorem exec_modinv : exec (.modinv rd ra rb) s = (modulusError (s.reg rb)).elim
    ((modinv (s.regVal ra) (s.regVal rb)).elim (.next (s.raise .noInverse)) fun v => .next (s.finishBig rd v))
    fun e => .next (s.raise e) := by
  rw [exec, execModinv]
  cases modulusError (s.reg rb) with
  | some e => rfl
  | none => cases modinv (s.regVal ra) (s.regVal rb) <;> rfl

/-- MULMOD checks its modulus, and nothing of the product (45 R251). -/
theorem exec_mulmod : exec (.mulmod rd ra rb rc) s = (modulusError (s.reg rc)).elim
    (.next (s.finishBig rd (modmul (s.regVal ra) (s.regVal rb) (s.regVal rc)))) fun e => .next (s.raise e) := by
  rw [exec, execMulmod]
  cases modulusError (s.reg rc) <;> rfl

/-- MODEXP checks its modulus, then the sign of its exponent (45 R252, R260). -/
theorem exec_modexp : exec (.modexp rd ra rb rc) s = (modulusError (s.reg rc)).elim
    (if s.regVal rb < 0 then .next (s.raise .domain)
      else .next (s.finishBig rd (modexp s.params.ladder (s.regVal ra) (s.regVal rb) (s.regVal rc))))
    fun e => .next (s.raise e) := by
  rw [exec, execModexp]
  cases modulusError (s.reg rc) <;> rfl

end

/-! ### The obligations -/

/-- Settles O34: the Euclidean loop's value is the greatest common divisor, which fits where the operands did. -/
theorem gcdIsTheGreatestCommonDivisor : Obligations.GcdIsTheGreatestCommonDivisor := by
  refine ⟨fun rd ra rb => decode_commandWord 0x60 rfl rfl, fun s rd ra rb h => ?_⟩
  rw [exec_gcd, State.finishBig_of_capacity h.1 rd (h.capacity_gcd ra rb)]

/-- Settles O35: the pair is that of the Euclidean recursion, whose identity and bound carry over to the registers. -/
theorem bezoutWritesTheCoefficients : Obligations.BezoutWritesTheCoefficients := by
  refine ⟨fun rd rc ra rb hne => decode_commandWord 0x61 rfl (bne_iff_ne.2 hne), fun s rd ra rb hcur => ?_,
    fun s rd rc ra rb h hne => ⟨exec_bezout_of_neg rd rc ra rb hne, fun hra hrb => ?_⟩⟩
  · refine unitStep_of_decode_ne_ok fun i => ?_
    rw [hcur]
    exact decode_commandWord_bezout_sameDestination rd ra rb i
  · obtain ⟨a, ha⟩ := Int.eq_ofNat_of_zero_le hra
    obtain ⟨b, hb⟩ := Int.eq_ofNat_of_zero_le hrb
    have hspec := bezout_spec a b
    obtain ⟨hu, hw⟩ := hspec.bound min_le_max
    refine ⟨(bezout a b).1, _, _, ?_, exec_bezout_of_natCast rd rc ra rb h hne ha hb, ?_⟩
    all_goals rw [ha, hb, ← Nat.cast_min, ← Nat.cast_max]
    · exact hspec
    · exact ⟨bezout_gcd a b, hspec.identity, by exact_mod_cast hu, by exact_mod_cast hw⟩

/-- Settles O36: the coefficient of the Euclidean recursion, reduced by the modulus, is the inverse. -/
theorem modinvIsTheInverse : Obligations.ModinvIsTheInverse := by
  refine ⟨fun rd ra rb => decode_commandWord 0x62 rfl rfl, fun s rd ra rb h => ?_⟩
  obtain ⟨hzero, hneg, hexec⟩ := exec_of_modulusCheck rb (exec_modinv rd ra rb)
  refine ⟨hzero, hneg, fun hpos hgcd => ?_, fun hpos hgcd => ?_⟩
  all_goals rw [Int.gcd_emod] at hgcd
  · rw [hexec hpos, modinv_none _ _ hpos hgcd]
    rfl
  · obtain ⟨v, hinv, hnonneg, hlt, hunit⟩ := modinv_some _ _ hpos hgcd
    refine ⟨v, ?_, hnonneg, hlt, hunit⟩
    rw [hexec hpos, hinv, ← h.finishBig_of_residue rb rd hnonneg hlt]
    rfl

/-- Settles O37: the product is reduced before it is written, so only the residue has to fit. -/
theorem mulmodIsTheReducedProduct : Obligations.MulmodIsTheReducedProduct := by
  refine ⟨fun rd ra rb rc => decode_commandWord 0x63 rfl rfl, fun s rd ra rb rc h => ?_⟩
  obtain ⟨hzero, hneg, hexec⟩ := exec_of_modulusCheck rc (exec_mulmod rd ra rb rc)
  refine ⟨hzero, hneg, fun hpos => ?_⟩
  rw [hexec hpos, modmul_eq _ _ _ hpos,
    h.finishBig_of_residue rc rd (Int.emod_nonneg _ hpos.ne') (Int.emod_lt_of_pos _ hpos)]

/-- Settles O38: after the checks both loops give the contract's value, 0 or a residue of the modulus. -/
theorem modexpIsTheReducedPower : Obligations.ModexpIsTheReducedPower := by
  refine ⟨fun rd ra rb rc => decode_commandWord 0x64 rfl rfl, fun s rd ra rb rc h => ?_⟩
  obtain ⟨hzero, hneg, hexec⟩ := exec_of_modulusCheck rc (exec_modexp rd ra rb rc)
  refine ⟨hzero, hneg, fun hpos hexp => ?_, fun hpos hexp hdvd => ?_, fun hpos hexp hdvd => ?_⟩
  · rw [hexec hpos, if_pos hexp]
    rfl
  · rw [hexec hpos, if_neg hexp.not_gt, modexp_eq _ _ _ _ hpos hexp, if_pos hdvd,
      h.finishBig_of_residue rc rd le_rfl hpos]
  · rw [hexec hpos, if_neg hexp.not_gt, modexp_eq _ _ _ _ hpos hexp, if_neg hdvd,
      h.finishBig_of_residue rc rd (Int.emod_nonneg _ hpos.ne') (Int.emod_lt_of_pos _ hpos)]

end Sys2Proof.Machine
end

section
/-! SUPPORT. Errors, STATUS and the interrupt (60_exceptions.md rules R281 to R289): a completion step takes an error or
leaves the error record as it was, each command takes only the errors of its row, and `irq` follows CTRL.IE and DONE. -/

namespace Sys2Proof.Machine

/-! ### The STATUS write and the interrupt -/

/-- Without DONE there is no interrupt (60 R289). -/
theorem State.irq_eq_false_of_done {s : State} (h : s.done = false) : s.irq = false := by
  rw [State.irq, h, Bool.and_false]

section
variable (s : State) (v : Word)

/-- The state after a STATUS write: the W1C bits that are set clear, ERR together with its record (10 R28, 60 R287). -/
theorem State.writeStatus_eq : s.writeStatus v =
    { s with
      done := s.done && !v.getLsbD 1
      drop := s.drop && !v.getLsbD 3
      err := s.err && !v.getLsbD 2
      ecode := if v.getLsbD 2 then 0 else s.ecode
      ecmd := if v.getLsbD 2 then 0 else s.ecmd } := by
  unfold State.writeStatus
  cases v.getLsbD 2 with
  | false => simp
  | true => simp [State.acknowledge]

/-- The acceptance of a command lowers the interrupt (20 R66, 60 R289). -/
theorem State.irq_accept : (s.accept v).irq = false := State.irq_eq_false_of_done rfl

/-- A STATUS write that names DONE lowers the interrupt (10 R28, 60 R289). -/
theorem State.irq_writeStatus (hdone : v.getLsbD 1 = true) : (s.writeStatus v).irq = false := by
  obtain ⟨hbit, -, -⟩ := s.writeStatus_bits v
  exact State.irq_eq_false_of_done (by rw [hbit, hdone, Bool.not_true, Bool.and_false])

end

/-- A completion step raises DONE and leaves CTRL, so the interrupt is CTRL.IE after it (60 R289). -/
theorem irq_of_exec {i : Instr} {s t : State} (h : exec i s = .next t) : t.irq = s.ie := by
  obtain ⟨-, hdone, -, -, hie, -⟩ := (exec_end h).completes
  rw [State.irq, hdone, hie, Bool.and_true]

/-- A write at the offset of STATUS is performed whatever BUSY is (20 R65). -/
theorem access_write_status (s : State) (v : Word) :
    s.access ⟨.w32, 0x008, .write v⟩ = .next ((s.writeStatus v).respond .ok) :=
  access_write_register s v (by decide) rfl

/-- Settles O53: the acknowledgement clears ERR, which an idle unit needs to accept a command. -/
theorem statusWriteClearsAndAcknowledges : Obligations.StatusWriteClearsAndAcknowledges := by
  intro s v _
  refine ⟨_, access_write_status s v, congrArg (State.respond · .ok) (s.writeStatus_eq v), fun hack hidle c => ?_⟩
  have hbusy : (s.writeStatus v).busy = false := by rw [s.writeStatus_eq]; exact hidle
  have herr : (s.writeStatus v).err = false := by simp [s.writeStatus_eq, hack]
  exact State.issue_accepted c hbusy herr

/-- Settles O56: the events that touch CTRL.IE or DONE, one by one. -/
theorem irqFollowsEnableAndDone : Obligations.IrqFollowsEnableAndDone := by
  intro s v _
  refine ⟨access_write_register s v (by decide) rfl, rfl, fun i t h => irq_of_exec h, fun hidle herr => ?_,
    s.irq_writeStatus v⟩
  rw [State.issue_accepted v hidle herr]
  exact s.irq_accept v

/-! ### Taking an error -/

/-- A completion step takes an error or leaves the error record as it was (60 R283). -/
theorem Ends.raise_or_sameErrorRecord {s t : State} (h : Ends s t) :
    (∃ e, t = s.raise e) ∨ s.SameErrorRecord t := by
  obtain hraise | ⟨_, _, _, rfl⟩ | ⟨_, _, _, _, _, rfl⟩ | ⟨_, _, _, rfl⟩ | ⟨_, rfl⟩ := h
  · exact .inl hraise
  all_goals exact .inr ⟨rfl, rfl, rfl⟩

/-- A command that ends with ERR set where it was clear has taken an error (60 R283). -/
theorem exists_raise_of_exec {i : Instr} {s t : State} (hclear : s.err = false) (h : exec i s = .next t)
    (herr : t.err = true) : ∃ e, t = s.raise e := by
  obtain ⟨u, hu, hends⟩ := exec_ends i s
  cases hu.symm.trans h
  refine hends.raise_or_sameErrorRecord.resolve_right fun ⟨hsame, _, _⟩ => ?_
  rw [hsame, hclear] at herr
  exact Bool.false_ne_true herr

/-- Settles O43: the command has taken an error, and a unit with an error drops commands. -/
theorem errorEntryChangesNothingElse : Obligations.ErrorEntryChangesNothingElse := by
  intro i s t hclear h herr
  have hirq : t.irq = s.ie := irq_of_exec h
  obtain ⟨e, rfl⟩ := exists_raise_of_exec hclear h herr
  obtain ⟨hne, hle⟩ := e.code_range
  exact ⟨rfl, hne, hle, hirq, fun c => State.issue_dropped c (.inr rfl)⟩

/-! ### The errors of each command -/

/-- The outcome is a next state with the error record of `s`, or one with an error code of the list. -/
def RaisesOnly (s : State) (codes : List (BitVec 4)) (o : Host.Outcome State Fault Refusal) : Prop :=
  ∃ t, o = .next t ∧ (s.SameErrorRecord t ∨ t.ecode ∈ codes)

namespace RaisesOnly
variable {s : State} {codes : List (BitVec 4)} {o : Host.Outcome State Fault Refusal}

theorem afterError {e : BitVec 4} (ho : o = .next (s.afterError e)) (he : e ∈ codes) : RaisesOnly s codes o :=
  ⟨_, ho, .inr he⟩

theorem afterBig {rd : BigReg} {v : Int} (ho : o = .next (s.afterBig rd v)) : RaisesOnly s codes o :=
  ⟨_, ho, .inl ⟨rfl, rfl, rfl⟩⟩

theorem afterPair {rd rc : BigReg} {v w : Int} (ho : o = .next (s.afterPair rd rc v w)) : RaisesOnly s codes o :=
  ⟨_, ho, .inl ⟨rfl, rfl, rfl⟩⟩

theorem afterWord {signed : Bool} {w : Word} (ho : o = .next (s.afterWord signed w)) : RaisesOnly s codes o :=
  ⟨_, ho, .inl ⟨rfl, rfl, rfl⟩⟩

theorem finishScalar {v : Nat} (ho : o = .next (s.finishScalar v)) : RaisesOnly s codes o :=
  afterWord (signed := false) (w := BitVec.ofNat 32 v) ho

/-- The write of a value of any size may end in Overflow (60 R285). -/
theorem finishBig {rd : BigReg} {v : Int} (ho : o = .next (s.finishBig rd v)) (hoverflow : 4 ∈ codes) :
    RaisesOnly s codes o := by
  by_cases hfits : s.fits v
  · exact afterBig (ho.trans (congrArg _ (s.finishBig_fits rd v hfits)))
  · exact afterError (ho.trans (congrArg _ (s.finishBig_overflow rd v hfits))) hoverflow

/-- A command with a modulus `m` refuses zero and a negative one; the rest is its own matter (43 R196). -/
theorem modulus {m : Int} (hzero : m = 0 → o = .next (s.afterError 1)) (hneg : m < 0 → o = .next (s.afterError 2))
    (hpos : 0 < m → RaisesOnly s codes o) (hcodes : 1 ∈ codes ∧ 2 ∈ codes) : RaisesOnly s codes o := by
  obtain hlt | heq | hgt := lt_trichotomy m 0
  · exact afterError (hneg hlt) hcodes.2
  · exact afterError (hzero heq) hcodes.1
  · exact hpos hgt

end RaisesOnly

section
open RaisesOnly
variable {s : State} (rd rc ra rb : BigReg)

/-- MULADD refuses a negative source, and its sum may overflow (42 R168). -/
theorem muladd_raisesOnly : RaisesOnly s [4, 5] (exec (.muladd rd ra) s) := by
  by_cases hneg : s.regVal ra < 0
  · exact afterError (exec_muladd_of_neg rd ra hneg) (by decide)
  · exact finishBig (exec_muladd_of_nonneg rd ra (not_lt.1 hneg)) (by decide)

/-- TZ refuses zero; its count always fits (44 R218). -/
theorem tz_raisesOnly : RaisesOnly s [5] (exec (.tz ra) s) := by
  by_cases hzero : s.regVal ra = 0
  · exact afterError (exec_tz_of_zero hzero) (by decide)
  · obtain ⟨_, -, -, hexec⟩ := exec_tz_of_ne_zero hzero
    exact finishScalar hexec

variable (h : s.Inv)
include h

/-- LD refuses an illegal OLEN; a legal one always fits (40 R120). -/
theorem ld_raisesOnly : RaisesOnly s [7] (exec (.ld rd) s) := by
  by_cases hbad : s.olen.toNat = 0 ∨ s.params.lmax < s.olen.toNat
  · exact afterError (exec_ld_of_olen_illegal rd hbad) (by decide)
  · exact afterBig (exec_ld_of_olen_legal h.1 rd (by omega) (by omega))

/-- DIV refuses a zero divisor; its quotient always fits (43 R194). -/
theorem div_raisesOnly : RaisesOnly s [1] (exec (.div rd ra rb) s) := by
  by_cases hzero : s.regVal rb = 0
  · exact afterError (exec_div_of_zero rd ra rb hzero) (by decide)
  · exact afterBig (exec_div_of_ne_zero rd ra rb h hzero)

/-- MOD refuses its modulus only; a residue always fits (43 R197). -/
theorem mod_raisesOnly : RaisesOnly s [1, 2] (exec (.mod rd ra rb) s) :=
  modulus (exec_mod_of_zero rd ra rb) (exec_mod_of_neg rd ra rb)
    (fun hpos => afterBig (exec_mod_of_pos rd ra rb h hpos)) (by decide)

/-- BEZOUT with two destinations: its coefficients are bounded by the operands, so they fit (45 R242, R244). -/
theorem bezout_raisesOnly (hne : rd ≠ rc) : RaisesOnly s [5] (exec (.bezout rd rc ra rb) s) := by
  obtain ⟨-, -, hspec⟩ := bezoutWritesTheCoefficients
  obtain ⟨hdomain, hvalue⟩ := hspec s rd rc ra rb h hne
  by_cases hneg : s.regVal ra < 0 ∨ s.regVal rb < 0
  · exact afterError (hdomain hneg) (by decide)
  · obtain ⟨hra, hrb⟩ := not_or.1 hneg
    obtain ⟨_, _, _, -, hexec, -⟩ := hvalue (not_lt.1 hra) (not_lt.1 hrb)
    exact afterPair hexec

/-- MODINV refuses its modulus, or finds no inverse; a residue always fits (45 R246). -/
theorem modinv_raisesOnly : RaisesOnly s [1, 2, 6] (exec (.modinv rd ra rb) s) := by
  obtain ⟨-, hspec⟩ := modinvIsTheInverse
  obtain ⟨hzero, hneg, hnone, hsome⟩ := hspec s rd ra rb h
  refine modulus hzero hneg (fun hpos => ?_) (by decide)
  by_cases hunit : Int.gcd (s.regVal ra % s.regVal rb) (s.regVal rb) = 1
  · obtain ⟨_, hexec, -⟩ := hsome hpos hunit
    exact afterBig hexec
  · exact afterError (hnone hpos hunit) (by decide)

/-- MULMOD refuses its modulus only, since the product is reduced before it is written (45 R251). -/
theorem mulmod_raisesOnly : RaisesOnly s [1, 2] (exec (.mulmod rd ra rb rc) s) := by
  obtain ⟨-, hspec⟩ := mulmodIsTheReducedProduct
  obtain ⟨hzero, hneg, hvalue⟩ := hspec s rd ra rb rc h
  exact modulus hzero hneg (fun hpos => afterBig (hvalue hpos)) (by decide)

/-- MODEXP refuses its modulus, then a negative exponent; a residue always fits (45 R252, R260). -/
theorem modexp_raisesOnly : RaisesOnly s [1, 2, 5] (exec (.modexp rd ra rb rc) s) := by
  obtain ⟨-, hspec⟩ := modexpIsTheReducedPower
  obtain ⟨hzero, hneg, hdomain, hdvd, hndvd⟩ := hspec s rd ra rb rc h
  refine modulus hzero hneg (fun hpos => ?_) (by decide)
  by_cases hexp : s.regVal rb < 0
  · exact afterError (hdomain hpos hexp) (by decide)
  · by_cases hmultiple : s.regVal rc ∣ s.regVal ra
    · exact afterBig (hdvd hpos (not_lt.1 hexp) hmultiple)
    · exact afterBig (hndvd hpos (not_lt.1 hexp) hmultiple)

/-- Every command of the unit raises only the errors of its row (60 R281). -/
theorem exec_raisesOnly {i : Instr} (hwf : i.wellFormed = true) : RaisesOnly s (mayRaise i) (exec i s) := by
  cases i with
  | ld rd => exact ld_raisesOnly rd h
  | st ra => exact ⟨_, exec_st ra, .inl ⟨rfl, rfl, rfl⟩⟩
  | mov rd ra => exact afterBig (movCopiesTheRegister.2 s rd ra h)
  | ldi rd => exact afterBig (ldiLoadsTheWideScalar.2 s rd h)
  | add rd ra rb => exact finishBig (exec_add h rd ra rb) (List.mem_singleton_self 4)
  | sub rd ra rb => exact finishBig (exec_sub h rd ra rb) (List.mem_singleton_self 4)
  | mul rd ra rb => exact finishBig (exec_mul rd ra rb) (List.mem_singleton_self 4)
  | muls rd ra => exact finishBig (exec_muls rd ra) (List.mem_singleton_self 4)
  | muladd rd ra => exact muladd_raisesOnly rd ra
  | div rd ra rb => exact div_raisesOnly rd ra rb h
  | mod rd ra rb => exact mod_raisesOnly rd ra rb h
  | shl rd ra => exact finishBig (exec_shl rd ra h) (List.mem_singleton_self 4)
  | shr rd ra => exact finishBig (exec_shr rd ra h) (List.mem_singleton_self 4)
  | cmp ra rb => exact afterWord (execCmp_eq ra rb s)
  | size ra => exact finishScalar (exec_size h)
  | tz ra => exact tz_raisesOnly ra
  | bit ra => exact finishScalar exec_bit
  | abs rd ra => exact afterBig (absWritesTheMagnitude.2 s rd ra h)
  | ispow2 ra => exact finishScalar rfl
  | gcd rd ra rb => exact afterBig (gcdIsTheGreatestCommonDivisor.2 s rd ra rb h)
  | bezout rd rc ra rb => exact bezout_raisesOnly rd rc ra rb h (bne_iff_ne.1 hwf)
  | modinv rd ra rb => exact modinv_raisesOnly rd ra rb h
  | mulmod rd ra rb rc => exact mulmod_raisesOnly rd rc ra rb h
  | modexp rd ra rb rc => exact modexp_raisesOnly rd rc ra rb h

end

/-- Settles O44: what each command can end in, by its own contract. -/
theorem commandsRaiseOnlyTheirErrors : Obligations.CommandsRaiseOnlyTheirErrors := by
  intro i s t h hwf hclear hexec
  obtain ⟨u, hu, hends⟩ := exec_raisesOnly h hwf
  cases hu.symm.trans hexec
  exact hends.imp_left fun ⟨herr, hecode, hecmd⟩ => ⟨herr.trans hclear, hecode, hecmd⟩

end Sys2Proof.Machine
end
